-- ==== Sys2Proof/Word.lean ====
section
/-! DEFINITION. The word types of WBRT: the 32-bit host word, the byte, the 256-bit vector and the 256 x 256 matrix of
10_state.md R15 and R16. Only the types and their plainest readings stand here. -/

namespace Sys2Proof

/-- A 32-bit host word: bus data, bus address or command word (20_memory.md R35, 30_encoding.md R56). -/
abbrev Word32 := BitVec 32

/-- One byte. -/
abbrev Byte := BitVec 8

/-- A 256-bit value: bit `k` is GF(2) coordinate `k` (00_scope.md R8, R9). -/
abbrev Vec := BitVec 256

/-- A 256 x 256 bit matrix, row by row: row `i` is output coordinate `i`, bit `j` of it is the entry `(i, j)`
(20_memory.md R42). -/
abbrev BitMatrix := Vector Vec 256

/-- The mark of a 32-byte register: bit `j` is 1 iff byte `j` was written since reset (70_reset_and_hazards.md R113). -/
abbrev ByteMarks := BitVec 32

end Sys2Proof
end

