-- ==== Sys2Proof/Config.lean ====
section
/-! DEFINITION. What is fixed for the block: the identification constants, the address map of 20_memory.md R38, the open
platform parameters and the free values. -/

namespace Sys2Proof.Config

/-- ID, always 0x57424145 (10_state.md R23). -/
def id : Word32 := 0x57424145

/-- HWVER, always 1 (10_state.md R24). -/
def hwver : Word32 := 0x00000001

/-- First address of V[0] (20_memory.md R40). -/
def vecBase : Nat := 0x1000

/-- First address of BUF (20_memory.md R41). -/
def bufBase : Nat := 0x1100

/-- First address of IN (20_memory.md R41). -/
def inBase : Nat := 0x1120

/-- First address of ACC (20_memory.md R41). -/
def accBase : Nat := 0x1140

/-- First address of M[0] (20_memory.md R42). -/
def matBase : Nat := 0x8000

/-- First address of FIN_L (20_memory.md R43). -/
def finL : Nat := 0x10000

/-- First address of FIN_C (20_memory.md R43). -/
def finC : Nat := 0x12000

/-- First address of FOUT_L (20_memory.md R43). -/
def foutL : Nat := 0x14000

/-- First address of FOUT_C (20_memory.md R43). -/
def foutC : Nat := 0x16000

/-- First address of TBL (20_memory.md R44). -/
def tblBase : Nat := 0x40000000

/-- The size of TBL in bytes: 10 rounds of 32 tables of 65536 entries of 32 bytes (00_scope.md R6, 90_conflicts.md C1). -/
def tblSize : Nat := 10 * 32 * 65536 * 32

/-- FREE VALUE. The word that a host read of V, BUF, IN, ACC or M returns while BUSY = 1, one for each draw
(20_memory.md R47 (b), 93_implementation_defined.md U2; log 8). No value of it can be proved. -/
opaque busyRead : Nat → Word32

/-- OPEN parameter WBRT_BASE: the platform address of offset 0 (20_memory.md R38; log 12). -/
opaque wbrtBase : Nat

/-- OPEN parameter WBRT_IRQ_LINE: the platform line that IRQ drives (60_exceptions.md R103; log 12). -/
opaque wbrtIrqLine : Nat

/-- The platform address of a block address (20_memory.md R38: every address of the spec is an offset). -/
def platformAddress (offset : Nat) : Nat := wbrtBase + offset

end Sys2Proof.Config
end

