-- ==== Sys2Proof/Syntax.lean ====
section
/-! DEFINITION. The commands of WBRT: one constructor for each row of spec/opcode_table.json (30_encoding.md R58). -/

namespace Sys2Proof

/-- A dimension `n` (30_encoding.md R57). -/
inductive Dim where
  | d8
  | d128
  | d256
  deriving DecidableEq, Repr

/-- The number of a vector register, class V: 0..7 (30_encoding.md R57). -/
abbrev VReg := Fin 8

/-- The number of a matrix register, class M: 0..3 (30_encoding.md R57). -/
abbrev MReg := Fin 4

/-- The number of an affine register, class A: 0..3 (30_encoding.md R57, 10_state.md R17). -/
abbrev AReg := Fin 4

/-- The commands (30_encoding.md R58). Destination first, as in the assembler (R62). A term is meaningful only if it is
well formed (WellFormed.lean): an affine command has no 128-bit form, a round number is 1..10. -/
inductive Instr where
  | nop
  | mident (n : Dim) (d : MReg)
  | mmul (n : Dim) (d s1 s2 : MReg)
  | minv (n : Dim) (d s : MReg)
  | mapply (n : Dim) (d : VReg) (m : MReg) (s : VReg)
  | meq (n : Dim) (s1 s2 : MReg)
  | aapply (n : Dim) (d : VReg) (a : AReg) (s : VReg)
  | acomp (n : Dim) (d s1 s2 : AReg)
  | ainv (n : Dim) (d s : AReg)
  | eval
  | evalFin
  | evalRound (r : BitVec 4)
  | evalFout
  deriving DecidableEq, Repr

end Sys2Proof
end

