-- ==== Sys2Proof/WellFormed.lean ====
section
/-! DEFINITION. The checks of 30_encoding.md R59 that the operand types of Instr do not already make: the dimension of an
affine command, and the round number. -/

namespace Sys2Proof

/-- An affine command has dimension 8 or 256 (30_encoding.md R58, R60). -/
def Dim.affine : Dim → Bool
  | .d8 => true
  | .d128 => false
  | .d256 => true

/-- A round number is 1..10 (30_encoding.md R57, R59 (6)). -/
def roundLegal (r : BitVec 4) : Bool := decide (1 ≤ r.toNat ∧ r.toNat ≤ 10)

/-- The command is one that some legal word stands for (30_encoding.md R59). -/
def Instr.wellFormed : Instr → Bool
  | .nop => true
  | .mident _ _ => true
  | .mmul _ _ _ _ => true
  | .minv _ _ _ => true
  | .mapply _ _ _ _ => true
  | .meq _ _ _ => true
  | .aapply n _ _ _ => n.affine
  | .acomp n _ _ _ => n.affine
  | .ainv n _ _ => n.affine
  | .eval => true
  | .evalFin => true
  | .evalRound r => roundLegal r
  | .evalFout => true

end Sys2Proof
end

