-- ==== Sys2Proof/Decode.lean ====
section
/-! DEFINITION. The command word: its fields, the decoder, the legality predicate as the spec writes it, and the encoder
(30_encoding.md R56 to R61). -/

namespace Sys2Proof

/-- Why a word is illegal. The block tells none of them apart: each is the one cause ILLEGAL (60_exceptions.md R98,
R102 (a)). -/
inductive Reject where
  /-- OP is not in the opcode map (30_encoding.md R59 (1)). -/
  | unassignedOpcode
  /-- RSV is not 0 (30_encoding.md R59 (2)). -/
  | reservedBits
  /-- DIM is not in the row's set (30_encoding.md R59 (3)). -/
  | dimension
  /-- A field of class Z, or an unused RND, is not 0 (30_encoding.md R59 (4), (6)). -/
  | unusedField
  /-- A field of class M or A is above 3 (30_encoding.md R59 (5)). -/
  | registerNumber
  /-- The round number of EVAL_ROUND is not 1..10 (30_encoding.md R59 (6)). -/
  | roundNumber
  deriving DecidableEq, Repr

/-! The fields of 30_encoding.md R56. -/

def opField (w : Word32) : BitVec 8 := w.extractLsb' 24 8
def dimField (w : Word32) : BitVec 2 := w.extractLsb' 22 2
def rdField (w : Word32) : BitVec 3 := w.extractLsb' 19 3
def rs1Field (w : Word32) : BitVec 3 := w.extractLsb' 16 3
def rs2Field (w : Word32) : BitVec 3 := w.extractLsb' 13 3
def rndField (w : Word32) : BitVec 4 := w.extractLsb' 9 4
def rsvField (w : Word32) : BitVec 9 := w.extractLsb' 0 9

/-! The operand decoders of 30_encoding.md R57. -/

/-- A field that must be 0: class Z, and RND where it is unused. -/
def zeroField {k : Nat} (f : BitVec k) : Except Reject Unit :=
  if f = 0 then .ok () else .error .unusedField

/-- Class M or A: 0..3. -/
def quadField (f : BitVec 3) : Except Reject (Fin 4) :=
  if h : f.toNat < 4 then .ok ⟨f.toNat, h⟩ else .error .registerNumber

/-- Class V: 0..7, every value of the field. -/
def vecField (f : BitVec 3) : Except Reject VReg := .ok f.toFin

/-- The DIM field of a matrix command: 8, 128 or 256. -/
def matrixDim (f : BitVec 2) : Except Reject Dim :=
  if f = 0 then .ok .d8 else if f = 1 then .ok .d128 else if f = 2 then .ok .d256 else .error .dimension

/-- The DIM field of an affine command: 8 or 256. -/
def affineDim (f : BitVec 2) : Except Reject Dim :=
  if f = 0 then .ok .d8 else if f = 2 then .ok .d256 else .error .dimension

/-- The DIM field of NOP and of the evaluator commands: 0. -/
def noDim (f : BitVec 2) : Except Reject Unit :=
  if f = 0 then .ok () else .error .dimension

/-- A word whose fields but OP and RSV must all be 0 stands for `i` (NOP, EVAL, EVAL_FIN, EVAL_FOUT). -/
def bareWord (w : Word32) (i : Instr) : Except Reject Instr := do
  noDim (dimField w)
  zeroField (rdField w)
  zeroField (rs1Field w)
  zeroField (rs2Field w)
  zeroField (rndField w)
  return i

/-- The rows of the opcode map, for a word whose RSV is 0 (30_encoding.md R58). -/
def decodeFields (w : Word32) : Except Reject Instr :=
  match (opField w).toNat with
  | 0x00 => bareWord w .nop
  | 0x10 => do
    let n ← matrixDim (dimField w)
    let d ← quadField (rdField w)
    zeroField (rs1Field w)
    zeroField (rs2Field w)
    zeroField (rndField w)
    return .mident n d
  | 0x11 => do
    let n ← matrixDim (dimField w)
    let d ← quadField (rdField w)
    let s1 ← quadField (rs1Field w)
    let s2 ← quadField (rs2Field w)
    zeroField (rndField w)
    return .mmul n d s1 s2
  | 0x12 => do
    let n ← matrixDim (dimField w)
    let d ← quadField (rdField w)
    let s ← quadField (rs1Field w)
    zeroField (rs2Field w)
    zeroField (rndField w)
    return .minv n d s
  | 0x13 => do
    let n ← matrixDim (dimField w)
    let d ← vecField (rdField w)
    let m ← quadField (rs1Field w)
    let s ← vecField (rs2Field w)
    zeroField (rndField w)
    return .mapply n d m s
  | 0x14 => do
    let n ← matrixDim (dimField w)
    zeroField (rdField w)
    let s1 ← quadField (rs1Field w)
    let s2 ← quadField (rs2Field w)
    zeroField (rndField w)
    return .meq n s1 s2
  | 0x20 => do
    let n ← affineDim (dimField w)
    let d ← vecField (rdField w)
    let a ← quadField (rs1Field w)
    let s ← vecField (rs2Field w)
    zeroField (rndField w)
    return .aapply n d a s
  | 0x21 => do
    let n ← affineDim (dimField w)
    let d ← quadField (rdField w)
    let s1 ← quadField (rs1Field w)
    let s2 ← quadField (rs2Field w)
    zeroField (rndField w)
    return .acomp n d s1 s2
  | 0x22 => do
    let n ← affineDim (dimField w)
    let d ← quadField (rdField w)
    let s ← quadField (rs1Field w)
    zeroField (rs2Field w)
    zeroField (rndField w)
    return .ainv n d s
  | 0x30 => bareWord w .eval
  | 0x31 => bareWord w .evalFin
  | 0x32 => do
    noDim (dimField w)
    zeroField (rdField w)
    zeroField (rs1Field w)
    zeroField (rs2Field w)
    if roundLegal (rndField w) then return .evalRound (rndField w) else throw .roundNumber
  | 0x33 => bareWord w .evalFout
  | _ => .error .unassignedOpcode

/-- The decoder: every word is a command or is rejected by name (30_encoding.md R59 to R61). -/
def decode (w : Word32) : Except Reject Instr :=
  if rsvField w = 0 then decodeFields w else .error .reservedBits

/-! The opcode map as a table and `Legal(w)` as 30_encoding.md R59 writes it, apart from the decoder. -/

/-- The class of a register field (30_encoding.md R57). -/
inductive FieldClass where
  | z
  | m
  | v
  | a
  deriving DecidableEq, Repr

/-- One row of the opcode map (30_encoding.md R58). -/
structure OpRow where
  op : BitVec 8
  dims : List (BitVec 2)
  rd : FieldClass
  rs1 : FieldClass
  rs2 : FieldClass
  hasRound : Bool
  deriving DecidableEq, Repr

/-- The opcode map of 30_encoding.md R58, row by row. -/
def opMap : List OpRow :=
  [⟨0x00, [0], .z, .z, .z, false⟩,
   ⟨0x10, [0, 1, 2], .m, .z, .z, false⟩,
   ⟨0x11, [0, 1, 2], .m, .m, .m, false⟩,
   ⟨0x12, [0, 1, 2], .m, .m, .z, false⟩,
   ⟨0x13, [0, 1, 2], .v, .m, .v, false⟩,
   ⟨0x14, [0, 1, 2], .z, .m, .m, false⟩,
   ⟨0x20, [0, 2], .v, .a, .v, false⟩,
   ⟨0x21, [0, 2], .a, .a, .a, false⟩,
   ⟨0x22, [0, 2], .a, .a, .z, false⟩,
   ⟨0x30, [0], .z, .z, .z, false⟩,
   ⟨0x31, [0], .z, .z, .z, false⟩,
   ⟨0x32, [0], .z, .z, .z, true⟩,
   ⟨0x33, [0], .z, .z, .z, false⟩]

/-- A register field is legal for its class (30_encoding.md R59 (4), (5)). -/
def FieldClass.legal (c : FieldClass) (f : BitVec 3) : Bool :=
  match c with
  | .z => f == 0
  | .m => decide (f.toNat ≤ 3)
  | .a => decide (f.toNat ≤ 3)
  | .v => true

/-- The rest of `Legal(w)`, for the row of the word's opcode (30_encoding.md R59). -/
def OpRow.legal (row : OpRow) (w : Word32) : Bool :=
  rsvField w == 0 && row.dims.contains (dimField w)
    && row.rd.legal (rdField w) && row.rs1.legal (rs1Field w) && row.rs2.legal (rs2Field w)
    && (if row.hasRound then roundLegal (rndField w) else rndField w == 0)

/-- `Legal(w)` (30_encoding.md R59). -/
def legalWord (w : Word32) : Bool :=
  match opMap.find? fun row => row.op == opField w with
  | some row => row.legal w
  | none => false

/-! The encoder, from the same fields (30_encoding.md R56, R58). -/

/-- A word from its fields, RSV 0 (30_encoding.md R56). -/
def assembleWord (op : BitVec 8) (dim : BitVec 2) (rd rs1 rs2 : BitVec 3) (rnd : BitVec 4) : Word32 :=
  op ++ dim ++ rd ++ rs1 ++ rs2 ++ rnd ++ (0 : BitVec 9)

/-- The DIM code of a dimension (30_encoding.md R56). -/
def Dim.code : Dim → BitVec 2
  | .d8 => 0
  | .d128 => 1
  | .d256 => 2

/-- A register number as its 3-bit field. -/
def regCode {k : Nat} (r : Fin k) : BitVec 3 := BitVec.ofNat 3 r.val

/-- The word of a command (30_encoding.md R58, R62). -/
def encode : Instr → Word32
  | .nop => assembleWord 0x00 0 0 0 0 0
  | .mident n d => assembleWord 0x10 n.code (regCode d) 0 0 0
  | .mmul n d s1 s2 => assembleWord 0x11 n.code (regCode d) (regCode s1) (regCode s2) 0
  | .minv n d s => assembleWord 0x12 n.code (regCode d) (regCode s) 0 0
  | .mapply n d m s => assembleWord 0x13 n.code (regCode d) (regCode m) (regCode s) 0
  | .meq n s1 s2 => assembleWord 0x14 n.code 0 (regCode s1) (regCode s2) 0
  | .aapply n d a s => assembleWord 0x20 n.code (regCode d) (regCode a) (regCode s) 0
  | .acomp n d s1 s2 => assembleWord 0x21 n.code (regCode d) (regCode s1) (regCode s2) 0
  | .ainv n d s => assembleWord 0x22 n.code (regCode d) (regCode s) 0 0
  | .eval => assembleWord 0x30 0 0 0 0 0
  | .evalFin => assembleWord 0x31 0 0 0 0 0
  | .evalRound r => assembleWord 0x32 0 0 0 0 r
  | .evalFout => assembleWord 0x33 0 0 0 0 0

/-! Every well-formed command, listed (30_encoding.md R59 counts 1754 legal words). -/

def allDims : List Dim := [.d8, .d128, .d256]
def affineDims : List Dim := [.d8, .d256]

/-- The well-formed commands, in the order of the opcode map. -/
def allInstrs : List Instr :=
  [.nop]
    ++ (allDims.flatMap fun n => (List.finRange 4).map fun d => .mident n d)
    ++ (allDims.flatMap fun n => (List.finRange 4).flatMap fun d => (List.finRange 4).flatMap fun s1 =>
          (List.finRange 4).map fun s2 => .mmul n d s1 s2)
    ++ (allDims.flatMap fun n => (List.finRange 4).flatMap fun d => (List.finRange 4).map fun s => .minv n d s)
    ++ (allDims.flatMap fun n => (List.finRange 8).flatMap fun d => (List.finRange 4).flatMap fun m =>
          (List.finRange 8).map fun s => .mapply n d m s)
    ++ (allDims.flatMap fun n => (List.finRange 4).flatMap fun s1 => (List.finRange 4).map fun s2 => .meq n s1 s2)
    ++ (affineDims.flatMap fun n => (List.finRange 8).flatMap fun d => (List.finRange 4).flatMap fun a =>
          (List.finRange 8).map fun s => .aapply n d a s)
    ++ (affineDims.flatMap fun n => (List.finRange 4).flatMap fun d => (List.finRange 4).flatMap fun s1 =>
          (List.finRange 4).map fun s2 => .acomp n d s1 s2)
    ++ (affineDims.flatMap fun n => (List.finRange 4).flatMap fun d => (List.finRange 4).map fun s => .ainv n d s)
    ++ [.eval, .evalFin]
    ++ ((List.range 10).map fun k => .evalRound (BitVec.ofNat 4 (k + 1)))
    ++ [.evalFout]

/-- What the decoder reads from an instruction whose bits are `w`, numbered as spec/opcode_table.json numbers them; the
bits from `nbits` up are 0. A command is one 32-bit word (30_encoding.md R61), so the word is `w` itself. -/
def decodeTableWord (nbits w : Nat) : Option Instr :=
  match decode (BitVec.ofNat 32 (w % 2 ^ nbits)) with
  | .ok i => some i
  | .error _ => none

end Sys2Proof
end

