-- ==== Sys2Proof/Machine/State.lean ====
section
/-! DEFINITION. The state of WBRT as plain data (10_state.md), the outcomes' reasons, and the state right after reset
(70_reset_and_hazards.md R113). -/

namespace Sys2Proof.Machine

/-- The instance store: the bytes the host has written since reset, by address, addresses strictly rising. An unlisted
address holds no value: a read of it faults (70_reset_and_hazards.md R113; log 6). -/
abbrev Memory := List Host.Cell

/-- A host bus access, as a fault names it (60_exceptions.md R101). -/
structure Access where
  /-- A write, or else a read. -/
  write : Bool
  /-- How many bits wide. -/
  width : Nat
  addr : Word32
  deriving DecidableEq, Repr

/-- What happens next, in the order it happens: a step of the host, the engine's turn, or the reset input
(60_exceptions.md R94, 70_reset_and_hazards.md R112). -/
inductive Input where
  /-- `HostRead32(a)` (20_memory.md R49). -/
  | read32 (a : Word32)
  /-- `HostWrite32(a, d)` (20_memory.md R48). -/
  | write32 (a d : Word32)
  /-- A host access of a width other than 32 bits (20_memory.md R35). -/
  | otherWidth (write : Bool) (width : Nat) (a : Word32)
  /-- The engine's turn: `Complete` if a command is in flight (60_exceptions.md R96). -/
  | engineTurn
  /-- The reset event, one atomic step (70_reset_and_hazards.md R112). The reset input's polarity, synchronisation and source,
  which 00_scope.md R6 leaves open, have no argument here: what makes the event is the platform's (DESIGN CHOICE, log 23). -/
  | reset
  deriving DecidableEq, Repr

/-- A response of the bus that is no bus error (20_memory.md R48, R49). -/
inductive Response where
  /-- A write's normal response. -/
  | okay
  /-- The word a read returned. -/
  | data (d : Word32)
  deriving DecidableEq, Repr

/-- A 256-bit register, or a row of a matrix register. -/
inductive RegName where
  | v (k : VReg)
  | m (k : MReg) (row : Nat)
  | buf
  | inp
  | acc
  deriving DecidableEq, Repr

/-- The marks of 70_reset_and_hazards.md R113 for the bytes of the registers: 1 for a byte written since reset. The mark of
a byte of the instance store is its place in the list. -/
structure Marks where
  v : Vector ByteMarks 8
  m : Vector (Vector ByteMarks 256) 4
  buf : ByteMarks
  inp : ByteMarks
  acc : ByteMarks
  deriving DecidableEq, Repr

/-- The state of the block. -/
structure State where
  /-- The vector registers V[0..7] (10_state.md R15). -/
  v : Vector Vec 8
  /-- The matrix registers M[0..3] (10_state.md R16). The affine register A[k] is the pair of M[k] and V[k] (R17). -/
  m : Vector BitMatrix 4
  /-- BUF, the wide state (10_state.md R18). -/
  buf : Vec
  /-- IN, the snapshot of a round's input (10_state.md R19). -/
  inp : Vec
  /-- ACC, the accumulator (10_state.md R20). -/
  acc : Vec
  /-- CTRL.IRQ_EN (10_state.md R25). -/
  irqEn : Bool
  /-- STATUS.BUSY: a command is in flight (10_state.md R26). -/
  busy : Bool
  /-- STATUS.DONE (10_state.md R26). -/
  done : Bool
  /-- STATUS.ERR (10_state.md R26). -/
  err : Bool
  /-- STATUS.OVR (10_state.md R26). -/
  ovr : Bool
  /-- STATUS.EQ, the one condition flag (10_state.md R26, R32). -/
  eqFlag : Bool
  /-- STATUS.ERRCODE (10_state.md R26). -/
  errcode : Byte
  /-- ERRINFO (10_state.md R28). -/
  errinfo : Word32
  /-- INST_FLAGS.OUT_PRESENT (10_state.md R29). -/
  outPresent : Bool
  /-- INST_VERSION.VERSION (10_state.md R30). -/
  version : Byte
  /-- INST_SCHEME (10_state.md R31). -/
  scheme : Word32
  /-- PEND, the command in flight, meaningful only while BUSY = 1 (10_state.md R33; log 14). -/
  pend : Word32
  /-- The instance store: FIN_L, FIN_C, FOUT_L, FOUT_C and TBL (10_state.md R21). -/
  store : Memory
  /-- Which register bytes were written since reset (70_reset_and_hazards.md R113). -/
  marks : Marks
  /-- The first register byte that was read although nothing had written it since reset: the record by which
70_reset_and_hazards.md R113 names the register and the byte, and whose absence R114 makes a premise of a claim about a run. The
read itself gives the value the register holds, and the machine goes on (log 5). -/
  unwrittenRead : Option (RegName × Nat)
  /-- The model's own: how many busy reads were answered, the argument of the free value Config.busyRead (log 8). -/
  draws : Nat
  /-- The model's own: the steps to come, host and engine interleaved (log 1). -/
  inputs : List Input
  /-- The model's own: what the bus answered to the last host access (log 15). -/
  response : Option Response
  deriving DecidableEq, Repr

/-- Why a run stops. Both are the spec's own treatment (93_implementation_defined.md U1, U3, U20). -/
inductive Fault where
  /-- Raised by the bus (Machine/Bus.lean, Machine/Engine.lean): a host access to a reserved address, to an address that is
  not a multiple of 4, or of another width than 32 bits (60_exceptions.md R101). Safe: the host's behaviour after BUSERR is
  the platform's, and the block's state is not changed by it. -/
  | busError (a : Access)
  /-- Raised by a read of the instance store, by the host or by a command, of a byte not written since reset
  (70_reset_and_hazards.md R113). Safe: a real block returns some value there. -/
  | unwrittenStore (addr : Nat)
  deriving DecidableEq, Repr

/-- Why a step gives no meaning. -/
inductive Refusal where
  /-- Raised by exec for a command that has no meaning in the model; no command of this model is. Safe. -/
  | notModelled (mnemonic : String)
  deriving DecidableEq, Repr

/-- Every register byte unwritten (70_reset_and_hazards.md R113). -/
def Marks.reset : Marks where
  v := Vector.replicate 8 0
  m := Vector.replicate 4 (Vector.replicate 256 0)
  buf := 0
  inp := 0
  acc := 0

/-- The state right after reset (70_reset_and_hazards.md R113, 10_state.md R34). The data registers, which the spec leaves
unspecified, hold 0 (DESIGN CHOICE, log 4), PEND too (log 14). -/
def State.reset : State where
  v := Vector.replicate 8 0
  m := Vector.replicate 4 (Vector.replicate 256 0)
  buf := 0
  inp := 0
  acc := 0
  irqEn := false
  busy := false
  done := false
  err := false
  ovr := false
  eqFlag := false
  errcode := 0
  errinfo := 0
  outPresent := false
  version := 0
  scheme := 0
  pend := 0
  store := []
  marks := Marks.reset
  unwrittenRead := none
  draws := 0
  inputs := []
  response := none

end Sys2Proof.Machine
end

