-- ==== Sys2Proof/Machine/Gf2.lean ====
section
/-! DEFINITION. Arithmetic over GF(2) on bit vectors and bit matrices, and the bytes and words of a 256-bit value
(00_scope.md R8 to R10, 40_gf2_matrix.md R65 to R71). A value of dimension `n` below 256 is held zero-padded to 256 bits,
which is what `WriteM` and `WriteV` store (40_gf2_matrix.md R65; log 18). -/

namespace Sys2Proof.Machine

/-- The number of a dimension (30_encoding.md R57). -/
def dimSize : Dim → Nat
  | .d8 => 8
  | .d128 => 128
  | .d256 => 256

/-- The bytes of a vector of a dimension. -/
def dimBytes (n : Dim) : Nat := dimSize n / 8

/-- The 256-bit value whose bit `j` is `f j` for `j < k` and 0 from `k` up. -/
def vecOfBits (f : Nat → Bool) : Nat → Vec
  | 0 => 0
  | k + 1 => vecOfBits f k ||| (if f k then BitVec.twoPow 256 k else 0)

/-- The XOR of bits `0..k-1` (00_scope.md R9). -/
def parityBelow (v : Vec) : Nat → Bool
  | 0 => false
  | k + 1 => parityBelow v k ^^ v.getLsbD k

/-- `parity(v)`: the XOR of all bits (00_scope.md R9). -/
def parity (v : Vec) : Bool := parityBelow v 256

/-- Row `i` of a matrix; no row from 256 up. -/
def row (x : BitMatrix) (i : Nat) : Vec := if h : i < 256 then x[i] else 0

/-- The entry `M[i][j]` (00_scope.md R9). -/
def entry (x : BitMatrix) (i j : Nat) : Bool := (row x i).getLsbD j

/-- 256 values, `f 0` to `f 255`. -/
def tabulate256 {α : Type} (f : Nat → α) : Vector α 256 := Vector.mk ((List.range 256).map f).toArray (by simp)

/-- The matrix whose row `i` is `f i`. -/
def matOfRows (f : Nat → Vec) : BitMatrix := tabulate256 f

/-- `lead_n` of a vector: bits `n-1..0` (40_gf2_matrix.md R65). -/
def leadVec (n : Nat) (v : Vec) : Vec := v &&& BitVec.ofNat 256 (2 ^ n - 1)

/-- `lead_n` of a matrix: rows and columns below `n` (40_gf2_matrix.md R65). -/
def leadMat (n : Nat) (x : BitMatrix) : BitMatrix := matOfRows fun i => if i < n then leadVec n (row x i) else 0

/-- `I_n` (00_scope.md R9). -/
def identity (n : Nat) : BitMatrix := matOfRows fun i => if i < n then BitVec.twoPow 256 i else 0

/-- The XOR of the rows `k < n` of `y` for which bit `k` of `x` is 1. -/
def rowComb (x : Vec) (y : BitMatrix) : Nat → Vec
  | 0 => 0
  | k + 1 => rowComb x y k ^^^ (if x.getLsbD k then row y k else 0)

/-- `X·Y` at dimension `n`: row `i` is the XOR of the rows `k` of `Y` with `X[i][k] = 1` (40_gf2_matrix.md R68). -/
def matMul (n : Nat) (x y : BitMatrix) : BitMatrix := matOfRows fun i => if i < n then rowComb (row x i) y n else 0

/-- `X·v` at dimension `n`: bit `i` is `parity(row_i(X) and v)` (40_gf2_matrix.md R70). -/
def matVec (n : Nat) (x : BitMatrix) (v : Vec) : Vec := vecOfBits (fun i => parity (row x i &&& v)) n

/-- `x ↦ L·x ⊕ c` at dimension `n` (00_scope.md R10). -/
def affineApply (n : Nat) (l : BitMatrix) (c x : Vec) : Vec := matVec n l x ^^^ c

/-- The leading `n × n` views are equal (40_gf2_matrix.md R71). -/
def leadEqual (n : Nat) (x y : BitMatrix) : Bool :=
  (List.range n).all fun i => leadVec n (row x i) == leadVec n (row y i)

/-! Gauss–Jordan inversion (40_gf2_matrix.md R69; any method conforms, log 10). A pair is a row of the matrix being
reduced and the same row of the matrix of the row operations. -/

/-- The first pair whose reduced row has bit `c`, and the others in order. -/
def takePivot (c : Nat) : List (Vec × Vec) → Option ((Vec × Vec) × List (Vec × Vec))
  | [] => none
  | r :: rs =>
    if r.1.getLsbD c then some (r, rs)
    else
      match takePivot c rs with
      | some (p, rest) => some (p, r :: rest)
      | none => none

/-- Clear bit `c` of a pair's reduced row by adding the pivot's pair. -/
def clearColumn (c : Nat) (p r : Vec × Vec) : Vec × Vec :=
  if r.1.getLsbD c then (r.1 ^^^ p.1, r.2 ^^^ p.2) else r

/-- Reduce `k` columns from column `c` on. `finished` holds the pivots of the columns below `c`, in order. -/
def gaussJordan : Nat → Nat → List (Vec × Vec) → List (Vec × Vec) → Option (List (Vec × Vec))
  | 0, _, finished, _ => some finished
  | k + 1, c, finished, todo =>
    match takePivot c todo with
    | none => none
    | some (p, rest) =>
      gaussJordan k (c + 1) (finished.map (clearColumn c p) ++ [p]) (rest.map (clearColumn c p))

/-- `X⁻¹` at dimension `n`, none if the rank is below `n` (40_gf2_matrix.md R69). -/
def matInverse (n : Nat) (x : BitMatrix) : Option BitMatrix :=
  match gaussJordan n 0 [] ((List.range n).map fun i => (row x i, BitVec.twoPow 256 i)) with
  | none => none
  | some rows => some (matOfRows fun i => (rows.getD i (0, 0)).2)

/-! Bytes and words (00_scope.md R8, 20_memory.md R37). -/

/-- `byte(v, k)` (00_scope.md R8). -/
def byteOf (v : Vec) (k : Nat) : Byte := v.extractLsb' (8 * k) 8

/-- Bits `32w+31 .. 32w`: the word a host reads at offset `4w` (20_memory.md R37). -/
def wordOf (v : Vec) (w : Nat) : Word32 := v.extractLsb' (32 * w) 32

/-- `v` with the word at offset `4w` replaced by `d` (20_memory.md R37, R48). -/
def setWord (v : Vec) (w : Nat) (d : Word32) : Vec :=
  vecOfBits (fun j => if j / 32 = w then d.getLsbD (j % 32) else v.getLsbD j) 256

/-- `e_i(b)`: byte `i` is `b`, the others 0 (00_scope.md R8). -/
def oneHotByte (i : Nat) (b : Byte) : Vec := b.setWidth 256 <<< (8 * i)

end Sys2Proof.Machine
end

