-- ==== Sys2Proof/Machine/Ops.lean ====
section
/-! DEFINITION. The operations shared by all meanings: the instance store, the marks of unwritten register bytes, the life of
a command (acceptance, completion, the error record and its clearing) and the reset event. -/

namespace Sys2Proof.Machine

/-- The outcome of a step of this machine. -/
abbrev Result := Host.Outcome State Fault Refusal

/-! The instance store. -/

/-- The byte at an address, none if it was not written since reset (70_reset_and_hazards.md R113). -/
def memRead : Memory → Nat → Option Byte
  | [], _ => none
  | (x, b) :: rest, a => if x = a then some b else memRead rest a

/-- Write one byte, keeping the addresses strictly rising. -/
def memWrite (a : Nat) (b : Byte) : Memory → Memory
  | [] => [(a, b)]
  | (x, c) :: rest =>
    if a < x then (a, b) :: (x, c) :: rest
    else if a = x then (a, b) :: rest
    else (x, c) :: memWrite a b rest

/-- The canonical form: addresses strictly rising. An unlisted address holds no value, so no entry can equal it. -/
abbrev Memory.wf (mem : Memory) : Prop := (mem.map Prod.fst).Pairwise (· < ·)

/-- The address is one of the instance store: FIN_L, FIN_C, FOUT_L, FOUT_C or TBL (20_memory.md R38). -/
def isStore (a : Nat) : Bool :=
  decide (Config.finL ≤ a ∧ a < Config.finC + 32)
    || decide (Config.foutL ≤ a ∧ a < Config.foutC + 32)
    || decide (Config.tblBase ≤ a ∧ a < Config.tblBase + Config.tblSize)

/-- Only bytes of the instance store are listed. -/
abbrev Memory.inStore (mem : Memory) : Prop := ∀ c ∈ mem, isStore c.1 = true

/-- The byte at an address, or the fault that names it (70_reset_and_hazards.md R113). -/
def memByte (mem : Memory) (a : Nat) : Except Fault Byte :=
  match memRead mem a with
  | some b => .ok b
  | none => .error (.unwrittenStore a)

/-- The `k` bytes from `a` on, lowest address first, as a value whose byte `j` is the byte at `a + j`
(20_memory.md R37, R45). -/
def memBytes (mem : Memory) (a : Nat) : Nat → Except Fault Vec
  | 0 => .ok 0
  | k + 1 =>
    match memBytes mem a k with
    | .error f => .error f
    | .ok v =>
      match memByte mem (a + k) with
      | .error f => .error f
      | .ok b => .ok (v ||| oneHotByte k b)

/-- `MemRead(a, 32)` (20_memory.md R45). -/
def memVec (mem : Memory) (a : Nat) : Except Fault Vec := memBytes mem a 32

/-- Write the four bytes of a word, little-endian (20_memory.md R36, R48). -/
def memWriteWord (a : Nat) (d : Word32) (mem : Memory) : Memory :=
  memWrite (a + 3) (d.extractLsb' 24 8)
    (memWrite (a + 2) (d.extractLsb' 16 8) (memWrite (a + 1) (d.extractLsb' 8 8) (memWrite a (d.extractLsb' 0 8) mem)))

/-! Unwritten register bytes (70_reset_and_hazards.md R113). -/

/-- The first unwritten byte of a register among the `cnt` bytes from `lo` on. -/
def vecHole (r : RegName) (mk : ByteMarks) (lo cnt : Nat) : Option (RegName × Nat) :=
  match (List.range' lo cnt).find? fun j => !mk.getLsbD j with
  | none => none
  | some j => some (r, j)

/-- The marks of row `i` of a matrix register. -/
def markRow (mk : Vector ByteMarks 256) (i : Nat) : ByteMarks := if h : i < 256 then mk[i] else 0

/-- The first unwritten byte among bytes `0..cnt-1` of rows `0..rows-1` of a matrix register. -/
def matHole (k : MReg) (mk : Vector ByteMarks 256) (rows cnt : Nat) : Option (RegName × Nat) :=
  (List.range rows).findSome? fun i => vecHole (.m k i) (markRow mk i) 0 cnt

/-- A read of register bytes whose first unwritten one is `hole` records it, unless one is recorded already
(70_reset_and_hazards.md R113, R114; log 5, log 7). -/
def recordUnwritten (hole : Option (RegName × Nat)) (s : State) : State :=
  { s with unwrittenRead := s.unwrittenRead.or hole }

/-! The life of a command. -/

/-- Acceptance of a command word while idle (60_exceptions.md R95): nothing else changes. -/
def accept (w : Word32) (s : State) : State := { s with pend := w, busy := true }

/-- A host write dropped while busy (60_exceptions.md R97). -/
def overrun (s : State) : State := { s with ovr := true }

/-- The end of every command: BUSY 0 and DONE 1 (60_exceptions.md R96 (3)). -/
def complete (s : State) : State := { s with busy := false, done := true }

/-- A command that ends normally (60_exceptions.md R96 (1)). -/
def finish (s : State) : Result := .next (complete s)

/-- The causes of a command's error (60_exceptions.md R98). -/
inductive Cause where
  | illegal
  | domain
  deriving DecidableEq, Repr

/-- ERRCODE of a cause (60_exceptions.md R98). -/
def causeCode : Cause → Byte
  | .illegal => 0x01
  | .domain => 0x02

/-- The error record: the first error is held, ERR is set (60_exceptions.md R99). -/
def recordError (c : Cause) (s : State) : State :=
  if s.err then s else { s with err := true, errcode := causeCode c, errinfo := s.pend }

/-- A command that raises a cause: the block's exception. The record is made and the command completes; nothing the command
would have written is written (60_exceptions.md R96 (2), R99, R104). -/
def raise (c : Cause) (s : State) : Result := .next (complete (recordError c s))

/-- The end of an error's handling: ERR, ERRCODE and ERRINFO cleared (60_exceptions.md R100, R105). -/
def clearError (s : State) : State := { s with err := false, errcode := 0, errinfo := 0 }

/-- A source operand: go on with its value, or stop with the fault its read met. -/
def operand {α : Type} (r : Except Fault α) (k : α → Result) : Result :=
  match r with
  | .ok x => k x
  | .error f => .fault f

/-- Legality is checked before any operand is read (40_gf2_matrix.md R66 (1), 60_exceptions.md R102 (a)). The decoder
gives no ill-formed command, so a step never takes the raise (log 17). -/
def requireLegal (ok : Bool) (s : State) (k : Result) : Result := if ok then k else raise .illegal s

/-- The reset event (70_reset_and_hazards.md R112): every CSR at its reset value, a command in flight abandoned, every data
byte unwritten. The steps to come, the draw counter and the record of unwritten reads are the run's and stay (log 13). -/
def resetEvent (s : State) : State :=
  { State.reset with inputs := s.inputs, draws := s.draws, unwrittenRead := s.unwrittenRead }

end Sys2Proof.Machine
end

