-- ==== Sys2Proof/Machine/Flags.lean ====
section
/-! DEFINITION. The flags and the control and status words: how a host read composes them and how a host write acts on them
(10_state.md R22 to R32), and the interrupt output (60_exceptions.md R103). -/

namespace Sys2Proof.Machine

/-- One bit at its place in a word. -/
def flagBit (b : Bool) (k : Nat) : Word32 := if b then BitVec.twoPow 32 k else 0

/-- The CTRL word: bits 31:1 read 0 (10_state.md R25). -/
def ctrlWord (s : State) : Word32 := flagBit s.irqEn 0

/-- The STATUS word: reserved bits read 0 (10_state.md R26). -/
def statusWord (s : State) : Word32 :=
  flagBit s.busy 0 ||| flagBit s.done 1 ||| flagBit s.err 2 ||| flagBit s.ovr 3 ||| flagBit s.eqFlag 4
    ||| (s.errcode.setWidth 32 <<< 8)

/-- The INST_FLAGS word: bits 31:1 read 0 (10_state.md R29). -/
def instFlagsWord (s : State) : Word32 := flagBit s.outPresent 0

/-- The INST_VERSION word: bits 31:8 read 0 (10_state.md R30). -/
def instVersionWord (s : State) : Word32 := s.version.setWidth 32

/-- A host write to CTRL: only bit 0 acts (10_state.md R25). -/
def writeCtrl (d : Word32) (s : State) : State := { s with irqEn := d.getLsbD 0 }

/-- Write-one-to-clear DONE (10_state.md R26). -/
def clearDone (s : State) : State := { s with done := false }

/-- Write-one-to-clear OVR (10_state.md R26). -/
def clearOvr (s : State) : State := { s with ovr := false }

/-- A host write to STATUS: a 1 in bit 1, 2 or 3 clears DONE, the error record or OVR; no other bit acts
(10_state.md R26, 20_memory.md R48). -/
def writeStatus (d : Word32) (s : State) : State :=
  let s1 := if d.getLsbD 1 then clearDone s else s
  let s2 := if d.getLsbD 2 then clearError s1 else s1
  if d.getLsbD 3 then clearOvr s2 else s2

/-- A host write to INST_FLAGS: only bit 0 acts (10_state.md R29). -/
def writeInstFlags (d : Word32) (s : State) : State := { s with outPresent := d.getLsbD 0 }

/-- A host write to INST_VERSION: only bits 7:0 act (10_state.md R30). -/
def writeInstVersion (d : Word32) (s : State) : State := { s with version := d.extractLsb' 0 8 }

/-- A host write to INST_SCHEME (10_state.md R31). -/
def writeInstScheme (d : Word32) (s : State) : State := { s with scheme := d }

/-- MEQ's result (40_gf2_matrix.md R71). -/
def setEq (b : Bool) (s : State) : State := { s with eqFlag := b }

/-- The interrupt output (60_exceptions.md R103). -/
def irq (s : State) : Bool := s.irqEn && (s.done || s.err || s.ovr)

/-- The platform's interrupt lines, as far as this block drives them (60_exceptions.md R103; log 12). -/
def platformLine (s : State) (line : Nat) : Bool := decide (line = Config.wbrtIrqLine) && irq s

end Sys2Proof.Machine
end

