-- ==== Sys2Proof/Machine/Operands.lean ====
section
/-! DEFINITION. The operand forms: the views of the vector, matrix and affine registers, the evaluator registers, and the
instance's encodings and tables (10_state.md R15 to R21, 40_gf2_matrix.md R65, 42_evaluator.md R80, R81). -/

namespace Sys2Proof.Machine

/-- Every byte of a 32-byte register written. -/
def allMarked : ByteMarks := BitVec.allOnes 32

/-- `lead_n(V[k])` (40_gf2_matrix.md R65). -/
def readV (n : Dim) (k : VReg) (s : State) : Vec := leadVec (dimSize n) s.v[k]

/-- `lead_n(M[k])` (40_gf2_matrix.md R65). -/
def readM (n : Dim) (k : MReg) (s : State) : BitMatrix := leadMat (dimSize n) s.m[k]

/-- The vector register that holds the bias of an affine register (10_state.md R17). -/
def biasReg (k : AReg) : VReg := ⟨k.val, by omega⟩

/-- `A[k]` as the views of `M[k]` and `V[k]` (10_state.md R17). -/
def readA (n : Dim) (k : AReg) (s : State) : BitMatrix × Vec := (readM n k s, readV n (biasReg k) s)

/-- The first unwritten byte of the view of V[k], if any (70_reset_and_hazards.md R113). -/
def holeV (n : Dim) (k : VReg) (s : State) : Option (RegName × Nat) := vecHole (.v k) s.marks.v[k] 0 (dimBytes n)

/-- The first unwritten byte of the view of M[k], if any (70_reset_and_hazards.md R113). -/
def holeM (n : Dim) (k : MReg) (s : State) : Option (RegName × Nat) := matHole k s.marks.m[k] (dimSize n) (dimBytes n)

/-- The first unwritten byte of the views of A[k], the matrix before the bias (70_reset_and_hazards.md R113; log 7). -/
def holeA (n : Dim) (k : AReg) (s : State) : Option (RegName × Nat) := (holeM n k s).or (holeV n (biasReg k) s)

/-- The first unwritten byte of BUF, if any (70_reset_and_hazards.md R113). -/
def holeBuf (s : State) : Option (RegName × Nat) := vecHole .buf s.marks.buf 0 32

/-- `WriteV(d, x)`: all 256 bits, `x` zero-padded (40_gf2_matrix.md R65); every byte becomes written
(70_reset_and_hazards.md R113). -/
def writeV (d : VReg) (x : Vec) (s : State) : State :=
  { s with v := s.v.set d x, marks := { s.marks with v := s.marks.v.set d allMarked } }

/-- `WriteM(d, X)`: all 256 x 256 bits, `X` zero-padded (40_gf2_matrix.md R65); every byte becomes written
(70_reset_and_hazards.md R113). -/
def writeM (d : MReg) (x : BitMatrix) (s : State) : State :=
  { s with
    m := s.m.set d x
    marks := { s.marks with m := s.marks.m.set d (Vector.replicate 256 allMarked) } }

/-- Writing `A[d]` writes both `M[d]` and `V[d]` (10_state.md R17). -/
def writeA (d : AReg) (l : BitMatrix) (c : Vec) (s : State) : State := writeV (biasReg d) c (writeM d l s)

/-- Write BUF whole (70_reset_and_hazards.md R113). -/
def writeBuf (x : Vec) (s : State) : State :=
  { s with buf := x, marks := { s.marks with buf := allMarked } }

/-- Write IN whole (70_reset_and_hazards.md R113). -/
def writeIn (x : Vec) (s : State) : State :=
  { s with inp := x, marks := { s.marks with inp := allMarked } }

/-- Write ACC whole (70_reset_and_hazards.md R113). -/
def writeAcc (x : Vec) (s : State) : State :=
  { s with acc := x, marks := { s.marks with acc := allMarked } }

/-- The 32-byte values at `base`, `base + 32`, …, `k` of them, in order (20_memory.md R43, 42_evaluator.md R81). `read` is
the engine's read of 32 bytes. -/
def readRows (read : Nat → Except Fault Vec) (base : Nat) : Nat → Except Fault (List Vec)
  | 0 => .ok []
  | k + 1 =>
    match readRows read base k with
    | .error f => .error f
    | .ok rows =>
      match read (base + 32 * k) with
      | .error f => .error f
      | .ok x => .ok (rows ++ [x])

/-- An encoding of the instance: the matrix at `l`, the bias at `c` (42_evaluator.md R81). -/
def readEncoding (mem : Memory) (l c : Nat) : Except Fault (BitMatrix × Vec) := do
  let rows ← readRows (memVec mem) l 256
  let bias ← memVec mem c
  return (matOfRows fun i => rows.getD i 0, bias)

/-- `TADDR(r, i, x, y)` (20_memory.md R44). -/
def tableAddr (r i x y : Nat) : Nat :=
  Config.tblBase + ((r - 1) * 32 + i) * 0x200000 + (x * 256 + y) * 32

/-- The addresses of the 32 lookups of round `r` on the state `v`, in the order `i = 0..31` (42_evaluator.md R80; any order
conforms, R88; log 11). -/
def roundAddrs (r : Nat) (v : Vec) : List Nat :=
  (List.range 32).map fun i => tableAddr r i (byteOf v i).toNat (byteOf v ((i + 1) % 32)).toNat

/-- XOR the entries at the addresses into the accumulator `a` (42_evaluator.md R84). `read` is the engine's read of 32
bytes. -/
def xorEntries (read : Nat → Except Fault Vec) : List Nat → Vec → Except Fault Vec
  | [], a => .ok a
  | p :: ps, a =>
    match read p with
    | .error f => .error f
    | .ok t => xorEntries read ps (a ^^^ t)

end Sys2Proof.Machine
end

