-- ==== Sys2Proof/Machine/Bus.lean ====
section
/-! DEFINITION. The host's bus accesses: the address map and HostRead32 and HostWrite32 with their checks in the spec's order
(20_memory.md R35 to R49). -/

namespace Sys2Proof.Machine

/-- What a word address names (20_memory.md R38). `w` is the word's number inside a 32-byte register or row. -/
inductive Loc where
  | id
  | hwver
  | ctrl
  | status
  | cmd
  | errinfo
  | instFlags
  | instVersion
  | instScheme
  | v (k : VReg) (w : Nat)
  | buf (w : Nat)
  | inp (w : Nat)
  | acc (w : Nat)
  | m (k : MReg) (row w : Nat)
  | store (a : Nat)
  | reserved
  deriving DecidableEq, Repr

/-- The CSR words (10_state.md R22). -/
def locateCsr (a : Nat) : Loc :=
  if a = 0x000 then .id
  else if a = 0x004 then .hwver
  else if a = 0x008 then .ctrl
  else if a = 0x00C then .status
  else if a = 0x010 then .cmd
  else if a = 0x014 then .errinfo
  else if a = 0x018 then .instFlags
  else if a = 0x01C then .instVersion
  else if a = 0x020 then .instScheme
  else .reserved

/-- The word of a 32-byte register at byte offset `off`. -/
def wordIndex (off : Nat) : Nat := off / 4 % 8

/-- The address map for a multiple of 4 (20_memory.md R38 to R44). -/
def locate (a : Nat) : Loc :=
  if a < 0x1000 then locateCsr a
  else if a < Config.bufBase then .v (Fin.ofNat 8 ((a - Config.vecBase) / 32)) (wordIndex (a - Config.vecBase))
  else if a < Config.inBase then .buf (wordIndex (a - Config.bufBase))
  else if a < Config.accBase then .inp (wordIndex (a - Config.inBase))
  else if a < 0x1160 then .acc (wordIndex (a - Config.accBase))
  else if a < Config.matBase then .reserved
  else if a < Config.finL then
    .m (Fin.ofNat 4 ((a - Config.matBase) / 0x2000)) ((a - Config.matBase) / 32 % 256) (wordIndex (a - Config.matBase))
  else if isStore a then .store a
  else .reserved

/-- A read's response (20_memory.md R49): no read has another effect. -/
def answer (d : Word32) (s : State) : Result := .next { s with response := some (.data d) }

/-- A write's normal response. -/
def okay (s : State) : Result := .next { s with response := some .okay }

/-- A read of V, BUF, IN, ACC or M: while busy a fresh free value, the command undisturbed (20_memory.md R47 (b)); while idle
the register's word `d`, an unwritten byte of it recorded (70_reset_and_hazards.md R113; log 5). -/
def readOperand (hole : Option (RegName × Nat)) (d : Word32) (s : State) : Result :=
  if s.busy then answer (Config.busyRead s.draws) { s with draws := s.draws + 1 }
  else answer d (recordUnwritten hole s)

/-- `HostRead32(a)` (20_memory.md R49). -/
def hostRead32 (a : Word32) (s : State) : Result :=
  if a.toNat % 4 ≠ 0 then .fault (.busError ⟨false, 32, a⟩)
  else
    match locate a.toNat with
    | .reserved => .fault (.busError ⟨false, 32, a⟩)
    | .cmd => answer 0 s
    | .id => answer Config.id s
    | .hwver => answer Config.hwver s
    | .ctrl => answer (ctrlWord s) s
    | .status => answer (statusWord s) s
    | .errinfo => answer s.errinfo s
    | .instFlags => answer (instFlagsWord s) s
    | .instVersion => answer (instVersionWord s) s
    | .instScheme => answer s.scheme s
    | .v k w => readOperand (vecHole (.v k) s.marks.v[k] (4 * w) 4) (wordOf s.v[k] w) s
    | .buf w => readOperand (vecHole .buf s.marks.buf (4 * w) 4) (wordOf s.buf w) s
    | .inp w => readOperand (vecHole .inp s.marks.inp (4 * w) 4) (wordOf s.inp w) s
    | .acc w => readOperand (vecHole .acc s.marks.acc (4 * w) 4) (wordOf s.acc w) s
    | .m k i w => readOperand (vecHole (.m k i) (markRow s.marks.m[k] i) (4 * w) 4) (wordOf (row s.m[k] i) w) s
    | .store b => operand (memBytes s.store b 4) fun v => answer (v.setWidth 32) s

/-- The four bytes of word `w` become written (70_reset_and_hazards.md R113). -/
def markWord (mk : ByteMarks) (w : Nat) : ByteMarks := mk ||| (0xF#32 <<< (4 * w))

/-- A host write of one word of V[k] (20_memory.md R40). -/
def writeVWord (k : VReg) (w : Nat) (d : Word32) (s : State) : State :=
  { s with
    v := s.v.set k (setWord s.v[k] w d)
    marks := { s.marks with v := s.marks.v.set k (markWord s.marks.v[k] w) } }

/-- A host write of one word of BUF (20_memory.md R41). -/
def writeBufWord (w : Nat) (d : Word32) (s : State) : State :=
  { s with buf := setWord s.buf w d, marks := { s.marks with buf := markWord s.marks.buf w } }

/-- A host write of one word of row `i` of M[k] (20_memory.md R42). -/
def writeMWord (k : MReg) (i w : Nat) (d : Word32) (s : State) : State :=
  { s with
    m := s.m.set k (matOfRows fun j => if j = i then setWord (row s.m[k] i) w d else row s.m[k] j)
    marks :=
      { s.marks with
        m := s.marks.m.set k
          (tabulate256 fun j => if j = i then markWord (markRow s.marks.m[k] i) w else markRow s.marks.m[k] j) } }

/-- A host write of one word of the instance store (20_memory.md R43, R44). -/
def writeStoreWord (a : Nat) (d : Word32) (s : State) : State := { s with store := memWriteWord a d s.store }

/-- A write to a busy-locked location: dropped with OVR while busy (20_memory.md R47 (a)). -/
def lockedWrite (s t : State) : Result := if s.busy then okay (overrun s) else okay t

/-- `HostWrite32(a, d)` (20_memory.md R48). -/
def hostWrite32 (a d : Word32) (s : State) : Result :=
  if a.toNat % 4 ≠ 0 then .fault (.busError ⟨true, 32, a⟩)
  else
    match locate a.toNat with
    | .reserved => .fault (.busError ⟨true, 32, a⟩)
    | .id => okay s
    | .hwver => okay s
    | .errinfo => okay s
    | .inp _ => okay s
    | .acc _ => okay s
    | .cmd => if s.busy then okay (overrun s) else okay (accept d s)
    | .status => okay (writeStatus d s)
    | .ctrl => okay (writeCtrl d s)
    | .instFlags => lockedWrite s (writeInstFlags d s)
    | .instVersion => lockedWrite s (writeInstVersion d s)
    | .instScheme => lockedWrite s (writeInstScheme d s)
    | .v k w => lockedWrite s (writeVWord k w d s)
    | .buf w => lockedWrite s (writeBufWord w d s)
    | .m k i w => lockedWrite s (writeMWord k i w d s)
    | .store b => lockedWrite s (writeStoreWord b d s)

end Sys2Proof.Machine
end

