-- ==== Sys2Proof/Machine/MatrixUnit.lean ====
section
/-! DEFINITION. The GF(2) matrix commands MIDENT, MMUL, MINV, MAPPLY and MEQ (40_gf2_matrix.md). Every source is read before
the destination is written (R66); a read of unwritten bytes is recorded (70_reset_and_hazards.md R113). -/

namespace Sys2Proof.Machine

/-- MIDENT (40_gf2_matrix.md R67). -/
def execMident (n : Dim) (d : MReg) (s : State) : Result :=
  finish (writeM d (identity (dimSize n)) s)

/-- MMUL (40_gf2_matrix.md R68). -/
def execMmul (n : Dim) (d s1 s2 : MReg) (s : State) : Result :=
  finish (writeM d (matMul (dimSize n) (readM n s1 s) (readM n s2 s))
    (recordUnwritten ((holeM n s1 s).or (holeM n s2 s)) s))

/-- MINV (40_gf2_matrix.md R69). -/
def execMinv (n : Dim) (d src : MReg) (s : State) : Result :=
  match matInverse (dimSize n) (readM n src s) with
  | none => raise .domain (recordUnwritten (holeM n src s) s)
  | some y => finish (writeM d y (recordUnwritten (holeM n src s) s))

/-- MAPPLY (40_gf2_matrix.md R70). -/
def execMapply (n : Dim) (d : VReg) (m : MReg) (src : VReg) (s : State) : Result :=
  finish (writeV d (matVec (dimSize n) (readM n m s) (readV n src s))
    (recordUnwritten ((holeM n m s).or (holeV n src s)) s))

/-- MEQ (40_gf2_matrix.md R71). -/
def execMeq (n : Dim) (s1 s2 : MReg) (s : State) : Result :=
  finish (setEq (leadEqual (dimSize n) (readM n s1 s) (readM n s2 s))
    (recordUnwritten ((holeM n s1 s).or (holeM n s2 s)) s))

end Sys2Proof.Machine
end

