-- ==== Sys2Proof/Machine/AffineUnit.lean ====
section
/-! DEFINITION. The affine commands AAPPLY, ACOMP and AINV (41_affine.md): legality, then all reads, then compute, then all
writes (40_gf2_matrix.md R66). -/

namespace Sys2Proof.Machine

/-- AAPPLY (41_affine.md R74). -/
def execAapply (n : Dim) (d : VReg) (a : AReg) (src : VReg) (s : State) : Result :=
  requireLegal n.affine s <|
  finish (writeV d (affineApply (dimSize n) (readA n a s).1 (readA n a s).2 (readV n src s))
    (recordUnwritten ((holeA n a s).or (holeV n src s)) s))

/-- ACOMP: `A[s1]` after `A[s2]` (41_affine.md R75). -/
def execAcomp (n : Dim) (d s1 s2 : AReg) (s : State) : Result :=
  requireLegal n.affine s <|
  finish (writeA d (matMul (dimSize n) (readA n s1 s).1 (readA n s2 s).1)
    (affineApply (dimSize n) (readA n s1 s).1 (readA n s1 s).2 (readA n s2 s).2)
    (recordUnwritten ((holeA n s1 s).or (holeA n s2 s)) s))

/-- AINV (41_affine.md R76). -/
def execAinv (n : Dim) (d src : AReg) (s : State) : Result :=
  requireLegal n.affine s <|
  match matInverse (dimSize n) (readA n src s).1 with
  | none => raise .domain (recordUnwritten (holeA n src s) s)
  | some li => finish (writeA d li (matVec (dimSize n) li (readA n src s).2) (recordUnwritten (holeA n src s) s))

end Sys2Proof.Machine
end

