-- ==== Sys2Proof/Machine/Evaluator.lean ====
section
/-! DEFINITION. NOP and the evaluator commands (42_evaluator.md). The three stages are written once; EVAL is their sequence
and the stage commands run one each (R86, R87). -/

namespace Sys2Proof.Machine

/-- Apply an encoding of the instance to BUF (42_evaluator.md R81). -/
def encodeBuf (l c : Nat) (s : State) : Except Fault State := do
  let f ← readEncoding s.store l c
  return writeBuf (affineApply 256 f.1 f.2 s.buf) (recordUnwritten (holeBuf s) s)

/-- The stage of `F_in` (42_evaluator.md R83). -/
def finStage (s : State) : Except Fault State := encodeBuf Config.finL Config.finC s

/-- The stage of round `r` (42_evaluator.md R84). -/
def roundStage (r : Nat) (s : State) : Except Fault State := do
  let a ← xorEntries (memVec s.store) (roundAddrs r s.buf) 0
  return writeBuf a (writeAcc a (writeIn s.buf (recordUnwritten (holeBuf s) s)))

/-- The stage of `F_out`: nothing, and FOUT not read, if the instance has none (42_evaluator.md R85). -/
def foutStage (s : State) : Except Fault State :=
  if s.outPresent then encodeBuf Config.foutL Config.foutC s else .ok s

/-- The rounds `1..k` in order (42_evaluator.md R86). -/
def roundStages : Nat → State → Except Fault State
  | 0, s => .ok s
  | k + 1, s => do
    let t ← roundStages k s
    roundStage (k + 1) t

/-- The whole procedure (42_evaluator.md R86). -/
def evalStages (s : State) : Except Fault State := do
  let t ← finStage s
  let u ← roundStages 10 t
  foutStage u

/-- NOP (42_evaluator.md R82). -/
def execNop (s : State) : Result := finish s

/-- EVAL (42_evaluator.md R86). -/
def execEval (s : State) : Result := operand (evalStages s) finish

/-- EVAL_FIN (42_evaluator.md R83). -/
def execEvalFin (s : State) : Result := operand (finStage s) finish

/-- EVAL_ROUND (42_evaluator.md R84). -/
def execEvalRound (r : BitVec 4) (s : State) : Result :=
  requireLegal (roundLegal r) s <| operand (roundStage r.toNat s) finish

/-- EVAL_FOUT (42_evaluator.md R85). -/
def execEvalFout (s : State) : Result := operand (foutStage s) finish

end Sys2Proof.Machine
end

