-- ==== Sys2Proof/Machine/Dispatch.lean ====
section
/-! DEFINITION. The dispatch: each command to its meaning. -/

namespace Sys2Proof.Machine

def exec (i : Instr) (s : State) : Host.Outcome State Fault Refusal :=
  match i with
  | .nop => Sys2Proof.Machine.execNop s
  | .mident n d => Sys2Proof.Machine.execMident n d s
  | .mmul n d s1 s2 => Sys2Proof.Machine.execMmul n d s1 s2 s
  | .minv n d src => Sys2Proof.Machine.execMinv n d src s
  | .mapply n d m src => Sys2Proof.Machine.execMapply n d m src s
  | .meq n s1 s2 => Sys2Proof.Machine.execMeq n s1 s2 s
  | .aapply n d a src => Sys2Proof.Machine.execAapply n d a src s
  | .acomp n d s1 s2 => Sys2Proof.Machine.execAcomp n d s1 s2 s
  | .ainv n d src => Sys2Proof.Machine.execAinv n d src s
  | .eval => Sys2Proof.Machine.execEval s
  | .evalFin => Sys2Proof.Machine.execEvalFin s
  | .evalRound r => Sys2Proof.Machine.execEvalRound r s
  | .evalFout => Sys2Proof.Machine.execEvalFout s

end Sys2Proof.Machine
end

