-- ==== Sys2Proof/Machine/Engine.lean ====
section
/-! DEFINITION. The two agents' steps (60_exceptions.md R94): the engine's `Complete`, and one input of the outside world. -/

namespace Sys2Proof.Machine

/-- The engine's step `Complete`: the command in PEND, or ILLEGAL if the word is not legal (60_exceptions.md R96, R98;
30_encoding.md R59). -/
def completeCommand (s : State) : Result :=
  match decode s.pend with
  | .ok i => exec i s
  | .error _ => raise .illegal s

/-- The engine's turn: `Complete` is enabled only while busy; while idle the engine has no step (60_exceptions.md R94;
log 2). -/
def engineStep (s : State) : Result := if s.busy then completeCommand s else .next s

/-- One input (60_exceptions.md R94, 20_memory.md R35, 70_reset_and_hazards.md R112). -/
def inputStep (i : Input) (s : State) : Result :=
  match i with
  | .read32 a => hostRead32 a s
  | .write32 a d => hostWrite32 a d s
  | .otherWidth wr width a => .fault (.busError ⟨wr, width, a⟩)
  | .engineTurn => engineStep s
  | .reset => .next (resetEvent s)

end Sys2Proof.Machine
end

