-- ==== Sys2Proof/Machine/Step.lean ====
section
/-! DEFINITION. One step of the machine: the next of the inputs, and when none is left the engine's turn
(60_exceptions.md R94, R96; log 1, log 2). -/

namespace Sys2Proof.Machine

/-- One step of the machine. -/
def step (s : State) : Host.Outcome State Fault Refusal :=
  match s.inputs with
  | [] => engineStep s
  | i :: rest => inputStep i { s with inputs := rest }

/-- `s` with the command word `w` accepted and the engine's turn next: the host's CMD write of `w` while idle leaves it so
(60_exceptions.md R95; log 16). -/
def State.withFetchWord (s : State) (nbits w : Nat) : State :=
  { s with pend := BitVec.ofNat 32 (w % 2 ^ nbits), busy := true, inputs := .engineTurn :: s.inputs }

end Sys2Proof.Machine
end

