-- ==== Sys2Proof/Machine/Assembler.lean ====
section
/-! DEFINITION. The assembler's text and words (30_encoding.md R62), the pseudo-instruction mmov (R63) and the host notation
of programs as the inputs it expands into (R64). -/

namespace Sys2Proof.Machine

/-- The dimension suffix of the assembler (30_encoding.md R62). -/
def dimSuffix : Dim → String
  | .d8 => ".8"
  | .d128 => ".128"
  | .d256 => ".256"

/-- A register of a class as the assembler writes it: m0, v7, a3 (30_encoding.md R62). -/
def regText {k : Nat} (cls : String) (r : Fin k) : String := cls ++ toString r.val

/-- The assembler form of a command (30_encoding.md R62). The blank after a comma is the model's (log 21). -/
def assemblyText : Instr → String
  | .nop => "nop"
  | .mident n d => "mident" ++ dimSuffix n ++ " " ++ regText "m" d
  | .mmul n d s1 s2 =>
    "mmul" ++ dimSuffix n ++ " " ++ regText "m" d ++ ", " ++ regText "m" s1 ++ ", " ++ regText "m" s2
  | .minv n d s => "minv" ++ dimSuffix n ++ " " ++ regText "m" d ++ ", " ++ regText "m" s
  | .mapply n d m s =>
    "mapply" ++ dimSuffix n ++ " " ++ regText "v" d ++ ", " ++ regText "m" m ++ ", " ++ regText "v" s
  | .meq n s1 s2 => "meq" ++ dimSuffix n ++ " " ++ regText "m" s1 ++ ", " ++ regText "m" s2
  | .aapply n d a s =>
    "aapply" ++ dimSuffix n ++ " " ++ regText "v" d ++ ", " ++ regText "a" a ++ ", " ++ regText "v" s
  | .acomp n d s1 s2 =>
    "acomp" ++ dimSuffix n ++ " " ++ regText "a" d ++ ", " ++ regText "a" s1 ++ ", " ++ regText "a" s2
  | .ainv n d s => "ainv" ++ dimSuffix n ++ " " ++ regText "a" d ++ ", " ++ regText "a" s
  | .eval => "eval"
  | .evalFin => "eval.fin"
  | .evalRound r => "eval.round " ++ toString r.toNat
  | .evalFout => "eval.fout"

/-- The assembler refuses an ill-formed command, so it never emits an illegal word (30_encoding.md R62). -/
def assemble (i : Instr) : Option Word32 := if i.wellFormed then some (encode i) else none

/-- `mmov.N md, ms`, refused for `d = s` (30_encoding.md R63). -/
def mmov (n : Dim) (d s : MReg) : Option (List Instr) :=
  if d = s then none else some [.mident n d, .mmul n d s d]

/-- `wr32 A, D` (30_encoding.md R64). -/
def wr32 (a d : Word32) : List Input := [.write32 a d]

/-- `rd32 A` (30_encoding.md R64). -/
def rd32 (a : Word32) : List Input := [.read32 a]

/-- `issue C` (30_encoding.md R64). -/
def issue (i : Instr) : List Input := wr32 0x010 (encode i)

/-- `wait`: the host polls STATUS until BUSY = 0 (30_encoding.md R64). `polls` is how many polls come before the engine's
turn, any number (70_reset_and_hazards.md R117; log 1). -/
def waitPolls (polls : Nat) : List Input :=
  (List.replicate polls (rd32 0x00C)).flatten ++ [.engineTurn] ++ rd32 0x00C

/-- `do C` (30_encoding.md R64). -/
def doCommand (polls : Nat) (i : Instr) : List Input := issue i ++ waitPolls polls

/-- `wrv A, b0 .. b31` (30_encoding.md R64). -/
def wrv (a : Word32) (x : Vec) : List Input :=
  (List.range 8).flatMap fun w => wr32 (a + BitVec.ofNat 32 (4 * w)) (wordOf x w)

/-- `rdv A` (30_encoding.md R64). -/
def rdv (a : Word32) : List Input := (List.range 8).flatMap fun w => rd32 (a + BitVec.ofNat 32 (4 * w))

/-- `wrm8 k, r0 .. r7` (30_encoding.md R64). -/
def wrm8 (k : MReg) (rows : Nat → Byte) : List Input :=
  (List.range 8).flatMap fun i =>
    wr32 (BitVec.ofNat 32 (Config.matBase + 0x2000 * k.val + 32 * i)) ((rows i).setWidth 32)

end Sys2Proof.Machine
end

