-- ==== Sys2Proof/Machine/Instance.lean ====
section
/-! DEFINITION. Instances as the spec describes them: the lifting convention (40_gf2_matrix.md R72), the sparse unsplit form
(41_affine.md R77), the round function of the tables, the conditions of a correct instance (42_evaluator.md R91) and the
packing of two blocks (R90). The block checks none of these. -/

namespace Sys2Proof.Machine

/-- The XOR of `f 0 .. f (k-1)` (00_scope.md R9). -/
def xorBelow (f : Nat → Bool) : Nat → Bool
  | 0 => false
  | k + 1 => xorBelow f k ^^ f k

/-- The XOR of the vectors `f 0 .. f (k-1)` (42_evaluator.md R84). -/
def xorVecs (f : Nat → Vec) : Nat → Vec
  | 0 => 0
  | k + 1 => xorVecs f k ^^^ f k

/-- The entry `(i, j)` of `X·Y` at dimension `n`, as 00_scope.md R9 defines it. -/
def productEntry (n : Nat) (x y : BitMatrix) (i j : Nat) : Bool := xorBelow (fun k => entry x i k && entry y k j) n

/-- Bit `i` of `X·v` at dimension `n`, as 00_scope.md R9 defines it. -/
def applyBit (n : Nat) (x : BitMatrix) (v : Vec) (i : Nat) : Bool := xorBelow (fun j => entry x i j && v.getLsbD j) n

/-- `Y` is the inverse of `X` at dimension `n`: `X·Y = Y·X = I_n` on the leading views (00_scope.md R9). -/
def IsInverse (n : Nat) (x y : BitMatrix) : Prop :=
  ∀ i j, i < n → j < n → productEntry n x y i j = decide (i = j) ∧ productEntry n y x i j = decide (i = j)

/-- The leading view is invertible (00_scope.md R9). -/
def Invertible (n : Nat) (x : BitMatrix) : Prop := ∃ y, IsInverse n x y

/-- The matrix of a function, its columns the images of the basis vectors (40_gf2_matrix.md R72). -/
def liftMatrix (n : Nat) (f : Vec → Vec) : BitMatrix :=
  matOfRows fun i => if i < n then vecOfBits (fun j => (f (BitVec.twoPow 256 j)).getLsbD i) n else 0

/-- The block `(p, q)`: row `a` is byte `q` of row `8p + a` (41_affine.md R77). -/
def blockOf (l : BitMatrix) (p q : Nat) : BitMatrix :=
  matOfRows fun a => if a < 8 then (byteOf (row l (8 * p + a)) q).setWidth 256 else 0

/-- Every block off the two block-diagonals is 0 (41_affine.md R77 (a)). -/
def Banded (l : BitMatrix) : Prop :=
  ∀ p q, p < 32 → q < 32 → q ≠ p → q ≠ (p + 1) % 32 → ∀ a b, a < 8 → b < 8 → entry (blockOf l p q) a b = false

/-- The sparse unsplit form; the bias is unconstrained (41_affine.md R77). -/
structure SparseUnsplit (l : BitMatrix) (_c : Vec) : Prop where
  banded : Banded l
  diagonal : ∀ p, p < 32 → Invertible 8 (blockOf l p p)
  superDiagonal : ∀ p, p < 32 → Invertible 8 (blockOf l p ((p + 1) % 32))
  whole : Invertible 256 l

/-- The byte at a store address that was written; only statements whose premises say that it was (`written`) look at it. -/
def storeByte (mem : Memory) (a : Nat) : Byte := (memRead mem a).getD 0

/-- The 32 bytes from `a` on as a value whose byte `k` is the byte at `a + k` (20_memory.md R37). -/
def storeVec (mem : Memory) (a : Nat) : Vec := vecOfBits (fun j => (storeByte mem (a + j / 8)).getLsbD (j % 8)) 256

/-- `T(r, i, x, y)` (42_evaluator.md R80). -/
def tableEntry (mem : Memory) (r i x y : Nat) : Vec := storeVec mem (tableAddr r i x y)

/-- The entry that table `i` of round `r` gives on the state `s`: indexed by bytes `i` and `(i + 1) mod 32`
(42_evaluator.md R80). -/
def lookupEntry (t : Nat → Nat → Nat → Nat → Vec) (r i : Nat) (s : Vec) : Vec :=
  t r i (byteOf s i).toNat (byteOf s ((i + 1) % 32)).toNat

/-- The function of round `r` of the tables `t` (42_evaluator.md R84). -/
def roundXor (t : Nat → Nat → Nat → Nat → Vec) (r : Nat) (s : Vec) : Vec := xorVecs (fun i => lookupEntry t r i s) 32

/-- The matrix of the instance store at `base` (20_memory.md R43). -/
def storeMatrix (mem : Memory) (base : Nat) : BitMatrix := matOfRows fun i => storeVec mem (base + 32 * i)

/-- An affine map of 256 bits, its linear part and its bias (00_scope.md R10). -/
structure AffineMap where
  linear : BitMatrix
  bias : Vec
  deriving DecidableEq, Repr

/-- `L·x ⊕ c` bit by bit (00_scope.md R9, R10). -/
def AffineMap.apply (f : AffineMap) (x : Vec) : Vec :=
  vecOfBits (fun k => applyBit 256 f.linear x k ^^ f.bias.getLsbD k) 256

/-- The map is invertible: its linear part is (00_scope.md R10). -/
def AffineMap.IsInvertible (f : AffineMap) : Prop := Invertible 256 f.linear

/-- `A⁻¹ = (L⁻¹, L⁻¹·c)`, none if the map is not invertible (00_scope.md R10, 41_affine.md R76). -/
def AffineMap.inverse (f : AffineMap) : Option AffineMap :=
  match matInverse 256 f.linear with
  | some li => some ⟨li, matVec 256 li f.bias⟩
  | none => none

/-- `Apply(Fin, s)` or `Apply(Fout, s)`: the map whose matrix is stored at `l` and whose bias at `c` (42_evaluator.md R81). -/
def applyEncoding (mem : Memory) (l c : Nat) (s : Vec) : Vec := AffineMap.apply ⟨storeMatrix mem l, storeVec mem c⟩ s

/-- The state after the rounds `1..k` from `s` (42_evaluator.md R86). -/
def roundsXor (t : Nat → Nat → Nat → Nat → Vec) : Nat → Vec → Vec
  | 0, s => s
  | k + 1, s => roundXor t (k + 1) (roundsXor t k s)

/-- The byte was written since reset (70_reset_and_hazards.md R113). -/
def written (mem : Memory) (a : Nat) : Prop := (memRead mem a).isSome = true

/-- Every byte of the matrix at `l` and of the bias at `c` was written. -/
def EncodingWritten (mem : Memory) (l c : Nat) : Prop :=
  (∀ i k, i < 256 → k < 32 → written mem (l + 32 * i + k)) ∧ ∀ k, k < 32 → written mem (c + k)

/-- Every byte of the 32 entries that round `r` looks up on the state `s` was written. -/
def RoundWritten (mem : Memory) (r : Nat) (s : Vec) : Prop :=
  ∀ i k, i < 32 → k < 32 → written mem (tableAddr r i (byteOf s i).toNat (byteOf s ((i + 1) % 32)).toNat + k)

/-- A byte of data state: of a register, or of the instance store (70_reset_and_hazards.md R113). -/
inductive DataByte where
  | register (r : RegName) (byte : Nat)
  | store (addr : Nat)
  deriving DecidableEq, Repr

/-- The register byte was written since reset (70_reset_and_hazards.md R113). -/
def registerWritten (mk : Marks) (r : RegName) (j : Nat) : Bool :=
  match r with
  | .v k => mk.v[k].getLsbD j
  | .m k i => (markRow mk.m[k] i).getLsbD j
  | .buf => mk.buf.getLsbD j
  | .inp => mk.inp.getLsbD j
  | .acc => mk.acc.getLsbD j

/-- The data byte was written since reset (70_reset_and_hazards.md R113). -/
def dataWritten (s : State) (b : DataByte) : Bool :=
  match b with
  | .register r j => registerWritten s.marks r j
  | .store a => (memRead s.store a).isSome

/-- The byte of a register is one of the view of V[k] at dimension `n` (40_gf2_matrix.md R65). -/
def InViewV (n : Dim) (k : VReg) (r : RegName) (j : Nat) : Prop := r = .v k ∧ j < dimBytes n

/-- The byte of a register is one of the view of M[k] at dimension `n` (40_gf2_matrix.md R65). -/
def InViewM (n : Dim) (k : MReg) (r : RegName) (j : Nat) : Prop := (∃ i, i < dimSize n ∧ r = .m k i) ∧ j < dimBytes n

/-- The byte of a register is one of the views of A[k] at dimension `n` (10_state.md R17). -/
def InViewA (n : Dim) (k : AReg) (r : RegName) (j : Nat) : Prop := InViewM n k r j ∨ InViewV n (biasReg k) r j

/-- The byte of a register is one of BUF. -/
def InBuf (r : RegName) (j : Nat) : Prop := r = .buf ∧ j < 32

/-- The register bytes that a command reads in the state `s` (70_reset_and_hazards.md R113): the views of its sources, and BUF
for the evaluator commands, which EVAL_FOUT without an output encoding does not read. -/
def ReadsByte (i : Instr) (s : State) (r : RegName) (j : Nat) : Prop :=
  match i with
  | .nop => False
  | .mident _ _ => False
  | .mmul n _ s1 s2 => InViewM n s1 r j ∨ InViewM n s2 r j
  | .minv n _ src => InViewM n src r j
  | .mapply n _ m src => InViewM n m r j ∨ InViewV n src r j
  | .meq n s1 s2 => InViewM n s1 r j ∨ InViewM n s2 r j
  | .aapply n _ a src => InViewA n a r j ∨ InViewV n src r j
  | .acomp n _ s1 s2 => InViewA n s1 r j ∨ InViewA n s2 r j
  | .ainv n _ src => InViewA n src r j
  | .eval => InBuf r j
  | .evalFin => InBuf r j
  | .evalRound _ => InBuf r j
  | .evalFout => s.outPresent = true ∧ InBuf r j

/-- Every byte of the instance store that the command reads in the state `s` was written (70_reset_and_hazards.md R113): the
encodings it applies and the entries it looks up. The other commands read none. -/
def StoreReadsWritten (i : Instr) (s : State) : Prop :=
  match i with
  | .nop => True
  | .mident _ _ => True
  | .mmul _ _ _ _ => True
  | .minv _ _ _ => True
  | .mapply _ _ _ _ => True
  | .meq _ _ _ => True
  | .aapply _ _ _ _ => True
  | .acomp _ _ _ _ => True
  | .ainv _ _ _ => True
  | .eval =>
    EncodingWritten s.store Config.finL Config.finC ∧
    (∀ r, r < 10 → RoundWritten s.store (r + 1)
      (roundsXor (tableEntry s.store) r (applyEncoding s.store Config.finL Config.finC s.buf))) ∧
    (s.outPresent = true → EncodingWritten s.store Config.foutL Config.foutC)
  | .evalFin => EncodingWritten s.store Config.finL Config.finC
  | .evalRound r => RoundWritten s.store r.toNat s.buf
  | .evalFout => s.outPresent = true → EncodingWritten s.store Config.foutL Config.foutC

/-- What a read of the register bytes `reads` in the state `s` leaves in the record of unwritten reads `after`: as it was if
one is recorded already or every byte was written, else some byte read that nothing had written (70_reset_and_hazards.md R113;
log 5). -/
structure RecordsReads (s : State) (reads : RegName → Nat → Prop) (after : Option (RegName × Nat)) : Prop where
  held : s.unwrittenRead ≠ none → after = s.unwrittenRead
  clean : (∀ r j, reads r j → registerWritten s.marks r j = true) → after = s.unwrittenRead
  made : s.unwrittenRead = none → (∃ r j, reads r j ∧ registerWritten s.marks r j = false) →
    ∃ r j, after = some (r, j) ∧ reads r j ∧ registerWritten s.marks r j = false

/-- Two 16-byte blocks as a wide state, the upper block in bytes 0..15 (42_evaluator.md R90, 10_state.md R18). -/
def packBlocks (upper lower : BitVec 128) : Vec := lower ++ upper

/-- The upper block of a wide state (42_evaluator.md R90). -/
def upperBlock (s : Vec) : BitVec 128 := s.extractLsb' 0 128

/-- The lower block of a wide state (42_evaluator.md R90). -/
def lowerBlock (s : Vec) : BitVec 128 := s.extractLsb' 128 128

/-- The same function on both halves of a wide state (42_evaluator.md R91). -/
def onHalves (g : BitVec 128 → BitVec 128) (s : Vec) : Vec := packBlocks (g (upperBlock s)) (g (lowerBlock s))

/-- AES as the correctness of an instance needs it (42_evaluator.md R91): the S-box, ShiftRows, MixColumns and the round keys.
The spec names these functions and tabulates none of them, so they are parameters (log 20). -/
structure AesCore where
  sbox : Byte → Byte
  shiftRows : BitVec 128 → BitVec 128
  mixColumns : BitVec 128 → BitVec 128
  roundKey : Nat → BitVec 128

/-- SubBytes on the 16 bytes of a block. -/
def AesCore.subBlock (f : AesCore) (b : BitVec 128) : BitVec 128 :=
  (vecOfBits (fun j => (f.sbox (b.extractLsb' (8 * (j / 8)) 8)).getLsbD (j % 8)) 128).setWidth 128

/-- The linear layer of round `r` on a block: `MC ∘ SR`, in round 10 `SR` alone (42_evaluator.md R91). -/
def AesCore.linearBlock (f : AesCore) (r : Nat) (b : BitVec 128) : BitVec 128 :=
  if r = 10 then f.shiftRows b else f.mixColumns (f.shiftRows b)

/-- The AES state of a block after round `r`, from the whitened input (42_evaluator.md R91). -/
def AesCore.after (f : AesCore) (b : BitVec 128) : Nat → BitVec 128
  | 0 => b ^^^ f.roundKey 0
  | r + 1 => f.linearBlock (r + 1) (f.subBlock (f.after b r)) ^^^ f.roundKey (r + 1)

/-- `AES_K` of a block: the state after round 10. -/
def AesCore.encrypt (f : AesCore) (b : BitVec 128) : BitVec 128 := f.after b 10

/-- `S`: SubBytes on all 32 bytes (42_evaluator.md R91). -/
def AesCore.wideSub (f : AesCore) (s : Vec) : Vec :=
  vecOfBits (fun j => (f.sbox (byteOf s (j / 8))).getLsbD (j % 8)) 256

/-- `K_r`: round key `r` in both halves (42_evaluator.md R91). -/
def AesCore.wideKey (f : AesCore) (r : Nat) : Vec := packBlocks (f.roundKey r) (f.roundKey r)

/-- The instance is loaded: every byte that some evaluator command reads on some BUF was written
(70_reset_and_hazards.md R115 (2)). -/
structure InstanceLoaded (s : State) : Prop where
  input : EncodingWritten s.store Config.finL Config.finC
  output : s.outPresent = true → EncodingWritten s.store Config.foutL Config.foutC
  tables : ∀ a, Config.tblBase ≤ a → a < Config.tblBase + Config.tblSize → written s.store a

/-- A correct instance (42_evaluator.md R91) for the affine maps `A^(1) .. A^(11)`, `a r` being `A^(r)`: it is loaded, the maps
are invertible, and (a), (b) and (c) hold, `L_r` being the linear layer on both halves. With OUT_PRESENT = 1 `F_out` may be
anything. -/
structure CorrectInstance (s : State) (f : AesCore) (a : Nat → AffineMap) : Prop where
  loaded : InstanceLoaded s
  invertible : ∀ r, 1 ≤ r → r ≤ 11 → (a r).IsInvertible
  input : ∀ u, applyEncoding s.store Config.finL Config.finC u = (a 1).apply (u ^^^ f.wideKey 0)
  rounds : ∀ r ai x, 1 ≤ r → r ≤ 10 → (a r).inverse = some ai →
    roundXor (tableEntry s.store) r x =
      (a (r + 1)).apply (onHalves (f.linearBlock r) (f.wideSub (ai.apply x)) ^^^ f.wideKey r)
  output : ((∀ x, (a 11).apply x = x) ∧ s.outPresent = false) ∨ s.outPresent = true

end Sys2Proof.Machine
end

