-- ==== Sys2Proof/Safety.lean ====
section
/-! DEFINITION. What counts as a safe run, in the terms claims use (70_reset_and_hazards.md R114), and the invariant of the
state. -/

namespace Sys2Proof.Machine

/-- The clean-entry predicate: STATUS, CTRL and ERRINFO 0, and no data byte written but those of the premise `given`
(70_reset_and_hazards.md R114). -/
structure CleanEntry (s : State) (given : List DataByte) : Prop where
  status : statusWord s = 0
  ctrl : ctrlWord s = 0
  errinfo : s.errinfo = 0
  data : ∀ b, dataWritten s b = true → b ∈ given

/-- A run is over: the machine is idle and no further step is to come (70_reset_and_hazards.md R114). -/
def runOver (s : State) : Bool := !s.busy && s.inputs.isEmpty

/-- The end a claim about a run takes as its premise: no error, no overrun and no command in flight
(70_reset_and_hazards.md R114). -/
def cleanEnd (s : State) : Bool := !s.err && !s.ovr && !s.busy

/-- `k` steps from `s`, stopping at the first fault or refusal. -/
def runFrom (k : Nat) (s : State) : Result := Host.Core.run Sys2Proof.core k s

/-- A safe run of `k` steps from `s`: it meets no fault, no read of an unwritten register byte is recorded, and the end is clean
(70_reset_and_hazards.md R113, R114). -/
def safeRun (k : Nat) (s : State) : Bool :=
  match runFrom k s with
  | .next t => cleanEnd t && t.unwrittenRead.isNone
  | .fault _ => false
  | .refused _ => false

/-- The invariant of the state. The instance store is in its canonical form and lists only addresses of the store
(20_memory.md R38). ERRCODE is 0, 1 or 2 (60_exceptions.md R98, 93_implementation_defined.md U5). ERR = 0 is the same as no
record held (92_eei_decisions.md D21). -/
structure State.Inv (s : State) : Prop where
  sorted : Memory.wf s.store
  inStore : Memory.inStore s.store
  noRecord : s.err = false → s.errcode = 0 ∧ s.errinfo = 0
  record : s.err = true → s.errcode = causeCode .illegal ∨ s.errcode = causeCode .domain

end Sys2Proof.Machine
end

