-- ==== Sys2Proof/Certificates/Slice0/Obligations.lean ====
section
/-! DEFINITION. The statements for the provers. The vocabulary shared by several statements stands first (namespace
Sys2Proof.Claims); each statement's docstring names the rules of spec/ it formalises. -/

namespace Sys2Proof.Claims

open Sys2Proof.Machine

/-! Frames: what a command leaves as it was. -/

/-- BUSY is 0 and DONE is 1 (60_exceptions.md R96 (3)). -/
def Completed (t : State) : Prop := t.busy = false ∧ t.done = true

/-- The error record is as it was. -/
def ErrorKept (s t : State) : Prop := t.err = s.err ∧ t.errcode = s.errcode ∧ t.errinfo = s.errinfo

/-- Every vector register but those of `but`, and its marks, are as they were. -/
def VectorsKept (s t : State) (but : VReg → Prop) : Prop :=
  ∀ k : VReg, ¬ but k → t.v[k] = s.v[k] ∧ t.marks.v[k] = s.marks.v[k]

/-- Every matrix register but those of `but`, and its marks, are as they were. -/
def MatricesKept (s t : State) (but : MReg → Prop) : Prop :=
  ∀ k : MReg, ¬ but k → t.m[k] = s.m[k] ∧ t.marks.m[k] = s.marks.m[k]

/-- BUF, IN and ACC and their marks are as they were. -/
def WideKept (s t : State) : Prop :=
  t.buf = s.buf ∧ t.inp = s.inp ∧ t.acc = s.acc ∧
    t.marks.buf = s.marks.buf ∧ t.marks.inp = s.marks.inp ∧ t.marks.acc = s.marks.acc

/-- Every byte of the instance store reads as before. -/
def StoreKept (s t : State) : Prop := ∀ a, memRead t.store a = memRead s.store a

/-- The record of unwritten reads (70_reset_and_hazards.md R113, R114) is as it was, or it was empty and now names a register byte
that was unwritten. -/
def RecordKeptOrMade (s t : State) : Prop :=
  t.unwrittenRead = s.unwrittenRead ∨
    (s.unwrittenRead = none ∧ ∃ r j, t.unwrittenRead = some (r, j) ∧ j < 32 ∧ registerWritten s.marks r j = false)

/-- What no command writes: CTRL, OVR, the instance's CSRs, PEND, every byte of the instance store, and the model's own
fields; and the record of unwritten reads, which a command may only make. -/
structure NeverWritten (s t : State) : Prop where
  irqEn : t.irqEn = s.irqEn
  ovr : t.ovr = s.ovr
  outPresent : t.outPresent = s.outPresent
  version : t.version = s.version
  scheme : t.scheme = s.scheme
  pend : t.pend = s.pend
  store : StoreKept s t
  record : RecordKeptOrMade s t
  draws : t.draws = s.draws
  inputs : t.inputs = s.inputs
  response : t.response = s.response

/-- The frame of a command that completes without an error and whose destinations are the vector registers of `dv` and the
matrix registers of `dm`. -/
structure RegisterFrame (s t : State) (dv : VReg → Prop) (dm : MReg → Prop) : Prop where
  completed : Completed t
  error : ErrorKept s t
  vectors : VectorsKept s t dv
  matrices : MatricesKept s t dm
  wide : WideKept s t
  flag : t.eqFlag = s.eqFlag
  rest : NeverWritten s t

/-- The frame of an evaluator command that completes: everything but BUF, IN and ACC. -/
structure EvaluatorFrame (s t : State) : Prop where
  completed : Completed t
  error : ErrorKept s t
  vectors : VectorsKept s t fun _ => False
  matrices : MatricesKept s t fun _ => False
  flag : t.eqFlag = s.eqFlag
  rest : NeverWritten s t

/-! Results. -/

/-- V[d] holds the `n`-bit value with bits `f`, zeros from bit `n` up, and every byte of it is written
(40_gf2_matrix.md R65, 70_reset_and_hazards.md R113). -/
def VectorHolds (t : State) (d : VReg) (n : Nat) (f : Nat → Bool) : Prop :=
  (∀ i, i < 256 → t.v[d].getLsbD i = (decide (i < n) && f i)) ∧ ∀ j, j < 32 → registerWritten t.marks (.v d) j = true

/-- M[d] holds the `n × n` matrix with entries `f`, zeros outside it, and every byte of it is written
(40_gf2_matrix.md R65, 70_reset_and_hazards.md R113). -/
def MatrixHolds (t : State) (d : MReg) (n : Nat) (f : Nat → Nat → Bool) : Prop :=
  (∀ i j, i < 256 → j < 256 → entry t.m[d] i j = (decide (i < n ∧ j < n) && f i j)) ∧
    ∀ i j, i < 256 → j < 32 → registerWritten t.marks (.m d i) j = true

/-- Every byte of BUF is written. -/
def BufWritten (t : State) : Prop := ∀ j, j < 32 → registerWritten t.marks .buf j = true

/-- Every byte of IN and of ACC is written. -/
def SnapshotWritten (t : State) : Prop :=
  ∀ j, j < 32 → registerWritten t.marks .inp j = true ∧ registerWritten t.marks .acc j = true

/-! Encodings. -/

/-- The fields of the word of a command (30_encoding.md R56). -/
def FieldsOf (i : Instr) (op : BitVec 8) (dim : BitVec 2) (rd rs1 rs2 : Nat) (rnd : BitVec 4) : Prop :=
  opField (encode i) = op ∧ dimField (encode i) = dim ∧ (rdField (encode i)).toNat = rd ∧
    (rs1Field (encode i)).toNat = rs1 ∧ (rs2Field (encode i)).toNat = rs2 ∧ rndField (encode i) = rnd ∧
    rsvField (encode i) = 0

/-- The DIM code of a dimension (30_encoding.md R56). -/
def dimCode : Dim → BitVec 2
  | .d8 => 0b00
  | .d128 => 0b01
  | .d256 => 0b10

/-- Every illegal word of an opcode raises ILLEGAL when it completes. -/
def IllegalWordsRaise (op : BitVec 8) : Prop :=
  ∀ s : State, opField s.pend = op → legalWord s.pend = false → completeCommand s = raise .illegal s

/-- Commands one after another, with no host access in between. -/
def runCommands : List Instr → State → Result
  | [], s => .next s
  | i :: is, s =>
    match exec i s with
    | .next t => runCommands is t
    | .fault f => .fault f
    | .refused r => .refused r

/-- `eval.fin; eval.round 1; …; eval.round 10; eval.fout` (42_evaluator.md R87). -/
def stageCommands : List Instr :=
  [.evalFin, .evalRound 1, .evalRound 2, .evalRound 3, .evalRound 4, .evalRound 5, .evalRound 6, .evalRound 7,
   .evalRound 8, .evalRound 9, .evalRound 10, .evalFout]

/-! The bus. -/

/-- The mapped addresses of 20_memory.md R38, row by row. -/
def Mapped (a : Nat) : Prop :=
  a ≤ 0x23 ∨ (0x1000 ≤ a ∧ a ≤ 0x10FF) ∨ (0x1100 ≤ a ∧ a ≤ 0x111F) ∨ (0x1120 ≤ a ∧ a ≤ 0x113F) ∨
    (0x1140 ≤ a ∧ a ≤ 0x115F) ∨ (0x8000 ≤ a ∧ a ≤ 0xFFFF) ∨ (0x10000 ≤ a ∧ a ≤ 0x11FFF) ∨
    (0x12000 ≤ a ∧ a ≤ 0x1201F) ∨ (0x14000 ≤ a ∧ a ≤ 0x15FFF) ∨ (0x16000 ≤ a ∧ a ≤ 0x1601F) ∨
    (0x40000000 ≤ a ∧ a ≤ 0x67FFFFFF)

/-- The instance store: FIN_L, FIN_C, FOUT_L, FOUT_C and TBL (20_memory.md R38). -/
def StoreAddress (a : Nat) : Prop :=
  (0x10000 ≤ a ∧ a ≤ 0x1201F) ∨ (0x14000 ≤ a ∧ a ≤ 0x1601F) ∨ (0x40000000 ≤ a ∧ a ≤ 0x67FFFFFF)

/-- The operand and evaluator registers: V, BUF, IN, ACC and M (20_memory.md R38). -/
def RegisterAddress (a : Nat) : Prop := (0x1000 ≤ a ∧ a ≤ 0x115F) ∨ (0x8000 ≤ a ∧ a ≤ 0xFFFF)

/-- The busy-locked locations: CMD, the INST words, V, BUF, M and the instance store (20_memory.md R47 (a)). -/
def BusyLocked (a : Nat) : Prop :=
  a = 0x010 ∨ a = 0x018 ∨ a = 0x01C ∨ a = 0x020 ∨ (0x1000 ≤ a ∧ a ≤ 0x111F) ∨ (0x8000 ≤ a ∧ a ≤ 0xFFFF) ∨ StoreAddress a

/-- The read at `a`, word `w` of register `r` whose 256 bits are `x`: the word, and an unwritten byte of it recorded
(70_reset_and_hazards.md R113; log 5). -/
def ReadsWord (s : State) (a : Nat) (r : RegName) (w : Nat) (x : Vec) : Prop :=
  ∃ t, hostRead32 (BitVec.ofNat 32 a) s = .next t ∧
    t = { s with response := some (.data (x.extractLsb' (32 * w) 32)), unwrittenRead := t.unwrittenRead } ∧
    RecordsReads s (fun q j => q = r ∧ 4 * w ≤ j ∧ j < 4 * w + 4) t.unwrittenRead

/-- The input is a host access of 32 bits. -/
def isHostAccess : Input → Bool
  | .read32 _ => true
  | .write32 _ _ => true
  | .otherWidth _ _ _ => false
  | .engineTurn => false
  | .reset => false

/-- Everything a command reads or writes is the same in the two states, but for the error record and DONE. -/
structure SameForCommands (s t : State) : Prop where
  v : t.v = s.v
  m : t.m = s.m
  buf : t.buf = s.buf
  inp : t.inp = s.inp
  acc : t.acc = s.acc
  busy : t.busy = s.busy
  eqFlag : t.eqFlag = s.eqFlag
  outPresent : t.outPresent = s.outPresent
  version : t.version = s.version
  scheme : t.scheme = s.scheme
  pend : t.pend = s.pend
  store : t.store = s.store
  marks : t.marks = s.marks
  unwrittenRead : t.unwrittenRead = s.unwrittenRead

/-- The engine's turn is next. -/
def EngineNext (s : State) : Prop := s.inputs = [] ∨ ∃ rest, s.inputs = .engineTurn :: rest

/-- The reset event is next. -/
def ResetNext (s : State) : Prop := ∃ rest, s.inputs = .reset :: rest

end Sys2Proof.Claims

open Sys2Proof Sys2Proof.Machine Sys2Proof.Claims

/-! Encoding and decoding. -/

/-- Words of every family, written out from 30_encoding.md R56 and R58, decode to their commands. -/
def Obligations.SpecWordsDecode : Prop :=
  decode 0b00000000000000000000000000000000#32 = .ok .nop ∧
  decode 0b00010000010110000000000000000000#32 = .ok (.mident .d128 3) ∧
  decode 0b00010001100000010100000000000000#32 = .ok (.mmul .d256 0 1 2) ∧
  decode 0b00010010010010000000000000000000#32 = .ok (.minv .d128 1 0) ∧
  decode 0b00010011011000100110000000000000#32 = .ok (.mapply .d128 4 2 3) ∧
  decode 0b00010100000000100110000000000000#32 = .ok (.meq .d8 2 3) ∧
  decode 0b00100000101100011000000000000000#32 = .ok (.aapply .d256 6 1 4) ∧
  decode 0b00100001000100010000000000000000#32 = .ok (.acomp .d8 2 1 0) ∧
  decode 0b00100010100010000000000000000000#32 = .ok (.ainv .d256 1 0) ∧
  decode 0b00110000000000000000000000000000#32 = .ok .eval ∧
  decode 0b00110001000000000000000000000000#32 = .ok .evalFin ∧
  decode 0b00110010000000000001010000000000#32 = .ok (.evalRound 10) ∧
  decode 0b00110011000000000000000000000000#32 = .ok .evalFout

/-- Decoding the word of a well-formed command gives it back: no operand bit is dropped (30_encoding.md R56 to R62). -/
def Obligations.DecodeInvertsEncode : Prop :=
  ∀ i : Instr, i.wellFormed = true → decode (encode i) = .ok i

/-- A decoded word is the one word of its command, and the command is well formed (30_encoding.md R59 to R61). -/
def Obligations.EncodeInvertsDecode : Prop :=
  ∀ (w : Word32) (i : Instr), decode w = .ok i → encode i = w ∧ i.wellFormed = true

/-- The decoder accepts exactly the legal words, `Legal(w)` being read from the opcode map, and exactly 1754 words are legal
(30_encoding.md R58, R59). -/
def Obligations.LegalWordsAreDecodable : Prop :=
  (∀ w : Word32, legalWord w = true ↔ ∃ i, decode w = .ok i) ∧
  (allInstrs.map encode).Nodup ∧ (allInstrs.map encode).length = 1754 ∧
  ∀ w : Word32, legalWord w = true ↔ w ∈ allInstrs.map encode

/-- The assembler emits a word exactly for the well-formed commands, and never an illegal one (30_encoding.md R62); mmov is
refused for d = s, and otherwise leaves the leading view of M[s] in M[d], zero-filled, and writes no other register
(30_encoding.md R63). That mmov completes also where M[s] was never written is the model's choice (log 5). -/
def Obligations.AssemblerAndMmov : Prop :=
  (∀ i : Instr, (assemble i).isSome = i.wellFormed) ∧
  (∀ (i : Instr) (w : Word32), assemble i = some w → legalWord w = true) ∧
  (∀ (n : Dim) (d : MReg), mmov n d d = none) ∧
  ∀ (n : Dim) (d src : MReg) (s : State), d ≠ src →
    ∃ is t, mmov n d src = some is ∧ runCommands is s = .next t ∧
      MatrixHolds t d (dimSize n) (entry s.m[src]) ∧ RegisterFrame s t (fun _ => False) fun k => k = d

/-! The life of a command. -/

/-- The engine's turn while busy is `Complete`: the decoded command, or ILLEGAL if the decoder rejects the word in PEND
(60_exceptions.md R94, R96, R98; 30_encoding.md R59). That with no input to come the step is the engine's turn is the model's
choice (log 2). -/
def Obligations.StepRunsDecodedCommand : Prop :=
  ∀ s : State, s.busy = true →
    (∀ i, decode s.pend = .ok i →
      (s.inputs = [] → step s = exec i s) ∧
      ∀ rest, s.inputs = .engineTurn :: rest → step s = exec i { s with inputs := rest }) ∧
    (∀ e, decode s.pend = .error e →
      (s.inputs = [] → step s = raise .illegal s) ∧
      ∀ rest, s.inputs = .engineTurn :: rest → step s = raise .illegal { s with inputs := rest }) ∧
    (s.inputs = [] → step s = completeCommand s) ∧
    ∀ rest, s.inputs = .engineTurn :: rest → step s = completeCommand { s with inputs := rest }

/-- Each step takes the next input: a host read or write, a reset, or the engine's turn, which while idle changes nothing
(20_memory.md R48, R49; 60_exceptions.md R94; 70_reset_and_hazards.md R112). That with no input to come the idle machine
waits, its state as it is, is the model's choice (log 2). -/
def Obligations.StepTakesItsNextInput : Prop :=
  ∀ (s : State) (rest : List Input),
    (∀ a, s.inputs = .read32 a :: rest → step s = hostRead32 a { s with inputs := rest }) ∧
    (∀ a d, s.inputs = .write32 a d :: rest → step s = hostWrite32 a d { s with inputs := rest }) ∧
    (s.inputs = .reset :: rest → step s = .next (resetEvent { s with inputs := rest })) ∧
    (s.busy = false → s.inputs = .engineTurn :: rest → step s = .next { s with inputs := rest }) ∧
    (s.busy = false → s.inputs = [] → step s = .next s)

/-- Acceptance (60_exceptions.md R95): a CMD write of any word while idle stores it in PEND and sets BUSY; nothing else
changes, no legality check is made, and the response is OKAY. -/
def Obligations.AcceptanceStoresTheWord : Prop :=
  ∀ (w : Word32) (s : State), s.busy = false →
    hostWrite32 0x010 w s = .next { s with pend := w, busy := true, response := some .okay }

/-- A machine becomes busy only by a CMD write while idle (60_exceptions.md R94, R95). -/
def Obligations.BusyOnlyByCmdWrite : Prop :=
  ∀ s t : State, step s = .next t → s.busy = false → t.busy = true →
    ∃ w rest, s.inputs = .write32 0x010 w :: rest ∧
      t = { s with inputs := rest, pend := w, busy := true, response := some .okay }

/-- A busy machine becomes idle only at the engine's turn, where DONE is set, or at a reset (10_state.md R26,
60_exceptions.md R96, 70_reset_and_hazards.md R112). -/
def Obligations.IdleOnlyByCompletionOrReset : Prop :=
  ∀ s t : State, step s = .next t → s.busy = true → t.busy = false →
    (EngineNext s ∧ t.done = true) ∨ ResetNext s

/-- An illegal word ends with ILLEGAL: the record, and no other state changed (30_encoding.md R59, R60; 60_exceptions.md R98,
R99). -/
def Obligations.IllegalWordRaisesIllegal : Prop :=
  ∀ s : State, legalWord s.pend = false →
    completeCommand s = .next
      { s with
        busy := false
        done := true
        err := true
        errcode := if s.err then s.errcode else 0x01
        errinfo := if s.err then s.errinfo else s.pend }

/-- The error record (60_exceptions.md R99): ERRCODE and ERRINFO are recorded only while ERR is 0, ERR and DONE are set, BUSY
is cleared, and every other piece of state is as it was. No command clears ERR. -/
def Obligations.ErrorRecordHoldsTheFirst : Prop :=
  (∀ (c : Cause) (s : State),
    raise c s = .next
      { s with
        busy := false
        done := true
        err := true
        errcode := if s.err then s.errcode else (match c with | .illegal => 0x01 | .domain => 0x02)
        errinfo := if s.err then s.errinfo else s.pend }) ∧
  ∀ (i : Instr) (s t : State), exec i s = .next t → s.err = true →
    t.err = true ∧ t.errcode = s.errcode ∧ t.errinfo = s.errinfo

/-- ERR is cleared only by a host write to STATUS with bit 2 set, or by a reset (60_exceptions.md R99, R100;
70_reset_and_hazards.md R112). -/
def Obligations.ErrClearedOnlyByHost : Prop :=
  ∀ s t : State, step s = .next t → s.err = true → t.err = false →
    (∃ d rest, s.inputs = .write32 0x00C d :: rest ∧ d.getLsbD 2 = true) ∨ ResetNext s

/-- Of the well-formed commands only MINV and AINV can fail, and only with DOMAIN, apart from it only recording a read of unwritten
bytes (60_exceptions.md R98). -/
def Obligations.OnlyInversionsFail : Prop :=
  ∀ (i : Instr) (s t : State), i.wellFormed = true → exec i s = .next t →
    ErrorKept s t ∨
    (((∃ n d src, i = .minv n d src) ∨ ∃ n d src, i = .ainv n d src) ∧
      ∃ r, exec i s = raise .domain { s with unwrittenRead := r })

/-- Every command that ends, ends with BUSY 0 and DONE 1; no command writes CTRL, OVR, the INST words, PEND or a byte of the
instance store (60_exceptions.md R96 (3); 10_state.md R21; 20_memory.md R45). Only EVAL and EVAL_ROUND write IN and ACC
(10_state.md R19, R20), only MEQ writes EQ (R32), and no command is refused. -/
def Obligations.CommandsWriteOnlyTheirState : Prop :=
  (∀ (i : Instr) (s t : State), exec i s = .next t →
    Completed t ∧ NeverWritten s t ∧
    ((i ≠ .eval ∧ ∀ r, i ≠ .evalRound r) → t.inp = s.inp ∧ t.acc = s.acc) ∧
    ((∀ n a b, i ≠ .meq n a b) → t.eqFlag = s.eqFlag)) ∧
  ∀ (i : Instr) (s : State) (r : Refusal), exec i s ≠ .refused r

/-- The result of a command depends only on the state at acceptance, whatever host accesses come before its completion: any
latency gives the same registers, EQ and instance store, or the same fault (20_memory.md R47, R51 (3);
60_exceptions.md R96). -/
def Obligations.ResultIndependentOfLatency : Prop :=
  ∀ (s s' : State) (hs rest : List Input), s.busy = true → (∀ h ∈ hs, isHostAccess h = true) →
    runFrom hs.length { s with inputs := hs ++ rest } = .next s' →
    SameForCommands s s' ∧ s'.inputs = rest ∧
    (∀ t, completeCommand s = .next t → ∃ t', completeCommand s' = .next t' ∧ SameForCommands t t') ∧
    ∀ f, completeCommand s = .fault f → completeCommand s' = .fault f

/-! The GF(2) matrix commands. -/

/-- MIDENT (40_gf2_matrix.md R67). -/
def Obligations.MidentLoadsIdentity : Prop :=
  (∀ (n : Dim) (d : MReg) (s : State),
    ∃ t, exec (.mident n d) s = .next t ∧ MatrixHolds t d (dimSize n) (fun i j => decide (i = j)) ∧
      RegisterFrame s t (fun _ => False) fun k => k = d) ∧
  (∀ (n : Dim) (d : MReg), FieldsOf (.mident n d) 0x10 (dimCode n) d.val 0 0 0) ∧ IllegalWordsRaise 0x10

/-- MMUL (40_gf2_matrix.md R68): entry (i, j) is the XOR over k of X[i][k] and Y[k][j], sources read before the write. That it
completes also on sources with unwritten bytes, with the values held, is the model's choice (log 5). -/
def Obligations.MmulMultiplies : Prop :=
  (∀ (n : Dim) (d s1 s2 : MReg) (s : State),
    ∃ t, exec (.mmul n d s1 s2) s = .next t ∧
      MatrixHolds t d (dimSize n)
        (fun i j => xorBelow (fun k => entry s.m[s1] i k && entry s.m[s2] k j) (dimSize n)) ∧
      RegisterFrame s t (fun _ => False) fun k => k = d) ∧
  (∀ (n : Dim) (d s1 s2 : MReg), FieldsOf (.mmul n d s1 s2) 0x11 (dimCode n) d.val s1.val s2.val 0) ∧
  IllegalWordsRaise 0x11

/-- MINV (40_gf2_matrix.md R69): the inverse if the leading view has one, else DOMAIN with nothing written. That it completes
also on sources with unwritten bytes, with the values held, is the model's choice (log 5). -/
def Obligations.MinvInverts : Prop :=
  (∀ (n : Dim) (d src : MReg) (s : State),
    (Invertible (dimSize n) s.m[src] →
      ∃ t, exec (.minv n d src) s = .next t ∧ IsInverse (dimSize n) s.m[src] t.m[d] ∧
        MatrixHolds t d (dimSize n) (entry t.m[d]) ∧ RegisterFrame s t (fun _ => False) fun k => k = d) ∧
    (¬ Invertible (dimSize n) s.m[src] → ∃ r, exec (.minv n d src) s = raise .domain { s with unwrittenRead := r })) ∧
  (∀ (n : Dim) (d src : MReg), FieldsOf (.minv n d src) 0x12 (dimCode n) d.val src.val 0 0) ∧ IllegalWordsRaise 0x12

/-- MAPPLY (40_gf2_matrix.md R70): bit i is parity(row_i(X) and x). That it completes also on sources with unwritten bytes,
with the values held, is the model's choice (log 5). -/
def Obligations.MapplyApplies : Prop :=
  (∀ (n : Dim) (d : VReg) (m : MReg) (src : VReg) (s : State),
    ∃ t, exec (.mapply n d m src) s = .next t ∧
      VectorHolds t d (dimSize n)
        (fun i => xorBelow (fun j => entry s.m[m] i j && s.v[src].getLsbD j) (dimSize n)) ∧
      RegisterFrame s t (fun k => k = d) fun _ => False) ∧
  (∀ (n : Dim) (d : VReg) (m : MReg) (src : VReg),
    FieldsOf (.mapply n d m src) 0x13 (dimCode n) d.val m.val src.val 0) ∧
  IllegalWordsRaise 0x13

/-- MEQ (40_gf2_matrix.md R71): EQ is 1 iff the leading views are equal; an ILLEGAL leaves it unchanged. That it completes
also on sources with unwritten bytes, with the values held, is the model's choice (log 5). -/
def Obligations.MeqCompares : Prop :=
  (∀ (n : Dim) (s1 s2 : MReg) (s : State),
    ∃ t, exec (.meq n s1 s2) s = .next t ∧
      (t.eqFlag = true ↔ ∀ i j, i < dimSize n → j < dimSize n → entry s.m[s1] i j = entry s.m[s2] i j) ∧
      Completed t ∧ ErrorKept s t ∧ VectorsKept s t (fun _ => False) ∧ MatricesKept s t (fun _ => False) ∧
      WideKept s t ∧ NeverWritten s t) ∧
  (∀ (n : Dim) (s1 s2 : MReg), FieldsOf (.meq n s1 s2) 0x14 (dimCode n) 0 s1.val s2.val 0) ∧
  IllegalWordsRaise 0x14 ∧ ∀ s t : State, raise .illegal s = .next t → t.eqFlag = s.eqFlag

/-! The affine commands. -/

/-- AAPPLY (41_affine.md R74): y = L·x ⊕ c. That it completes also on sources with unwritten bytes, with the values held, is
the model's choice (log 5). -/
def Obligations.AapplyApplies : Prop :=
  (∀ (n : Dim) (d : VReg) (a : AReg) (src : VReg) (s : State), n.affine = true →
    ∃ t, exec (.aapply n d a src) s = .next t ∧
      VectorHolds t d (dimSize n)
        (fun i => xorBelow (fun j => entry s.m[a] i j && s.v[src].getLsbD j) (dimSize n) ^^ s.v[biasReg a].getLsbD i) ∧
      RegisterFrame s t (fun k => k = d) fun _ => False) ∧
  (∀ (n : Dim) (d : VReg) (a : AReg) (src : VReg),
    FieldsOf (.aapply n d a src) 0x20 (dimCode n) d.val a.val src.val 0) ∧
  IllegalWordsRaise 0x20 ∧ ∀ s : State, opField s.pend = 0x20 → dimField s.pend = 0b01 → completeCommand s = raise .illegal s

/-- ACOMP (41_affine.md R75): A[d] is (L2·L1, L2·c1 ⊕ c2) with (L2, c2) = A[s1] and (L1, c1) = A[s2]. That it completes also
on sources with unwritten bytes, with the values held, is the model's choice (log 5). -/
def Obligations.AcompComposes : Prop :=
  (∀ (n : Dim) (d s1 s2 : AReg) (s : State), n.affine = true →
    ∃ t, exec (.acomp n d s1 s2) s = .next t ∧
      MatrixHolds t d (dimSize n)
        (fun i j => xorBelow (fun k => entry s.m[s1] i k && entry s.m[s2] k j) (dimSize n)) ∧
      VectorHolds t (biasReg d) (dimSize n)
        (fun i => xorBelow (fun j => entry s.m[s1] i j && s.v[biasReg s2].getLsbD j) (dimSize n)
          ^^ s.v[biasReg s1].getLsbD i) ∧
      RegisterFrame s t (fun k => k = biasReg d) fun k => k = d) ∧
  (∀ (n : Dim) (d s1 s2 : AReg), FieldsOf (.acomp n d s1 s2) 0x21 (dimCode n) d.val s1.val s2.val 0) ∧
  IllegalWordsRaise 0x21 ∧ ∀ s : State, opField s.pend = 0x21 → dimField s.pend = 0b01 → completeCommand s = raise .illegal s

/-- AINV (41_affine.md R76): A[d] is (L⁻¹, L⁻¹·c) if L is invertible, else DOMAIN with nothing written. That it completes also
on sources with unwritten bytes, with the values held, is the model's choice (log 5). -/
def Obligations.AinvInverts : Prop :=
  (∀ (n : Dim) (d src : AReg) (s : State), n.affine = true →
    (Invertible (dimSize n) s.m[src] →
      ∃ t, exec (.ainv n d src) s = .next t ∧ IsInverse (dimSize n) s.m[src] t.m[d] ∧
        MatrixHolds t d (dimSize n) (entry t.m[d]) ∧
        VectorHolds t (biasReg d) (dimSize n)
          (fun i => xorBelow (fun j => entry t.m[d] i j && s.v[biasReg src].getLsbD j) (dimSize n)) ∧
        RegisterFrame s t (fun k => k = biasReg d) fun k => k = d) ∧
    (¬ Invertible (dimSize n) s.m[src] → ∃ r, exec (.ainv n d src) s = raise .domain { s with unwrittenRead := r })) ∧
  (∀ (n : Dim) (d src : AReg), FieldsOf (.ainv n d src) 0x22 (dimCode n) d.val src.val 0 0) ∧
  IllegalWordsRaise 0x22 ∧ ∀ s : State, opField s.pend = 0x22 → dimField s.pend = 0b01 → completeCommand s = raise .illegal s

/-! NOP and the evaluator. -/

/-- NOP (42_evaluator.md R82): completion and no other change; every other word with OP 0x00 is illegal. -/
def Obligations.NopOnlyCompletes : Prop :=
  (∀ s : State, exec .nop s = .next { s with busy := false, done := true }) ∧
  encode .nop = 0x00000000 ∧
  ∀ s : State, opField s.pend = 0x00 → s.pend ≠ 0 → completeCommand s = raise .illegal s

/-- EVAL_FIN (42_evaluator.md R83): BUF becomes `F_in(BUF)`, whether or not FIN_L is invertible; IN and ACC are not written.
That it completes also on a BUF with unwritten bytes, with the value held, is the model's choice (log 5). -/
def Obligations.EvalFinAppliesInputEncoding : Prop :=
  (∀ s : State, EncodingWritten s.store 0x10000 0x12000 →
    ∃ t, exec .evalFin s = .next t ∧ t.buf = applyEncoding s.store 0x10000 0x12000 s.buf ∧ BufWritten t ∧
      t.inp = s.inp ∧ t.acc = s.acc ∧ t.marks.inp = s.marks.inp ∧ t.marks.acc = s.marks.acc ∧ EvaluatorFrame s t) ∧
  encode .evalFin = 0x31000000 ∧
  ∀ s : State, opField s.pend = 0x31 → s.pend ≠ 0x31000000 → completeCommand s = raise .illegal s

/-- EVAL_ROUND (42_evaluator.md R80, R84): IN is the old BUF, ACC and BUF are the XOR of the 32 entries it selects; only those
entries need have been written, and RND 0 and 11..15 are illegal. That it completes also on a BUF with unwritten bytes, with
the value held, is the model's choice (log 5). -/
def Obligations.EvalRoundXorsItsTables : Prop :=
  (∀ (r : BitVec 4) (s : State), 1 ≤ r.toNat → r.toNat ≤ 10 → RoundWritten s.store r.toNat s.buf →
    ∃ t, exec (.evalRound r) s = .next t ∧ t.inp = s.buf ∧
      t.acc = xorVecs (fun i => tableEntry s.store r.toNat i (byteOf s.buf i).toNat
        (byteOf s.buf ((i + 1) % 32)).toNat) 32 ∧
      t.buf = t.acc ∧ BufWritten t ∧ SnapshotWritten t ∧ EvaluatorFrame s t) ∧
  (∀ r : BitVec 4, encode (.evalRound r) = 0x32000000 ||| (r.setWidth 32 <<< 9)) ∧
  IllegalWordsRaise 0x32 ∧
  ∀ s : State, opField s.pend = 0x32 → (rndField s.pend = 0 ∨ 11 ≤ (rndField s.pend).toNat) →
    completeCommand s = raise .illegal s

/-- EVAL_FOUT (42_evaluator.md R85): with OUT_PRESENT = 1, BUF becomes `F_out(BUF)`; with 0 nothing but the completion, and
FOUT_L and FOUT_C are not read. That it completes also on a BUF with unwritten bytes, with the value held, is the model's
choice (log 5). -/
def Obligations.EvalFoutAppliesOutputEncoding : Prop :=
  (∀ s : State, s.outPresent = true → EncodingWritten s.store 0x14000 0x16000 →
    ∃ t, exec .evalFout s = .next t ∧ t.buf = applyEncoding s.store 0x14000 0x16000 s.buf ∧ BufWritten t ∧
      t.inp = s.inp ∧ t.acc = s.acc ∧ t.marks.inp = s.marks.inp ∧ t.marks.acc = s.marks.acc ∧ EvaluatorFrame s t) ∧
  (∀ s : State, s.outPresent = false → exec .evalFout s = .next { s with busy := false, done := true }) ∧
  encode .evalFout = 0x33000000 ∧
  ∀ s : State, opField s.pend = 0x33 → s.pend ≠ 0x33000000 → completeCommand s = raise .illegal s

/-- EVAL (42_evaluator.md R86): `F_in`, the rounds 1..10, and `F_out` if present; IN holds the input of round 10, ACC its
output before `F_out`. Only the encodings it applies and the entries it selects need have been written. That it completes also
on a BUF with unwritten bytes, with the value held, is the model's choice (log 5). -/
def Obligations.EvalRunsTheProcedure : Prop :=
  (∀ s : State, EncodingWritten s.store 0x10000 0x12000 →
    (s.outPresent = true → EncodingWritten s.store 0x14000 0x16000) →
    (∀ r, r < 10 → RoundWritten s.store (r + 1)
      (roundsXor (tableEntry s.store) r (applyEncoding s.store 0x10000 0x12000 s.buf))) →
    ∃ t, exec .eval s = .next t ∧
      t.inp = roundsXor (tableEntry s.store) 9 (applyEncoding s.store 0x10000 0x12000 s.buf) ∧
      t.acc = roundsXor (tableEntry s.store) 10 (applyEncoding s.store 0x10000 0x12000 s.buf) ∧
      t.buf = (if s.outPresent then applyEncoding s.store 0x14000 0x16000 t.acc else t.acc) ∧
      BufWritten t ∧ SnapshotWritten t ∧ EvaluatorFrame s t) ∧
  encode .eval = 0x30000000 ∧
  ∀ s : State, opField s.pend = 0x30 → s.pend ≠ 0x30000000 → completeCommand s = raise .illegal s

/-- With the instance loaded as 70_reset_and_hazards.md R115 (2) asks, EVAL and the stage commands complete for every BUF. A
BUF with unwritten bytes is among them by the model's choice (log 5). -/
def Obligations.LoadedInstanceEvaluates : Prop :=
  ∀ s : State, InstanceLoaded s →
    (∃ t, exec .eval s = .next t) ∧ (∃ t, exec .evalFin s = .next t) ∧ (∃ t, exec .evalFout s = .next t) ∧
    ∀ r : BitVec 4, 1 ≤ r.toNat → r.toNat ≤ 10 → ∃ t, exec (.evalRound r) s = .next t

/-- The 12 stage commands in order leave what one EVAL leaves from the same state, BUF, IN and ACC among it, and stop where
EVAL stops (42_evaluator.md R87). -/
def Obligations.StageCommandsEqualEval : Prop :=
  ∀ s : State, runCommands stageCommands s = exec .eval s

/-- Mask cancellation (42_evaluator.md R92): tables that differ by `h_i(x) ⊕ h_{(i+1) mod 32}(y)` give the same BUF and ACC.
That both rounds complete also on a BUF with unwritten bytes is the model's choice (log 5). -/
def Obligations.MasksCancelInARound : Prop :=
  ∀ (r : BitVec 4) (s s' : State) (h : Nat → Nat → Vec), 1 ≤ r.toNat → r.toNat ≤ 10 →
    s'.buf = s.buf →
    RoundWritten s.store r.toNat s.buf → RoundWritten s'.store r.toNat s.buf →
    (∀ i x y, i < 32 → x < 256 → y < 256 →
      tableEntry s'.store r.toNat i x y = tableEntry s.store r.toNat i x y ^^^ h i x ^^^ h ((i + 1) % 32) y) →
    ∃ t t', exec (.evalRound r) s = .next t ∧ exec (.evalRound r) s' = .next t' ∧ t'.buf = t.buf ∧ t'.acc = t.acc

/-- On a correct instance (42_evaluator.md R91), with AES's functions as parameters (log 20), the value after `F_in` and the
rounds 1..r is `A^(r+1)` of the AES state after round r on each half, and BUF holds it after the stage commands up to round r.
EVAL completes: with OUT_PRESENT = 0 with `AES_K` of each half in BUF, else with `A^(11)` of it in ACC and `F_out` of that in
BUF. That EVAL and the stages complete also on a BUF with unwritten bytes is the model's choice (log 5). -/
def Obligations.CorrectInstanceComputesAes : Prop :=
  ∀ (s : State) (f : AesCore) (a : Nat → AffineMap), CorrectInstance s f a →
    (∀ r, r ≤ 10 →
      roundsXor (tableEntry s.store) r (applyEncoding s.store 0x10000 0x12000 s.buf) =
        (a (r + 1)).apply (onHalves (fun b => f.after b r) s.buf)) ∧
    (∀ r, r ≤ 10 → ∃ t, runCommands (stageCommands.take (r + 1)) s = .next t ∧
      t.buf = (a (r + 1)).apply (onHalves (fun b => f.after b r) s.buf)) ∧
    (s.outPresent = false →
      ∃ t, exec .eval s = .next t ∧ t.buf = packBlocks (f.encrypt (upperBlock s.buf)) (f.encrypt (lowerBlock s.buf)) ∧
        t.acc = t.buf) ∧
    (s.outPresent = true →
      ∃ t, exec .eval s = .next t ∧ t.acc = (a 11).apply (onHalves f.encrypt s.buf) ∧
        t.buf = applyEncoding s.store 0x14000 0x16000 t.acc)

/-! Reads of unwritten bytes. -/

/-- A command stops only on an unwritten byte of the instance store, which it names, never with a bus error. No step takes back
the record of a read of an unwritten register byte, and a step that makes it names a byte that was unwritten
(70_reset_and_hazards.md R113, R114). That the machine goes on after such a read with the value the register holds is the
model's choice (log 5). -/
def Obligations.CommandFaultsNameUnwrittenBytes : Prop :=
  (∀ (i : Instr) (s : State) (f : Fault), exec i s = .fault f →
    ∃ a, f = .unwrittenStore a ∧ StoreAddress a ∧ memRead s.store a = none) ∧
  ∀ s t : State, step s = .next t → RecordKeptOrMade s t

/-- A command whose reads of the instance store are all of written bytes completes, whatever register bytes were written: unless
one is recorded already, it records an unwritten register byte that it reads, through a source view or in BUF, and it leaves the
record as it was if it reads none; which of several it records is not said (log 7). That it completes then, with the values the registers hold, is the model's choice (log 5). A command that reads an
unwritten byte of the instance store, of an encoding it applies or of an entry it looks up, EVAL in any of its stages, stops and
names such a byte (70_reset_and_hazards.md R113, 93_implementation_defined.md U1). -/
def Obligations.UnwrittenSourcesAreRecorded : Prop :=
  ∀ (i : Instr) (s : State), i.wellFormed = true →
    (StoreReadsWritten i s → ∃ t, exec i s = .next t ∧ RecordsReads s (ReadsByte i s) t.unwrittenRead) ∧
    (¬ StoreReadsWritten i s → ∃ a, StoreAddress a ∧ memRead s.store a = none ∧ exec i s = .fault (.unwrittenStore a))

/-! The bus. -/

/-- An access gets a bus error exactly at an address that is not a multiple of 4 or not mapped, or at another width; the fault
names the access, and every other write is answered (20_memory.md R35, R38, R39; 60_exceptions.md R101). -/
def Obligations.BusErrorsExactly : Prop :=
  (∀ (a d : Word32) (s : State), (a.toNat % 4 = 0 ∧ Mapped a.toNat) → ∃ t, hostWrite32 a d s = .next t) ∧
  (∀ (a d : Word32) (s : State), ¬ (a.toNat % 4 = 0 ∧ Mapped a.toNat) →
    hostWrite32 a d s = .fault (.busError ⟨true, 32, a⟩) ∧ hostRead32 a s = .fault (.busError ⟨false, 32, a⟩)) ∧
  (∀ (a : Word32) (s : State) (b : Access), (a.toNat % 4 = 0 ∧ Mapped a.toNat) → hostRead32 a s ≠ .fault (.busError b)) ∧
  ∀ (wr : Bool) (width : Nat) (a : Word32) (s : State), width ≠ 32 →
    inputStep (.otherWidth wr width a) s = .fault (.busError ⟨wr, width, a⟩)

/-- While busy, a write to CMD or to any other busy-locked location is dropped and sets OVR, and nothing else changes
(60_exceptions.md R97, 20_memory.md R47 (a)). -/
def Obligations.BusyWritesAreDropped : Prop :=
  ∀ (a d : Word32) (s : State), s.busy = true → a.toNat % 4 = 0 → BusyLocked a.toNat →
    hostWrite32 a d s = .next { s with ovr := true, response := some .okay }

/-- While busy, a read of V, BUF, IN, ACC or M gives a fresh free value, whatever the register holds and whether or not it was
written, and changes nothing else (20_memory.md R47 (b), 93_implementation_defined.md U2). That the draws are numbered is the
model's choice (log 8). -/
def Obligations.BusyReadsAreFree : Prop :=
  ∀ (a : Word32) (s : State), s.busy = true → a.toNat % 4 = 0 → RegisterAddress a.toNat →
    hostRead32 a s = .next { s with response := some (.data (Config.busyRead s.draws)), draws := s.draws + 1 }

/-- No read has a side effect: it leaves every piece of the block's state as it was. The draw counter moves only while busy, and
only an idle read of an unwritten register byte makes the record of 70_reset_and_hazards.md R113, both being the model's own
fields (20_memory.md R49, R50; log 5, log 8). -/
def Obligations.ReadsHaveNoSideEffect : Prop :=
  ∀ (a : Word32) (s t : State), hostRead32 a s = .next t →
    (∃ d, t = { s with response := some (.data d), draws := t.draws, unwrittenRead := t.unwrittenRead }) ∧
    (s.busy = false → t.draws = s.draws) ∧ (s.busy = true → t.unwrittenRead = s.unwrittenRead) ∧ RecordKeptOrMade s t

/-- Read-only locations ignore writes with a normal response and no OVR; the reserved bits of CTRL, INST_FLAGS and
INST_VERSION and the RO bits of STATUS do too; CMD reads 0 (20_memory.md R46). CTRL, and while idle the INST words, take their
read-write bits, INST_SCHEME the whole word (10_state.md R25, R29 to R31; 20_memory.md R48). -/
def Obligations.ReadOnlyLocationsIgnoreWrites : Prop :=
  (∀ (a d : Word32) (s : State), a.toNat % 4 = 0 →
    (a.toNat = 0x000 ∨ a.toNat = 0x004 ∨ a.toNat = 0x014 ∨ (0x1120 ≤ a.toNat ∧ a.toNat ≤ 0x115F)) →
    hostWrite32 a d s = .next { s with response := some .okay }) ∧
  (∀ (d : Word32) (s : State),
    hostWrite32 0x008 d s = .next { s with irqEn := d.getLsbD 0, response := some .okay }) ∧
  (∀ (d : Word32) (s : State), s.busy = false →
    hostWrite32 0x018 d s = .next { s with outPresent := d.getLsbD 0, response := some .okay } ∧
    hostWrite32 0x01C d s = .next { s with version := d.extractLsb' 0 8, response := some .okay } ∧
    hostWrite32 0x020 d s = .next { s with scheme := d, response := some .okay }) ∧
  (∀ (d : Word32) (s t : State), hostWrite32 0x00C d s = .next t →
    t.busy = s.busy ∧ t.eqFlag = s.eqFlag ∧ (d.getLsbD 2 = false → t.errcode = s.errcode) ∧ (s.ovr = false → t.ovr = false)) ∧
  ∀ s : State, hostRead32 0x010 s = .next { s with response := some (.data 0) }

/-- ID always reads 0x57424145 and HWVER 0x00000001, in every state, and writes to them are ignored (10_state.md R23, R24). -/
def Obligations.IdentificationIsConstant : Prop :=
  ∀ (s : State) (d : Word32),
    hostRead32 0x000 s = .next { s with response := some (.data 0x57424145) } ∧
    hostRead32 0x004 s = .next { s with response := some (.data 0x00000001) } ∧
    hostWrite32 0x000 d s = .next { s with response := some .okay } ∧
    hostWrite32 0x004 d s = .next { s with response := some .okay }

/-- The STATUS word read at 0x00C, bit by bit, in every mode (10_state.md R26). -/
def Obligations.StatusWordLayout : Prop :=
  ∀ s : State, ∃ w : Word32,
    hostRead32 0x00C s = .next { s with response := some (.data w) } ∧
    w.getLsbD 0 = s.busy ∧ w.getLsbD 1 = s.done ∧ w.getLsbD 2 = s.err ∧ w.getLsbD 3 = s.ovr ∧ w.getLsbD 4 = s.eqFlag ∧
    w.extractLsb' 5 3 = 0 ∧ w.extractLsb' 8 8 = s.errcode ∧ w.extractLsb' 16 16 = 0

/-- The other CSR words read their fields, reserved bits 0, in every mode (10_state.md R25, R28 to R31; 20_memory.md R47 (c),
R49). -/
def Obligations.CsrWordsReadTheirFields : Prop :=
  ∀ s : State,
    hostRead32 0x008 s = .next { s with response := some (.data (if s.irqEn then 1 else 0)) } ∧
    hostRead32 0x014 s = .next { s with response := some (.data s.errinfo) } ∧
    hostRead32 0x018 s = .next { s with response := some (.data (if s.outPresent then 1 else 0)) } ∧
    hostRead32 0x01C s = .next { s with response := some (.data (s.version.setWidth 32)) } ∧
    hostRead32 0x020 s = .next { s with response := some (.data s.scheme) }

/-- A STATUS write clears DONE, the error record and OVR by ones in bits 1, 2 and 3, busy or not; every other bit is ignored
and nothing else changes (10_state.md R26, 60_exceptions.md R100). -/
def Obligations.StatusWriteClears : Prop :=
  ∀ (d : Word32) (s : State),
    hostWrite32 0x00C d s = .next
      { s with
        done := s.done && !d.getLsbD 1
        err := s.err && !d.getLsbD 2
        errcode := if d.getLsbD 2 then 0 else s.errcode
        errinfo := if d.getLsbD 2 then 0 else s.errinfo
        ovr := s.ovr && !d.getLsbD 3
        response := some .okay }

/-- A word written to V, BUF or M while idle lands in the bytes of its address and in no other, little-endian; those bytes
become written, the response is OKAY, and every other piece of state is as it was (20_memory.md R36, R37, R40, R41, R42, R48;
70_reset_and_hazards.md R113). -/
def Obligations.RegisterWritesLandAtTheirBytes : Prop :=
  (∀ (k : VReg) (w : Nat) (d : Word32) (s : State), w < 8 → s.busy = false →
    ∃ t, hostWrite32 (BitVec.ofNat 32 (0x1000 + 0x20 * k.val + 4 * w)) d s = .next t ∧
      t = { s with v := t.v, marks := { s.marks with v := t.marks.v }, response := some .okay } ∧
      (∀ j, j < 32 → byteOf t.v[k] j = if j / 4 = w then d.extractLsb' (8 * (j % 4)) 8 else byteOf s.v[k] j) ∧
      (∀ j, j < 32 → registerWritten t.marks (.v k) j = (decide (j / 4 = w) || registerWritten s.marks (.v k) j)) ∧
      VectorsKept s t (fun q => q = k)) ∧
  (∀ (w : Nat) (d : Word32) (s : State), w < 8 → s.busy = false →
    ∃ t, hostWrite32 (BitVec.ofNat 32 (0x1100 + 4 * w)) d s = .next t ∧
      t = { s with buf := t.buf, marks := { s.marks with buf := t.marks.buf }, response := some .okay } ∧
      (∀ j, j < 32 → byteOf t.buf j = if j / 4 = w then d.extractLsb' (8 * (j % 4)) 8 else byteOf s.buf j) ∧
      ∀ j, j < 32 → registerWritten t.marks .buf j = (decide (j / 4 = w) || registerWritten s.marks .buf j)) ∧
  ∀ (k : MReg) (i w : Nat) (d : Word32) (s : State), i < 256 → w < 8 → s.busy = false →
    ∃ t, hostWrite32 (BitVec.ofNat 32 (0x8000 + 0x2000 * k.val + 0x20 * i + 4 * w)) d s = .next t ∧
      t = { s with m := t.m, marks := { s.marks with m := t.marks.m }, response := some .okay } ∧
      (∀ q j, q < 256 → j < 256 →
        entry t.m[k] q j = if q = i ∧ j / 32 = w then d.getLsbD (j % 32) else entry s.m[k] q j) ∧
      (∀ q j, q < 256 → j < 32 →
        registerWritten t.marks (.m k q) j = (decide (q = i ∧ j / 4 = w) || registerWritten s.marks (.m k q) j)) ∧
      MatricesKept s t (fun q => q = k)

/-- A word written to the instance store while idle is its four bytes, little-endian, and every other byte and everything else
is as it was; a read gives it back, also while busy (20_memory.md R36, R43, R44, R47 (c), R48, R49). A read of a word with an
unwritten byte stops on such a byte (70_reset_and_hazards.md R113). -/
def Obligations.StoreWordReadsBack : Prop :=
  (∀ (a d : Word32) (s : State), a.toNat % 4 = 0 → StoreAddress a.toNat → s.busy = false →
    ∃ t, hostWrite32 a d s = .next t ∧
      t = { s with store := t.store, response := some .okay } ∧
      (∀ b, memRead t.store b =
        if a.toNat ≤ b ∧ b < a.toNat + 4 then some (d.extractLsb' (8 * (b - a.toNat)) 8) else memRead s.store b) ∧
      ∀ u, hostRead32 a { t with busy := u } = .next { t with busy := u, response := some (.data d) }) ∧
  ∀ (a : Word32) (s : State), a.toNat % 4 = 0 → StoreAddress a.toNat →
    (∃ k, k < 4 ∧ memRead s.store (a.toNat + k) = none) →
    ∃ b, a.toNat ≤ b ∧ b < a.toNat + 4 ∧ memRead s.store b = none ∧ hostRead32 a s = .fault (.unwrittenStore b)

/-- While idle a read of a word of V, BUF, IN, ACC or M returns the stored value and changes nothing else but the record: an
unwritten byte of the word is recorded, if none is recorded yet (20_memory.md R40 to R42, R47, R49; 70_reset_and_hazards.md R113).
That the read of such a byte gives the value held is the model's choice (log 5). -/
def Obligations.RegisterReadsReturnStoredWords : Prop :=
  ∀ (s : State) (w : Nat), s.busy = false → w < 8 →
    (∀ k : VReg, ReadsWord s (0x1000 + 0x20 * k.val + 4 * w) (.v k) w s.v[k]) ∧
    ReadsWord s (0x1100 + 4 * w) .buf w s.buf ∧ ReadsWord s (0x1120 + 4 * w) .inp w s.inp ∧
    ReadsWord s (0x1140 + 4 * w) .acc w s.acc ∧
    ∀ (k : MReg) (i : Nat), i < 256 → ReadsWord s (0x8000 + 0x2000 * k.val + 0x20 * i + 4 * w) (.m k i) w (row s.m[k] i)

/-- `MemRead(a, 32)` of written bytes is the value whose byte k is the byte at a + k (20_memory.md R37, R45). -/
def Obligations.EngineReadsBytesInOrder : Prop :=
  ∀ (mem : Memory) (a : Nat), (∀ k, k < 32 → written mem (a + k)) →
    ∃ v, memVec mem a = .ok v ∧ ∀ k, k < 32 → memRead mem (a + k) = some (byteOf v k)

/-- The table entries of rounds 1..10 lie in TBL, 32 bytes each, no two overlapping, the last ending at 0x67FFFFFF, and a round
looks up 32 of them (20_memory.md R44, 42_evaluator.md R80, R89). -/
def Obligations.TableEntriesAreDisjoint : Prop :=
  (∀ r i x y, 1 ≤ r → r ≤ 10 → i < 32 → x < 256 → y < 256 →
    tableAddr r i x y = 0x40000000 + ((r - 1) * 32 + i) * 0x200000 + (x * 256 + y) * 32 ∧
    0x40000000 ≤ tableAddr r i x y ∧ tableAddr r i x y + 31 ≤ 0x67FFFFFF) ∧
  (∀ r i x y r' i' x' y', 1 ≤ r → r ≤ 10 → i < 32 → x < 256 → y < 256 → 1 ≤ r' → r' ≤ 10 → i' < 32 → x' < 256 → y' < 256 →
    tableAddr r i x y < tableAddr r' i' x' y' + 32 → tableAddr r' i' x' y' < tableAddr r i x y + 32 →
    r = r' ∧ i = i' ∧ x = x' ∧ y = y') ∧
  tableAddr 10 31 255 255 + 31 = 0x67FFFFFF ∧
  ∀ (r : Nat) (v : Vec), (roundAddrs r v).length = 32

/-! Interrupt, reset, invariant. -/

/-- IRQ is IRQ_EN and (DONE or ERR or OVR), drives the platform line WBRT_IRQ_LINE and no other, and clearing IRQ_EN deasserts
it without clearing a source (60_exceptions.md R103). That every other platform line is low, as seen from this block alone, is the
model's choice (log 12). -/
def Obligations.InterruptLevel : Prop :=
  ∀ s : State,
    (irq s = true ↔ s.irqEn = true ∧ (s.done = true ∨ s.err = true ∨ s.ovr = true)) ∧
    platformLine s Config.wbrtIrqLine = irq s ∧ (∀ line, line ≠ Config.wbrtIrqLine → platformLine s line = false) ∧
    ∀ d : Word32, d.getLsbD 0 = false →
      ∃ t, hostWrite32 0x008 d s = .next t ∧ irq t = false ∧ t.done = s.done ∧ t.err = s.err ∧ t.ovr = s.ovr

/-- The state right after reset is a clean entry: STATUS, CTRL, ERRINFO and the INST words 0, idle, IRQ deasserted, every data
byte unwritten (70_reset_and_hazards.md R113, R114; 10_state.md R34). The values the data registers hold are the model's choice
and not stated (log 4). -/
def Obligations.ResetIsACleanEntry : Prop :=
  CleanEntry State.reset [] ∧ State.reset.busy = false ∧ instFlagsWord State.reset = 0 ∧ instVersionWord State.reset = 0 ∧
  State.reset.scheme = 0 ∧ irq State.reset = false

/-- The reset event, idle or busy: every CSR at its reset value, the command in flight abandoned with no DONE and no record,
every data byte unwritten, IRQ deasserted (70_reset_and_hazards.md R112). -/
def Obligations.ResetEventClearsEverything : Prop :=
  ∀ (s : State) (rest : List Input), s.inputs = .reset :: rest →
    ∃ t, step s = .next t ∧ t.busy = false ∧ CleanEntry t [] ∧ instFlagsWord t = 0 ∧ instVersionWord t = 0 ∧ t.scheme = 0 ∧
      irq t = false ∧ t.inputs = rest

/-- The invariant holds right after reset. -/
def Obligations.ResetMeetsInvariant : Prop := State.Inv State.reset

/-- Every step keeps the invariant: the instance store in its canonical form and within its regions (20_memory.md R38), ERRCODE
0, 1 or 2 and no record while ERR is 0 (60_exceptions.md R98, 92_eei_decisions.md D21). -/
def Obligations.StepKeepsInvariant : Prop :=
  ∀ s t : State, State.Inv s → step s = .next t → State.Inv t

/-! Algebra and instances. -/

/-- Application of a product is application twice, the product is associative and has I_n as its unit, and it is not commutative
(40_gf2_matrix.md R73 (a), (b), (c)). -/
def Obligations.MatrixProductLaws : Prop :=
  (∀ (n : Dim) (x y z : BitMatrix) (v : Vec),
    matVec (dimSize n) (matMul (dimSize n) (leadMat (dimSize n) x) (leadMat (dimSize n) y)) (leadVec (dimSize n) v) =
      matVec (dimSize n) (leadMat (dimSize n) x) (matVec (dimSize n) (leadMat (dimSize n) y) (leadVec (dimSize n) v)) ∧
    matMul (dimSize n) (matMul (dimSize n) (leadMat (dimSize n) x) (leadMat (dimSize n) y)) (leadMat (dimSize n) z) =
      matMul (dimSize n) (leadMat (dimSize n) x) (matMul (dimSize n) (leadMat (dimSize n) y) (leadMat (dimSize n) z)) ∧
    matMul (dimSize n) (identity (dimSize n)) (leadMat (dimSize n) x) = leadMat (dimSize n) x ∧
    matMul (dimSize n) (leadMat (dimSize n) x) (identity (dimSize n)) = leadMat (dimSize n) x) ∧
  ∀ n : Dim, ∃ x y : BitMatrix,
    matMul (dimSize n) (leadMat (dimSize n) x) (leadMat (dimSize n) y) ≠
      matMul (dimSize n) (leadMat (dimSize n) y) (leadMat (dimSize n) x)

/-- The inversion laws (40_gf2_matrix.md R73 (d), (e), (f)): a computed inverse is a two-sided inverse and inverts back; there
is none exactly if some non-zero vector is mapped to 0; the inverse of a product is the product of the inverses in reverse. -/
def Obligations.MatrixInverseLaws : Prop :=
  ∀ (n : Dim) (x y : BitMatrix),
    (∀ z, matInverse (dimSize n) (leadMat (dimSize n) x) = some z →
      matMul (dimSize n) (leadMat (dimSize n) x) z = identity (dimSize n) ∧
      matMul (dimSize n) z (leadMat (dimSize n) x) = identity (dimSize n) ∧
      matInverse (dimSize n) z = some (leadMat (dimSize n) x)) ∧
    (matInverse (dimSize n) (leadMat (dimSize n) x) = none ↔
      ∃ v, leadVec (dimSize n) v ≠ 0 ∧ matVec (dimSize n) (leadMat (dimSize n) x) (leadVec (dimSize n) v) = 0) ∧
    ∀ x' y', matInverse (dimSize n) (leadMat (dimSize n) x) = some x' →
      matInverse (dimSize n) (leadMat (dimSize n) y) = some y' →
      matInverse (dimSize n) (matMul (dimSize n) (leadMat (dimSize n) x) (leadMat (dimSize n) y)) =
        some (matMul (dimSize n) y' x')

/-- AINV undoes (41_affine.md R79 (a)): with an invertible linear part, AINV completes, and applying A[d] to the image of x
under A[s] gives x back, and the reverse. That it completes also on sources with unwritten bytes, with the values held, is the
model's choice (log 5). -/
def Obligations.AffineInverseUndoes : Prop :=
  ∀ (n : Dim) (d src : AReg) (s : State), n.affine = true → Invertible (dimSize n) s.m[src] →
    ∃ t, exec (.ainv n d src) s = .next t ∧
    ∀ x : Vec,
      affineApply (dimSize n) t.m[d] t.v[biasReg d]
        (affineApply (dimSize n) (leadMat (dimSize n) s.m[src]) (leadVec (dimSize n) s.v[biasReg src])
          (leadVec (dimSize n) x)) = leadVec (dimSize n) x ∧
      affineApply (dimSize n) (leadMat (dimSize n) s.m[src]) (leadVec (dimSize n) s.v[biasReg src])
        (affineApply (dimSize n) t.m[d] t.v[biasReg d] (leadVec (dimSize n) x)) = leadVec (dimSize n) x

/-- After ACOMP, applying A[d] is applying A[s2] and then A[s1] (41_affine.md R75, R79 (b)). That it completes also on sources
with unwritten bytes, with the values held, is the model's choice (log 5). -/
def Obligations.CompositionAppliesInnerFirst : Prop :=
  ∀ (n : Dim) (d s1 s2 : AReg) (s : State), n.affine = true →
    ∃ t, exec (.acomp n d s1 s2) s = .next t ∧
    ∀ x : Vec,
      affineApply (dimSize n) t.m[d] t.v[biasReg d] (leadVec (dimSize n) x) =
        affineApply (dimSize n) (leadMat (dimSize n) s.m[s1]) (leadVec (dimSize n) s.v[biasReg s1])
          (affineApply (dimSize n) (leadMat (dimSize n) s.m[s2]) (leadVec (dimSize n) s.v[biasReg s2])
            (leadVec (dimSize n) x))

/-- The lifting convention (40_gf2_matrix.md R72): the matrix of a linear f, its columns the images of the basis vectors, maps
every vector to f of it. -/
def Obligations.LiftedMatrixAppliesTheFunction : Prop :=
  ∀ (n : Dim) (f : Vec → Vec), (∀ x y, f (x ^^^ y) = f x ^^^ f y) →
    ∀ v : Vec, matVec (dimSize n) (liftMatrix (dimSize n) f) (leadVec (dimSize n) v) =
      leadVec (dimSize n) (f (leadVec (dimSize n) v))

/-- Under a banded linear part, byte p of L·x ⊕ c is D_p·x_p ⊕ S_p·x_q ⊕ c_p with q = (p + 1) mod 32, D_p the diagonal and S_p
the super-diagonal block, so it depends only on bytes p and q of x (41_affine.md R77, from (a) alone). -/
def Obligations.SparseByteDependsOnTwoBytes : Prop :=
  ∀ (l : BitMatrix) (c : Vec) (p : Nat), Banded l → p < 32 →
    (∀ x : Vec,
      byteOf (affineApply 256 l c x) p =
        byteOf (matVec 8 (blockOf l p p) ((byteOf x p).setWidth 256)) 0 ^^^
        byteOf (matVec 8 (blockOf l p ((p + 1) % 32)) ((byteOf x ((p + 1) % 32)).setWidth 256)) 0 ^^^ byteOf c p) ∧
    ∀ x y : Vec, byteOf x p = byteOf y p → byteOf x ((p + 1) % 32) = byteOf y ((p + 1) % 32) →
      byteOf (affineApply 256 l c x) p = byteOf (affineApply 256 l c y) p
end

