-- ==== Sys2Proof/Laws/Gf2.lean ====
section
/-! SUPPORT. The bits of every GF(2) operation of Machine/Gf2.lean, said once in the terms of 00_scope.md R9, and the
equality of vectors and matrices bit by bit. -/

namespace Sys2Proof.Machine

/-! Vectors. -/

@[simp] theorem vecOfBits_getLsbD (f : Nat → Bool) (n j : Nat) (hn : n ≤ 256) :
    (vecOfBits f n).getLsbD j = (decide (j < n) && f j) := by
  induction n with
  | zero => simp [vecOfBits]
  | succ k ih =>
    simp only [vecOfBits, BitVec.getLsbD_or, ih (by omega)]
    by_cases hj : j = k
    · subst hj
      by_cases hf : f j <;> simp [hf, BitVec.getLsbD_twoPow]
      omega
    · have hk : (if f k then BitVec.twoPow 256 k else 0#256).getLsbD j = false := by
        split <;> simp [BitVec.getLsbD_twoPow]
        intro _ h; exact hj h.symm
      have hlt : decide (j ≤ k) = decide (j < k) := by
        simp only [decide_eq_decide]; omega
      simp [hk, hlt]

theorem vec_ext {x y : Vec} (h : ∀ j, j < 256 → x.getLsbD j = y.getLsbD j) : x = y :=
  BitVec.eq_of_getLsbD_eq h

theorem testBit_lowOnes (n j : Nat) : (2 ^ n - 1).testBit j = decide (j < n) := Nat.testBit_two_pow_sub_one ..

@[simp] theorem leadVec_getLsbD (n : Nat) (v : Vec) (j : Nat) :
    (leadVec n v).getLsbD j = (decide (j < n) && v.getLsbD j) := by
  simp only [leadVec, BitVec.getLsbD_and, BitVec.getLsbD_ofNat, testBit_lowOnes]
  by_cases hj : j < 256
  · simp [hj, Bool.and_comm]
  · simp [hj, BitVec.getLsbD_of_ge v j (by omega)]

theorem parityBelow_eq_xorBelow (v : Vec) (k : Nat) : parityBelow v k = xorBelow (fun j => v.getLsbD j) k := by
  induction k with
  | zero => rfl
  | succ k ih => simp [parityBelow, xorBelow, ih]

theorem xorBelow_congr {f g : Nat → Bool} {k : Nat} (h : ∀ j, j < k → f j = g j) : xorBelow f k = xorBelow g k := by
  induction k with
  | zero => rfl
  | succ k ih => simp [xorBelow, ih fun j hj => h j (by omega), h k (by omega)]

@[simp] theorem xorBelow_false (k : Nat) : xorBelow (fun _ => false) k = false := by
  induction k with
  | zero => rfl
  | succ k ih => simp [xorBelow, ih]

theorem xorBelow_xor (f g : Nat → Bool) (k : Nat) :
    xorBelow (fun j => f j ^^ g j) k = (xorBelow f k ^^ xorBelow g k) := by
  induction k with
  | zero => rfl
  | succ k ih =>
    simp only [xorBelow, ih]
    cases xorBelow f k <;> cases xorBelow g k <;> cases f k <;> cases g k <;> rfl

theorem xorBelow_and (b : Bool) (f : Nat → Bool) (k : Nat) :
    xorBelow (fun j => b && f j) k = (b && xorBelow f k) := by
  cases b <;> simp

/-- Terms from `n` up that are all 0 may be left out. -/
theorem xorBelow_cut (f : Nat → Bool) {n k : Nat} (hn : n ≤ k) (h : ∀ j, n ≤ j → j < k → f j = false) :
    xorBelow f k = xorBelow f n := by
  induction k with
  | zero => rw [Nat.le_zero.mp hn]
  | succ k ih =>
    by_cases hk : n = k + 1
    · rw [hk]
    · rw [xorBelow, h k (by omega) (by omega), ih (by omega) fun j hj hjk => h j hj (by omega)]
      simp

/-- Two XOR sums may be exchanged. -/
theorem xorBelow_comm (f : Nat → Nat → Bool) (a b : Nat) :
    xorBelow (fun i => xorBelow (fun j => f i j) b) a = xorBelow (fun j => xorBelow (fun i => f i j) a) b := by
  induction a with
  | zero => simp [xorBelow]
  | succ a ih => simp [xorBelow, ih, xorBelow_xor]

/-- A sum whose one possibly non-zero term is term `i`. -/
theorem xorBelow_single (f : Nat → Bool) {i k : Nat} (hi : i < k) (h : ∀ j, j < k → j ≠ i → f j = false) :
    xorBelow f k = f i := by
  induction k with
  | zero => omega
  | succ k ih =>
    by_cases hk : i = k
    · subst hk
      rw [xorBelow, xorBelow_congr (g := fun _ => false) fun j hj => h j (by omega) (by omega)]
      simp
    · rw [xorBelow, ih (by omega) fun j hj hji => h j (by omega) hji, h k (by omega) fun e => hk e.symm]
      simp

/-! Matrices. -/

@[simp] theorem row_matOfRows (f : Nat → Vec) (i : Nat) : row (matOfRows f) i = if i < 256 then f i else 0 := by
  unfold row matOfRows tabulate256
  split <;> simp

theorem mat_ext {x y : BitMatrix} (h : ∀ i, i < 256 → row x i = row y i) : x = y := by
  apply Vector.ext
  intro i hi
  simpa [row, hi] using h i hi

theorem mat_ext_entries {x y : BitMatrix} (h : ∀ i j, i < 256 → j < 256 → entry x i j = entry y i j) : x = y :=
  mat_ext fun i hi => vec_ext fun j hj => h i j hi hj

theorem entry_high (x : BitMatrix) {i : Nat} (j : Nat) (hi : 256 ≤ i) : entry x i j = false := by
  simp [entry, row, Nat.not_lt.mpr hi]

@[simp] theorem entry_matOfRows (f : Nat → Vec) (i j : Nat) :
    entry (matOfRows f) i j = (decide (i < 256) && (f i).getLsbD j) := by
  simp only [entry, row_matOfRows]
  split <;> simp_all

theorem dimSize_le (n : Dim) : dimSize n ≤ 256 := by cases n <;> decide

@[simp] theorem entry_leadMat (n : Nat) (x : BitMatrix) (i j : Nat) (hn : n ≤ 256) :
    entry (leadMat n x) i j = (decide (i < n ∧ j < n) && entry x i j) := by
  simp only [leadMat, entry_matOfRows]
  by_cases hi : i < n
  · simp [hi, entry, show i < 256 by omega]
  · simp [hi]

@[simp] theorem entry_identity (n i j : Nat) (hn : n ≤ 256) :
    entry (identity n) i j = decide (i = j ∧ i < n) := by
  simp only [identity, entry_matOfRows]
  by_cases hi : i < n
  · by_cases hij : i = j
    · subst hij; simp [hi, BitVec.getLsbD_twoPow]; omega
    · simp [hi, hij, BitVec.getLsbD_twoPow]
  · simp [hi]

theorem rowComb_getLsbD (x : Vec) (y : BitMatrix) (k j : Nat) :
    (rowComb x y k).getLsbD j = xorBelow (fun i => x.getLsbD i && entry y i j) k := by
  induction k with
  | zero => simp [rowComb, xorBelow]
  | succ k ih =>
    simp only [rowComb, BitVec.getLsbD_xor, ih, xorBelow]
    cases h : x.getLsbD k <;> simp [entry]

@[simp] theorem entry_matMul (n : Nat) (x y : BitMatrix) (i j : Nat) (hn : n ≤ 256) :
    entry (matMul n x y) i j = (decide (i < n) && productEntry n x y i j) := by
  simp only [matMul, entry_matOfRows]
  by_cases hi : i < n
  · simp [hi, rowComb_getLsbD, productEntry, entry, show i < 256 by omega]
  · simp [hi]

theorem parity_and_row (x : BitMatrix) (v : Vec) (i : Nat) : parity (row x i &&& v) = applyBit 256 x v i := by
  simp [parity, parityBelow_eq_xorBelow, applyBit, entry]

@[simp] theorem matVec_getLsbD (n : Nat) (x : BitMatrix) (v : Vec) (i : Nat) (hn : n ≤ 256) :
    (matVec n x v).getLsbD i = (decide (i < n) && applyBit 256 x v i) := by
  rw [matVec, vecOfBits_getLsbD _ _ _ hn, parity_and_row]

@[simp] theorem affineApply_getLsbD (n : Nat) (l : BitMatrix) (c x : Vec) (i : Nat) (hn : n ≤ 256) :
    (affineApply n l c x).getLsbD i = ((decide (i < n) && applyBit 256 l x i) ^^ c.getLsbD i) := by
  simp [affineApply, hn]

@[simp] theorem AffineMap.apply_getLsbD (f : AffineMap) (x : Vec) (i : Nat) :
    (f.apply x).getLsbD i = (decide (i < 256) && (applyBit 256 f.linear x i ^^ f.bias.getLsbD i)) := by
  rw [AffineMap.apply, vecOfBits_getLsbD _ _ _ (le_refl _)]

/-- A product of the leading views is a product of the whole matrices' leading parts. -/
theorem productEntry_lead (n : Nat) (x y : BitMatrix) {i j : Nat} (hn : n ≤ 256) (hi : i < n) (hj : j < n) :
    productEntry n (leadMat n x) (leadMat n y) i j = productEntry n x y i j := by
  apply xorBelow_congr
  intro k hk
  simp [hn, hi, hj, hk]

/-- An application of the leading view to the leading view reads bits below `n` only. -/
theorem applyBit_lead (n : Nat) (x : BitMatrix) (v : Vec) {i : Nat} (hn : n ≤ 256) (hi : i < n) :
    applyBit 256 (leadMat n x) (leadVec n v) i = applyBit n x v i := by
  rw [applyBit, xorBelow_cut _ hn]
  · apply xorBelow_congr
    intro k hk
    simp [hn, hi, hk]
  · intro j hj _
    simp [hn, Nat.not_lt.mpr hj]

theorem leadEqual_iff (n : Nat) (x y : BitMatrix) :
    leadEqual n x y = true ↔ ∀ i j, i < n → j < n → entry x i j = entry y i j := by
  simp only [leadEqual, List.all_eq_true, List.mem_range, beq_iff_eq]
  constructor
  · intro h i j hi hj
    have := congrArg (fun v : Vec => v.getLsbD j) (h i hi)
    simpa [hj, entry] using this
  · intro h i hi
    apply vec_ext
    intro j _
    by_cases hj : j < n
    · simpa [hj, entry] using h i j hi hj
    · simp [hj]

/-! Bytes and words. -/

@[simp] theorem byteOf_getLsbD (v : Vec) (k j : Nat) : (byteOf v k).getLsbD j = (decide (j < 8) && v.getLsbD (8 * k + j)) := by
  simp [byteOf]

@[simp] theorem wordOf_getLsbD (v : Vec) (w j : Nat) :
    (wordOf v w).getLsbD j = (decide (j < 32) && v.getLsbD (32 * w + j)) := by
  simp [wordOf]

@[simp] theorem setWord_getLsbD (v : Vec) (w : Nat) (d : Word32) (j : Nat) :
    (setWord v w d).getLsbD j = (decide (j < 256) && if j / 32 = w then d.getLsbD (j % 32) else v.getLsbD j) := by
  rw [setWord, vecOfBits_getLsbD _ _ _ (le_refl _)]

theorem wordOf_setWord (v : Vec) (w : Nat) (d : Word32) (hw : w < 8) : wordOf (setWord v w d) w = d := by
  apply BitVec.eq_of_getLsbD_eq
  intro j hj
  have h1 : (32 * w + j) / 32 = w := by omega
  have h2 : (32 * w + j) % 32 = j := by omega
  rw [wordOf_getLsbD, setWord_getLsbD, if_pos h1, h2]
  simp [hj, show 32 * w + j < 256 by omega]

theorem oneHotByte_getLsbD (i : Nat) (b : Byte) (j : Nat) :
    (oneHotByte i b).getLsbD j = (decide (j < 256) && decide (8 * i ≤ j) && b.getLsbD (j - 8 * i)) := by
  simp only [oneHotByte, BitVec.getLsbD_shiftLeft, BitVec.getLsbD_setWidth]
  by_cases h1 : j < 256
  · by_cases h2 : 8 * i ≤ j
    · simp [h1, h2, Nat.not_lt.mpr h2, show j - 8 * i < 256 by omega]
    · simp [h1, h2, Nat.lt_of_not_le h2]
  · simp [h1]

theorem packBlocks_getLsbD (x y : BitVec 128) (j : Nat) :
    (packBlocks x y).getLsbD j = if j < 128 then x.getLsbD j else y.getLsbD (j - 128) := by
  rw [packBlocks, BitVec.getLsbD_append]

theorem xorVecs_getLsbD (f : Nat → Vec) (k j : Nat) :
    (xorVecs f k).getLsbD j = xorBelow (fun i => (f i).getLsbD j) k := by
  induction k with
  | zero => simp [xorVecs, xorBelow]
  | succ k ih => simp [xorVecs, xorBelow, ih]

end Sys2Proof.Machine
end

