-- ==== Sys2Proof/Laws/Memory.lean ====
section
/-! SUPPORT. The instance store: reading after writing, the canonical form, and what a read of several bytes gives
(20_memory.md R37, R45; 70_reset_and_hazards.md R113). -/

namespace Sys2Proof.Machine

theorem memRead_memWrite_same (a : Nat) (b : Byte) (mem : Memory) : memRead (memWrite a b mem) a = some b := by
  induction mem with
  | nil => simp [memWrite, memRead]
  | cons c rest ih =>
    obtain ⟨x, c⟩ := c
    simp only [memWrite]
    split
    · simp [memRead]
    · split
      · simp [memRead]
      · simp [memRead, ih, show ¬ x = a by omega]

theorem memRead_memWrite_other (a a' : Nat) (b : Byte) (mem : Memory) (h : a' ≠ a) :
    memRead (memWrite a b mem) a' = memRead mem a' := by
  induction mem with
  | nil => simp [memWrite, memRead, h.symm]
  | cons c rest ih =>
    obtain ⟨x, c⟩ := c
    simp only [memWrite]
    split
    · simp [memRead, h.symm]
    · split
      · next hx => subst hx; simp [memRead, h.symm]
      · simp [memRead, ih]

theorem memRead_memWrite (a a' : Nat) (b : Byte) (mem : Memory) :
    memRead (memWrite a b mem) a' = if a' = a then some b else memRead mem a' := by
  split
  · next h => rw [h, memRead_memWrite_same]
  · next h => exact memRead_memWrite_other a a' b mem h

theorem mem_memWrite {a : Nat} {b : Byte} {mem : Memory} {c : Host.Cell} (h : c ∈ memWrite a b mem) :
    c = (a, b) ∨ c ∈ mem := by
  induction mem with
  | nil => simpa [memWrite] using h
  | cons d rest ih =>
    obtain ⟨x, d⟩ := d
    simp only [memWrite] at h
    split at h
    · simpa using h
    · split at h
      · simp only [List.mem_cons] at h ⊢
        tauto
      · simp only [List.mem_cons] at h ⊢
        obtain h | h := h
        · exact .inr (.inl h)
        · obtain h | h := ih h
          · exact .inl h
          · exact .inr (.inr h)

theorem memWrite_wf (a : Nat) (b : Byte) (mem : Memory) (h : Memory.wf mem) : Memory.wf (memWrite a b mem) := by
  induction mem with
  | nil => simp [Memory.wf, memWrite]
  | cons c rest ih =>
    obtain ⟨x, c⟩ := c
    simp only [Memory.wf, List.map_cons, List.pairwise_cons, List.mem_map] at h
    obtain ⟨hx, hrest⟩ := h
    simp only [memWrite]
    split
    · next hlt =>
      simp only [Memory.wf, List.map_cons, List.pairwise_cons, List.mem_cons, List.mem_map]
      refine ⟨?_, ⟨fun y hy => hx y hy, hrest⟩⟩
      rintro y (rfl | ⟨d, hd, rfl⟩)
      · exact hlt
      · exact lt_trans hlt (hx _ ⟨d, hd, rfl⟩)
    · split
      · next heq =>
        subst heq
        simp only [Memory.wf, List.map_cons, List.pairwise_cons, List.mem_map]
        exact ⟨fun y hy => hx y hy, hrest⟩
      · next hge hne =>
        simp only [Memory.wf, List.map_cons, List.pairwise_cons, List.mem_map]
        refine ⟨?_, ih hrest⟩
        rintro y ⟨d, hd, rfl⟩
        obtain rfl | hd := mem_memWrite hd
        · simp only; omega
        · exact hx _ ⟨d, hd, rfl⟩

theorem memWrite_inStore (a : Nat) (b : Byte) (mem : Memory) (ha : isStore a = true) (h : Memory.inStore mem) :
    Memory.inStore (memWrite a b mem) := by
  intro c hc
  obtain rfl | hc := mem_memWrite hc
  · exact ha
  · exact h c hc

theorem memWriteWord_wf (a : Nat) (d : Word32) (mem : Memory) (h : Memory.wf mem) :
    Memory.wf (memWriteWord a d mem) := by
  unfold memWriteWord
  exact memWrite_wf _ _ _ (memWrite_wf _ _ _ (memWrite_wf _ _ _ (memWrite_wf _ _ _ h)))

/-- The addresses of the instance store (20_memory.md R38). -/
theorem isStore_iff (a : Nat) :
    isStore a = true ↔ (0x10000 ≤ a ∧ a < 0x12020) ∨ (0x14000 ≤ a ∧ a < 0x16020) ∨ (0x40000000 ≤ a ∧ a < 0x68000000) := by
  unfold isStore
  simp only [Bool.or_eq_true, decide_eq_true_eq]
  simp only [Config.finL, Config.finC, Config.foutL, Config.foutC, Config.tblBase, Config.tblSize]
  omega

/-- A word of the instance store lies in it whole. -/
theorem isStore_word {a k : Nat} (ha : isStore a = true) (h4 : a % 4 = 0) (hk : k < 4) : isStore (a + k) = true := by
  rw [isStore_iff] at ha ⊢
  omega

theorem memWriteWord_inStore (a : Nat) (d : Word32) (mem : Memory) (ha : isStore a = true) (h4 : a % 4 = 0)
    (h : Memory.inStore mem) : Memory.inStore (memWriteWord a d mem) := by
  unfold memWriteWord
  exact memWrite_inStore _ _ _ (isStore_word ha h4 (by omega)) <|
    memWrite_inStore _ _ _ (isStore_word ha h4 (by omega)) <|
    memWrite_inStore _ _ _ (isStore_word ha h4 (by omega)) <| memWrite_inStore _ _ _ ha h

/-- What a word write leaves at every address. -/
theorem memRead_memWriteWord (a a' : Nat) (d : Word32) (mem : Memory) :
    memRead (memWriteWord a d mem) a' =
      if a ≤ a' ∧ a' < a + 4 then some (d.extractLsb' (8 * (a' - a)) 8) else memRead mem a' := by
  unfold memWriteWord
  simp only [memRead_memWrite]
  by_cases h : a ≤ a' ∧ a' < a + 4
  · rw [if_pos h]
    have : a' = a ∨ a' = a + 1 ∨ a' = a + 2 ∨ a' = a + 3 := by omega
    obtain rfl | rfl | rfl | rfl := this
    · simp
    · simp
    · simp
    · simp
  · rw [if_neg h, if_neg (by omega), if_neg (by omega), if_neg (by omega), if_neg (by omega)]

/-! Reading several bytes. -/

theorem memByte_of_written {mem : Memory} {a : Nat} (h : written mem a) : memByte mem a = .ok (storeByte mem a) := by
  unfold written at h
  obtain ⟨b, hb⟩ := Option.isSome_iff_exists.mp h
  simp [memByte, storeByte, hb]

/-- If every byte was written, the read gives the value made of them. -/
theorem memBytes_of_written (mem : Memory) (a k : Nat) (hk : k ≤ 32) (h : ∀ j, j < k → written mem (a + j)) :
    ∃ v, memBytes mem a k = .ok v ∧
      ∀ i, v.getLsbD i = (decide (i < 8 * k) && (storeByte mem (a + i / 8)).getLsbD (i % 8)) := by
  induction k with
  | zero => exact ⟨0, rfl, by simp⟩
  | succ k ih =>
    obtain ⟨v, hv, hbits⟩ := ih (by omega) fun j hj => h j (by omega)
    refine ⟨v ||| oneHotByte k (storeByte mem (a + k)), ?_, ?_⟩
    · simp [memBytes, hv, memByte_of_written (h k (by omega))]
    · intro i
      rw [BitVec.getLsbD_or, hbits, oneHotByte_getLsbD]
      by_cases h1 : i < 8 * k
      · simp [h1, show ¬ 8 * k ≤ i by omega, show i < 8 * (k + 1) by omega]
      · by_cases h2 : i < 8 * (k + 1)
        · have e1 : i / 8 = k := by omega
          have e2 : i % 8 = i - 8 * k := by omega
          simp [h2, e1, e2, show i < 256 by omega, show 8 * k ≤ i by omega]
        · simp [h1, h2, BitVec.getLsbD_of_ge (storeByte mem (a + k)) (i - 8 * k) (by omega)]

/-- A read that gives a value read written bytes only (70_reset_and_hazards.md R113). -/
theorem written_of_memBytes {mem : Memory} {a k : Nat} {v : Vec} (h : memBytes mem a k = .ok v) :
    ∀ j, j < k → written mem (a + j) := by
  induction k generalizing v with
  | zero => intro j hj; omega
  | succ k ih =>
    simp only [memBytes] at h
    split at h
    · cases h
    · next w hw =>
      split at h
      · cases h
      · next b hb =>
        intro j hj
        by_cases hjk : j = k
        · subst hjk
          unfold memByte at hb
          split at hb
          · next c hc => rw [written, hc]; rfl
          · cases hb
        · exact ih hw j (by omega)

/-- `MemRead(a, 32)` of written bytes is the value whose byte `k` is the byte at `a + k` (20_memory.md R45). -/
theorem memVec_of_written {mem : Memory} {a : Nat} (h : ∀ j, j < 32 → written mem (a + j)) :
    memVec mem a = .ok (storeVec mem a) := by
  obtain ⟨v, hv, hbits⟩ := memBytes_of_written mem a 32 (le_refl _) h
  rw [memVec, hv]
  congr 1
  apply vec_ext
  intro i hi
  rw [hbits, storeVec, vecOfBits_getLsbD _ _ _ (le_refl _)]

/-- A read that faults names a byte it reads that was not written (70_reset_and_hazards.md R113). -/
theorem memBytes_error {mem : Memory} {a k : Nat} {f : Fault} (h : memBytes mem a k = .error f) :
    ∃ j, j < k ∧ f = .unwrittenStore (a + j) ∧ memRead mem (a + j) = none := by
  induction k with
  | zero => simp [memBytes] at h
  | succ k ih =>
    simp only [memBytes] at h
    split at h
    · next g hg =>
      cases h
      obtain ⟨j, hj, hf⟩ := ih hg
      exact ⟨j, by omega, hf⟩
    · split at h
      · next g hg =>
        cases h
        unfold memByte at hg
        split at hg
        · cases hg
        · next hn => cases hg; exact ⟨k, by omega, rfl, hn⟩
      · cases h

end Sys2Proof.Machine
end

