-- ==== Sys2Proof/Laws/State.lean ====
section
/-! SUPPORT. One lemma for each field of State and each named update: what the update leaves in the field. True by rfl, so no
later proof unfolds a record update. -/

namespace Sys2Proof.Machine

/-! complete -/

@[simp] theorem complete_v (s : State) : (complete s).v = s.v := rfl
@[simp] theorem complete_m (s : State) : (complete s).m = s.m := rfl
@[simp] theorem complete_buf (s : State) : (complete s).buf = s.buf := rfl
@[simp] theorem complete_inp (s : State) : (complete s).inp = s.inp := rfl
@[simp] theorem complete_acc (s : State) : (complete s).acc = s.acc := rfl
@[simp] theorem complete_irqEn (s : State) : (complete s).irqEn = s.irqEn := rfl
@[simp] theorem complete_busy (s : State) : (complete s).busy = false := rfl
@[simp] theorem complete_done (s : State) : (complete s).done = true := rfl
@[simp] theorem complete_err (s : State) : (complete s).err = s.err := rfl
@[simp] theorem complete_ovr (s : State) : (complete s).ovr = s.ovr := rfl
@[simp] theorem complete_eqFlag (s : State) : (complete s).eqFlag = s.eqFlag := rfl
@[simp] theorem complete_errcode (s : State) : (complete s).errcode = s.errcode := rfl
@[simp] theorem complete_errinfo (s : State) : (complete s).errinfo = s.errinfo := rfl
@[simp] theorem complete_outPresent (s : State) : (complete s).outPresent = s.outPresent := rfl
@[simp] theorem complete_version (s : State) : (complete s).version = s.version := rfl
@[simp] theorem complete_scheme (s : State) : (complete s).scheme = s.scheme := rfl
@[simp] theorem complete_pend (s : State) : (complete s).pend = s.pend := rfl
@[simp] theorem complete_store (s : State) : (complete s).store = s.store := rfl
@[simp] theorem complete_marks (s : State) : (complete s).marks = s.marks := rfl
@[simp] theorem complete_unwrittenRead (s : State) : (complete s).unwrittenRead = s.unwrittenRead := rfl
@[simp] theorem complete_draws (s : State) : (complete s).draws = s.draws := rfl
@[simp] theorem complete_inputs (s : State) : (complete s).inputs = s.inputs := rfl
@[simp] theorem complete_response (s : State) : (complete s).response = s.response := rfl

/-! accept -/

@[simp] theorem accept_v (w : Word32) (s : State) : (accept w s).v = s.v := rfl
@[simp] theorem accept_m (w : Word32) (s : State) : (accept w s).m = s.m := rfl
@[simp] theorem accept_buf (w : Word32) (s : State) : (accept w s).buf = s.buf := rfl
@[simp] theorem accept_inp (w : Word32) (s : State) : (accept w s).inp = s.inp := rfl
@[simp] theorem accept_acc (w : Word32) (s : State) : (accept w s).acc = s.acc := rfl
@[simp] theorem accept_irqEn (w : Word32) (s : State) : (accept w s).irqEn = s.irqEn := rfl
@[simp] theorem accept_busy (w : Word32) (s : State) : (accept w s).busy = true := rfl
@[simp] theorem accept_done (w : Word32) (s : State) : (accept w s).done = s.done := rfl
@[simp] theorem accept_err (w : Word32) (s : State) : (accept w s).err = s.err := rfl
@[simp] theorem accept_ovr (w : Word32) (s : State) : (accept w s).ovr = s.ovr := rfl
@[simp] theorem accept_eqFlag (w : Word32) (s : State) : (accept w s).eqFlag = s.eqFlag := rfl
@[simp] theorem accept_errcode (w : Word32) (s : State) : (accept w s).errcode = s.errcode := rfl
@[simp] theorem accept_errinfo (w : Word32) (s : State) : (accept w s).errinfo = s.errinfo := rfl
@[simp] theorem accept_outPresent (w : Word32) (s : State) : (accept w s).outPresent = s.outPresent := rfl
@[simp] theorem accept_version (w : Word32) (s : State) : (accept w s).version = s.version := rfl
@[simp] theorem accept_scheme (w : Word32) (s : State) : (accept w s).scheme = s.scheme := rfl
@[simp] theorem accept_pend (w : Word32) (s : State) : (accept w s).pend = w := rfl
@[simp] theorem accept_store (w : Word32) (s : State) : (accept w s).store = s.store := rfl
@[simp] theorem accept_marks (w : Word32) (s : State) : (accept w s).marks = s.marks := rfl
@[simp] theorem accept_unwrittenRead (w : Word32) (s : State) : (accept w s).unwrittenRead = s.unwrittenRead := rfl
@[simp] theorem accept_draws (w : Word32) (s : State) : (accept w s).draws = s.draws := rfl
@[simp] theorem accept_inputs (w : Word32) (s : State) : (accept w s).inputs = s.inputs := rfl
@[simp] theorem accept_response (w : Word32) (s : State) : (accept w s).response = s.response := rfl

/-! overrun -/

@[simp] theorem overrun_v (s : State) : (overrun s).v = s.v := rfl
@[simp] theorem overrun_m (s : State) : (overrun s).m = s.m := rfl
@[simp] theorem overrun_buf (s : State) : (overrun s).buf = s.buf := rfl
@[simp] theorem overrun_inp (s : State) : (overrun s).inp = s.inp := rfl
@[simp] theorem overrun_acc (s : State) : (overrun s).acc = s.acc := rfl
@[simp] theorem overrun_irqEn (s : State) : (overrun s).irqEn = s.irqEn := rfl
@[simp] theorem overrun_busy (s : State) : (overrun s).busy = s.busy := rfl
@[simp] theorem overrun_done (s : State) : (overrun s).done = s.done := rfl
@[simp] theorem overrun_err (s : State) : (overrun s).err = s.err := rfl
@[simp] theorem overrun_ovr (s : State) : (overrun s).ovr = true := rfl
@[simp] theorem overrun_eqFlag (s : State) : (overrun s).eqFlag = s.eqFlag := rfl
@[simp] theorem overrun_errcode (s : State) : (overrun s).errcode = s.errcode := rfl
@[simp] theorem overrun_errinfo (s : State) : (overrun s).errinfo = s.errinfo := rfl
@[simp] theorem overrun_outPresent (s : State) : (overrun s).outPresent = s.outPresent := rfl
@[simp] theorem overrun_version (s : State) : (overrun s).version = s.version := rfl
@[simp] theorem overrun_scheme (s : State) : (overrun s).scheme = s.scheme := rfl
@[simp] theorem overrun_pend (s : State) : (overrun s).pend = s.pend := rfl
@[simp] theorem overrun_store (s : State) : (overrun s).store = s.store := rfl
@[simp] theorem overrun_marks (s : State) : (overrun s).marks = s.marks := rfl
@[simp] theorem overrun_unwrittenRead (s : State) : (overrun s).unwrittenRead = s.unwrittenRead := rfl
@[simp] theorem overrun_draws (s : State) : (overrun s).draws = s.draws := rfl
@[simp] theorem overrun_inputs (s : State) : (overrun s).inputs = s.inputs := rfl
@[simp] theorem overrun_response (s : State) : (overrun s).response = s.response := rfl

/-! clearError -/

@[simp] theorem clearError_v (s : State) : (clearError s).v = s.v := rfl
@[simp] theorem clearError_m (s : State) : (clearError s).m = s.m := rfl
@[simp] theorem clearError_buf (s : State) : (clearError s).buf = s.buf := rfl
@[simp] theorem clearError_inp (s : State) : (clearError s).inp = s.inp := rfl
@[simp] theorem clearError_acc (s : State) : (clearError s).acc = s.acc := rfl
@[simp] theorem clearError_irqEn (s : State) : (clearError s).irqEn = s.irqEn := rfl
@[simp] theorem clearError_busy (s : State) : (clearError s).busy = s.busy := rfl
@[simp] theorem clearError_done (s : State) : (clearError s).done = s.done := rfl
@[simp] theorem clearError_err (s : State) : (clearError s).err = false := rfl
@[simp] theorem clearError_ovr (s : State) : (clearError s).ovr = s.ovr := rfl
@[simp] theorem clearError_eqFlag (s : State) : (clearError s).eqFlag = s.eqFlag := rfl
@[simp] theorem clearError_errcode (s : State) : (clearError s).errcode = 0 := rfl
@[simp] theorem clearError_errinfo (s : State) : (clearError s).errinfo = 0 := rfl
@[simp] theorem clearError_outPresent (s : State) : (clearError s).outPresent = s.outPresent := rfl
@[simp] theorem clearError_version (s : State) : (clearError s).version = s.version := rfl
@[simp] theorem clearError_scheme (s : State) : (clearError s).scheme = s.scheme := rfl
@[simp] theorem clearError_pend (s : State) : (clearError s).pend = s.pend := rfl
@[simp] theorem clearError_store (s : State) : (clearError s).store = s.store := rfl
@[simp] theorem clearError_marks (s : State) : (clearError s).marks = s.marks := rfl
@[simp] theorem clearError_unwrittenRead (s : State) : (clearError s).unwrittenRead = s.unwrittenRead := rfl
@[simp] theorem clearError_draws (s : State) : (clearError s).draws = s.draws := rfl
@[simp] theorem clearError_inputs (s : State) : (clearError s).inputs = s.inputs := rfl
@[simp] theorem clearError_response (s : State) : (clearError s).response = s.response := rfl

/-! clearDone -/

@[simp] theorem clearDone_v (s : State) : (clearDone s).v = s.v := rfl
@[simp] theorem clearDone_m (s : State) : (clearDone s).m = s.m := rfl
@[simp] theorem clearDone_buf (s : State) : (clearDone s).buf = s.buf := rfl
@[simp] theorem clearDone_inp (s : State) : (clearDone s).inp = s.inp := rfl
@[simp] theorem clearDone_acc (s : State) : (clearDone s).acc = s.acc := rfl
@[simp] theorem clearDone_irqEn (s : State) : (clearDone s).irqEn = s.irqEn := rfl
@[simp] theorem clearDone_busy (s : State) : (clearDone s).busy = s.busy := rfl
@[simp] theorem clearDone_done (s : State) : (clearDone s).done = false := rfl
@[simp] theorem clearDone_err (s : State) : (clearDone s).err = s.err := rfl
@[simp] theorem clearDone_ovr (s : State) : (clearDone s).ovr = s.ovr := rfl
@[simp] theorem clearDone_eqFlag (s : State) : (clearDone s).eqFlag = s.eqFlag := rfl
@[simp] theorem clearDone_errcode (s : State) : (clearDone s).errcode = s.errcode := rfl
@[simp] theorem clearDone_errinfo (s : State) : (clearDone s).errinfo = s.errinfo := rfl
@[simp] theorem clearDone_outPresent (s : State) : (clearDone s).outPresent = s.outPresent := rfl
@[simp] theorem clearDone_version (s : State) : (clearDone s).version = s.version := rfl
@[simp] theorem clearDone_scheme (s : State) : (clearDone s).scheme = s.scheme := rfl
@[simp] theorem clearDone_pend (s : State) : (clearDone s).pend = s.pend := rfl
@[simp] theorem clearDone_store (s : State) : (clearDone s).store = s.store := rfl
@[simp] theorem clearDone_marks (s : State) : (clearDone s).marks = s.marks := rfl
@[simp] theorem clearDone_unwrittenRead (s : State) : (clearDone s).unwrittenRead = s.unwrittenRead := rfl
@[simp] theorem clearDone_draws (s : State) : (clearDone s).draws = s.draws := rfl
@[simp] theorem clearDone_inputs (s : State) : (clearDone s).inputs = s.inputs := rfl
@[simp] theorem clearDone_response (s : State) : (clearDone s).response = s.response := rfl

/-! clearOvr -/

@[simp] theorem clearOvr_v (s : State) : (clearOvr s).v = s.v := rfl
@[simp] theorem clearOvr_m (s : State) : (clearOvr s).m = s.m := rfl
@[simp] theorem clearOvr_buf (s : State) : (clearOvr s).buf = s.buf := rfl
@[simp] theorem clearOvr_inp (s : State) : (clearOvr s).inp = s.inp := rfl
@[simp] theorem clearOvr_acc (s : State) : (clearOvr s).acc = s.acc := rfl
@[simp] theorem clearOvr_irqEn (s : State) : (clearOvr s).irqEn = s.irqEn := rfl
@[simp] theorem clearOvr_busy (s : State) : (clearOvr s).busy = s.busy := rfl
@[simp] theorem clearOvr_done (s : State) : (clearOvr s).done = s.done := rfl
@[simp] theorem clearOvr_err (s : State) : (clearOvr s).err = s.err := rfl
@[simp] theorem clearOvr_ovr (s : State) : (clearOvr s).ovr = false := rfl
@[simp] theorem clearOvr_eqFlag (s : State) : (clearOvr s).eqFlag = s.eqFlag := rfl
@[simp] theorem clearOvr_errcode (s : State) : (clearOvr s).errcode = s.errcode := rfl
@[simp] theorem clearOvr_errinfo (s : State) : (clearOvr s).errinfo = s.errinfo := rfl
@[simp] theorem clearOvr_outPresent (s : State) : (clearOvr s).outPresent = s.outPresent := rfl
@[simp] theorem clearOvr_version (s : State) : (clearOvr s).version = s.version := rfl
@[simp] theorem clearOvr_scheme (s : State) : (clearOvr s).scheme = s.scheme := rfl
@[simp] theorem clearOvr_pend (s : State) : (clearOvr s).pend = s.pend := rfl
@[simp] theorem clearOvr_store (s : State) : (clearOvr s).store = s.store := rfl
@[simp] theorem clearOvr_marks (s : State) : (clearOvr s).marks = s.marks := rfl
@[simp] theorem clearOvr_unwrittenRead (s : State) : (clearOvr s).unwrittenRead = s.unwrittenRead := rfl
@[simp] theorem clearOvr_draws (s : State) : (clearOvr s).draws = s.draws := rfl
@[simp] theorem clearOvr_inputs (s : State) : (clearOvr s).inputs = s.inputs := rfl
@[simp] theorem clearOvr_response (s : State) : (clearOvr s).response = s.response := rfl

/-! writeCtrl -/

@[simp] theorem writeCtrl_v (d : Word32) (s : State) : (writeCtrl d s).v = s.v := rfl
@[simp] theorem writeCtrl_m (d : Word32) (s : State) : (writeCtrl d s).m = s.m := rfl
@[simp] theorem writeCtrl_buf (d : Word32) (s : State) : (writeCtrl d s).buf = s.buf := rfl
@[simp] theorem writeCtrl_inp (d : Word32) (s : State) : (writeCtrl d s).inp = s.inp := rfl
@[simp] theorem writeCtrl_acc (d : Word32) (s : State) : (writeCtrl d s).acc = s.acc := rfl
@[simp] theorem writeCtrl_irqEn (d : Word32) (s : State) : (writeCtrl d s).irqEn = d.getLsbD 0 := rfl
@[simp] theorem writeCtrl_busy (d : Word32) (s : State) : (writeCtrl d s).busy = s.busy := rfl
@[simp] theorem writeCtrl_done (d : Word32) (s : State) : (writeCtrl d s).done = s.done := rfl
@[simp] theorem writeCtrl_err (d : Word32) (s : State) : (writeCtrl d s).err = s.err := rfl
@[simp] theorem writeCtrl_ovr (d : Word32) (s : State) : (writeCtrl d s).ovr = s.ovr := rfl
@[simp] theorem writeCtrl_eqFlag (d : Word32) (s : State) : (writeCtrl d s).eqFlag = s.eqFlag := rfl
@[simp] theorem writeCtrl_errcode (d : Word32) (s : State) : (writeCtrl d s).errcode = s.errcode := rfl
@[simp] theorem writeCtrl_errinfo (d : Word32) (s : State) : (writeCtrl d s).errinfo = s.errinfo := rfl
@[simp] theorem writeCtrl_outPresent (d : Word32) (s : State) : (writeCtrl d s).outPresent = s.outPresent := rfl
@[simp] theorem writeCtrl_version (d : Word32) (s : State) : (writeCtrl d s).version = s.version := rfl
@[simp] theorem writeCtrl_scheme (d : Word32) (s : State) : (writeCtrl d s).scheme = s.scheme := rfl
@[simp] theorem writeCtrl_pend (d : Word32) (s : State) : (writeCtrl d s).pend = s.pend := rfl
@[simp] theorem writeCtrl_store (d : Word32) (s : State) : (writeCtrl d s).store = s.store := rfl
@[simp] theorem writeCtrl_marks (d : Word32) (s : State) : (writeCtrl d s).marks = s.marks := rfl
@[simp] theorem writeCtrl_unwrittenRead (d : Word32) (s : State) : (writeCtrl d s).unwrittenRead = s.unwrittenRead := rfl
@[simp] theorem writeCtrl_draws (d : Word32) (s : State) : (writeCtrl d s).draws = s.draws := rfl
@[simp] theorem writeCtrl_inputs (d : Word32) (s : State) : (writeCtrl d s).inputs = s.inputs := rfl
@[simp] theorem writeCtrl_response (d : Word32) (s : State) : (writeCtrl d s).response = s.response := rfl

/-! writeInstFlags -/

@[simp] theorem writeInstFlags_v (d : Word32) (s : State) : (writeInstFlags d s).v = s.v := rfl
@[simp] theorem writeInstFlags_m (d : Word32) (s : State) : (writeInstFlags d s).m = s.m := rfl
@[simp] theorem writeInstFlags_buf (d : Word32) (s : State) : (writeInstFlags d s).buf = s.buf := rfl
@[simp] theorem writeInstFlags_inp (d : Word32) (s : State) : (writeInstFlags d s).inp = s.inp := rfl
@[simp] theorem writeInstFlags_acc (d : Word32) (s : State) : (writeInstFlags d s).acc = s.acc := rfl
@[simp] theorem writeInstFlags_irqEn (d : Word32) (s : State) : (writeInstFlags d s).irqEn = s.irqEn := rfl
@[simp] theorem writeInstFlags_busy (d : Word32) (s : State) : (writeInstFlags d s).busy = s.busy := rfl
@[simp] theorem writeInstFlags_done (d : Word32) (s : State) : (writeInstFlags d s).done = s.done := rfl
@[simp] theorem writeInstFlags_err (d : Word32) (s : State) : (writeInstFlags d s).err = s.err := rfl
@[simp] theorem writeInstFlags_ovr (d : Word32) (s : State) : (writeInstFlags d s).ovr = s.ovr := rfl
@[simp] theorem writeInstFlags_eqFlag (d : Word32) (s : State) : (writeInstFlags d s).eqFlag = s.eqFlag := rfl
@[simp] theorem writeInstFlags_errcode (d : Word32) (s : State) : (writeInstFlags d s).errcode = s.errcode := rfl
@[simp] theorem writeInstFlags_errinfo (d : Word32) (s : State) : (writeInstFlags d s).errinfo = s.errinfo := rfl
@[simp] theorem writeInstFlags_outPresent (d : Word32) (s : State) : (writeInstFlags d s).outPresent = d.getLsbD 0 := rfl
@[simp] theorem writeInstFlags_version (d : Word32) (s : State) : (writeInstFlags d s).version = s.version := rfl
@[simp] theorem writeInstFlags_scheme (d : Word32) (s : State) : (writeInstFlags d s).scheme = s.scheme := rfl
@[simp] theorem writeInstFlags_pend (d : Word32) (s : State) : (writeInstFlags d s).pend = s.pend := rfl
@[simp] theorem writeInstFlags_store (d : Word32) (s : State) : (writeInstFlags d s).store = s.store := rfl
@[simp] theorem writeInstFlags_marks (d : Word32) (s : State) : (writeInstFlags d s).marks = s.marks := rfl
@[simp] theorem writeInstFlags_unwrittenRead (d : Word32) (s : State) : (writeInstFlags d s).unwrittenRead = s.unwrittenRead := rfl
@[simp] theorem writeInstFlags_draws (d : Word32) (s : State) : (writeInstFlags d s).draws = s.draws := rfl
@[simp] theorem writeInstFlags_inputs (d : Word32) (s : State) : (writeInstFlags d s).inputs = s.inputs := rfl
@[simp] theorem writeInstFlags_response (d : Word32) (s : State) : (writeInstFlags d s).response = s.response := rfl

/-! writeInstVersion -/

@[simp] theorem writeInstVersion_v (d : Word32) (s : State) : (writeInstVersion d s).v = s.v := rfl
@[simp] theorem writeInstVersion_m (d : Word32) (s : State) : (writeInstVersion d s).m = s.m := rfl
@[simp] theorem writeInstVersion_buf (d : Word32) (s : State) : (writeInstVersion d s).buf = s.buf := rfl
@[simp] theorem writeInstVersion_inp (d : Word32) (s : State) : (writeInstVersion d s).inp = s.inp := rfl
@[simp] theorem writeInstVersion_acc (d : Word32) (s : State) : (writeInstVersion d s).acc = s.acc := rfl
@[simp] theorem writeInstVersion_irqEn (d : Word32) (s : State) : (writeInstVersion d s).irqEn = s.irqEn := rfl
@[simp] theorem writeInstVersion_busy (d : Word32) (s : State) : (writeInstVersion d s).busy = s.busy := rfl
@[simp] theorem writeInstVersion_done (d : Word32) (s : State) : (writeInstVersion d s).done = s.done := rfl
@[simp] theorem writeInstVersion_err (d : Word32) (s : State) : (writeInstVersion d s).err = s.err := rfl
@[simp] theorem writeInstVersion_ovr (d : Word32) (s : State) : (writeInstVersion d s).ovr = s.ovr := rfl
@[simp] theorem writeInstVersion_eqFlag (d : Word32) (s : State) : (writeInstVersion d s).eqFlag = s.eqFlag := rfl
@[simp] theorem writeInstVersion_errcode (d : Word32) (s : State) : (writeInstVersion d s).errcode = s.errcode := rfl
@[simp] theorem writeInstVersion_errinfo (d : Word32) (s : State) : (writeInstVersion d s).errinfo = s.errinfo := rfl
@[simp] theorem writeInstVersion_outPresent (d : Word32) (s : State) : (writeInstVersion d s).outPresent = s.outPresent := rfl
@[simp] theorem writeInstVersion_version (d : Word32) (s : State) : (writeInstVersion d s).version = d.extractLsb' 0 8 := rfl
@[simp] theorem writeInstVersion_scheme (d : Word32) (s : State) : (writeInstVersion d s).scheme = s.scheme := rfl
@[simp] theorem writeInstVersion_pend (d : Word32) (s : State) : (writeInstVersion d s).pend = s.pend := rfl
@[simp] theorem writeInstVersion_store (d : Word32) (s : State) : (writeInstVersion d s).store = s.store := rfl
@[simp] theorem writeInstVersion_marks (d : Word32) (s : State) : (writeInstVersion d s).marks = s.marks := rfl
@[simp] theorem writeInstVersion_unwrittenRead (d : Word32) (s : State) : (writeInstVersion d s).unwrittenRead = s.unwrittenRead := rfl
@[simp] theorem writeInstVersion_draws (d : Word32) (s : State) : (writeInstVersion d s).draws = s.draws := rfl
@[simp] theorem writeInstVersion_inputs (d : Word32) (s : State) : (writeInstVersion d s).inputs = s.inputs := rfl
@[simp] theorem writeInstVersion_response (d : Word32) (s : State) : (writeInstVersion d s).response = s.response := rfl

/-! writeInstScheme -/

@[simp] theorem writeInstScheme_v (d : Word32) (s : State) : (writeInstScheme d s).v = s.v := rfl
@[simp] theorem writeInstScheme_m (d : Word32) (s : State) : (writeInstScheme d s).m = s.m := rfl
@[simp] theorem writeInstScheme_buf (d : Word32) (s : State) : (writeInstScheme d s).buf = s.buf := rfl
@[simp] theorem writeInstScheme_inp (d : Word32) (s : State) : (writeInstScheme d s).inp = s.inp := rfl
@[simp] theorem writeInstScheme_acc (d : Word32) (s : State) : (writeInstScheme d s).acc = s.acc := rfl
@[simp] theorem writeInstScheme_irqEn (d : Word32) (s : State) : (writeInstScheme d s).irqEn = s.irqEn := rfl
@[simp] theorem writeInstScheme_busy (d : Word32) (s : State) : (writeInstScheme d s).busy = s.busy := rfl
@[simp] theorem writeInstScheme_done (d : Word32) (s : State) : (writeInstScheme d s).done = s.done := rfl
@[simp] theorem writeInstScheme_err (d : Word32) (s : State) : (writeInstScheme d s).err = s.err := rfl
@[simp] theorem writeInstScheme_ovr (d : Word32) (s : State) : (writeInstScheme d s).ovr = s.ovr := rfl
@[simp] theorem writeInstScheme_eqFlag (d : Word32) (s : State) : (writeInstScheme d s).eqFlag = s.eqFlag := rfl
@[simp] theorem writeInstScheme_errcode (d : Word32) (s : State) : (writeInstScheme d s).errcode = s.errcode := rfl
@[simp] theorem writeInstScheme_errinfo (d : Word32) (s : State) : (writeInstScheme d s).errinfo = s.errinfo := rfl
@[simp] theorem writeInstScheme_outPresent (d : Word32) (s : State) : (writeInstScheme d s).outPresent = s.outPresent := rfl
@[simp] theorem writeInstScheme_version (d : Word32) (s : State) : (writeInstScheme d s).version = s.version := rfl
@[simp] theorem writeInstScheme_scheme (d : Word32) (s : State) : (writeInstScheme d s).scheme = d := rfl
@[simp] theorem writeInstScheme_pend (d : Word32) (s : State) : (writeInstScheme d s).pend = s.pend := rfl
@[simp] theorem writeInstScheme_store (d : Word32) (s : State) : (writeInstScheme d s).store = s.store := rfl
@[simp] theorem writeInstScheme_marks (d : Word32) (s : State) : (writeInstScheme d s).marks = s.marks := rfl
@[simp] theorem writeInstScheme_unwrittenRead (d : Word32) (s : State) : (writeInstScheme d s).unwrittenRead = s.unwrittenRead := rfl
@[simp] theorem writeInstScheme_draws (d : Word32) (s : State) : (writeInstScheme d s).draws = s.draws := rfl
@[simp] theorem writeInstScheme_inputs (d : Word32) (s : State) : (writeInstScheme d s).inputs = s.inputs := rfl
@[simp] theorem writeInstScheme_response (d : Word32) (s : State) : (writeInstScheme d s).response = s.response := rfl

/-! setEq -/

@[simp] theorem setEq_v (b : Bool) (s : State) : (setEq b s).v = s.v := rfl
@[simp] theorem setEq_m (b : Bool) (s : State) : (setEq b s).m = s.m := rfl
@[simp] theorem setEq_buf (b : Bool) (s : State) : (setEq b s).buf = s.buf := rfl
@[simp] theorem setEq_inp (b : Bool) (s : State) : (setEq b s).inp = s.inp := rfl
@[simp] theorem setEq_acc (b : Bool) (s : State) : (setEq b s).acc = s.acc := rfl
@[simp] theorem setEq_irqEn (b : Bool) (s : State) : (setEq b s).irqEn = s.irqEn := rfl
@[simp] theorem setEq_busy (b : Bool) (s : State) : (setEq b s).busy = s.busy := rfl
@[simp] theorem setEq_done (b : Bool) (s : State) : (setEq b s).done = s.done := rfl
@[simp] theorem setEq_err (b : Bool) (s : State) : (setEq b s).err = s.err := rfl
@[simp] theorem setEq_ovr (b : Bool) (s : State) : (setEq b s).ovr = s.ovr := rfl
@[simp] theorem setEq_eqFlag (b : Bool) (s : State) : (setEq b s).eqFlag = b := rfl
@[simp] theorem setEq_errcode (b : Bool) (s : State) : (setEq b s).errcode = s.errcode := rfl
@[simp] theorem setEq_errinfo (b : Bool) (s : State) : (setEq b s).errinfo = s.errinfo := rfl
@[simp] theorem setEq_outPresent (b : Bool) (s : State) : (setEq b s).outPresent = s.outPresent := rfl
@[simp] theorem setEq_version (b : Bool) (s : State) : (setEq b s).version = s.version := rfl
@[simp] theorem setEq_scheme (b : Bool) (s : State) : (setEq b s).scheme = s.scheme := rfl
@[simp] theorem setEq_pend (b : Bool) (s : State) : (setEq b s).pend = s.pend := rfl
@[simp] theorem setEq_store (b : Bool) (s : State) : (setEq b s).store = s.store := rfl
@[simp] theorem setEq_marks (b : Bool) (s : State) : (setEq b s).marks = s.marks := rfl
@[simp] theorem setEq_unwrittenRead (b : Bool) (s : State) : (setEq b s).unwrittenRead = s.unwrittenRead := rfl
@[simp] theorem setEq_draws (b : Bool) (s : State) : (setEq b s).draws = s.draws := rfl
@[simp] theorem setEq_inputs (b : Bool) (s : State) : (setEq b s).inputs = s.inputs := rfl
@[simp] theorem setEq_response (b : Bool) (s : State) : (setEq b s).response = s.response := rfl

/-! writeV -/

@[simp] theorem writeV_v (k : VReg) (x : Vec) (s : State) : (writeV k x s).v = s.v.set k x := rfl
@[simp] theorem writeV_m (k : VReg) (x : Vec) (s : State) : (writeV k x s).m = s.m := rfl
@[simp] theorem writeV_buf (k : VReg) (x : Vec) (s : State) : (writeV k x s).buf = s.buf := rfl
@[simp] theorem writeV_inp (k : VReg) (x : Vec) (s : State) : (writeV k x s).inp = s.inp := rfl
@[simp] theorem writeV_acc (k : VReg) (x : Vec) (s : State) : (writeV k x s).acc = s.acc := rfl
@[simp] theorem writeV_irqEn (k : VReg) (x : Vec) (s : State) : (writeV k x s).irqEn = s.irqEn := rfl
@[simp] theorem writeV_busy (k : VReg) (x : Vec) (s : State) : (writeV k x s).busy = s.busy := rfl
@[simp] theorem writeV_done (k : VReg) (x : Vec) (s : State) : (writeV k x s).done = s.done := rfl
@[simp] theorem writeV_err (k : VReg) (x : Vec) (s : State) : (writeV k x s).err = s.err := rfl
@[simp] theorem writeV_ovr (k : VReg) (x : Vec) (s : State) : (writeV k x s).ovr = s.ovr := rfl
@[simp] theorem writeV_eqFlag (k : VReg) (x : Vec) (s : State) : (writeV k x s).eqFlag = s.eqFlag := rfl
@[simp] theorem writeV_errcode (k : VReg) (x : Vec) (s : State) : (writeV k x s).errcode = s.errcode := rfl
@[simp] theorem writeV_errinfo (k : VReg) (x : Vec) (s : State) : (writeV k x s).errinfo = s.errinfo := rfl
@[simp] theorem writeV_outPresent (k : VReg) (x : Vec) (s : State) : (writeV k x s).outPresent = s.outPresent := rfl
@[simp] theorem writeV_version (k : VReg) (x : Vec) (s : State) : (writeV k x s).version = s.version := rfl
@[simp] theorem writeV_scheme (k : VReg) (x : Vec) (s : State) : (writeV k x s).scheme = s.scheme := rfl
@[simp] theorem writeV_pend (k : VReg) (x : Vec) (s : State) : (writeV k x s).pend = s.pend := rfl
@[simp] theorem writeV_store (k : VReg) (x : Vec) (s : State) : (writeV k x s).store = s.store := rfl
@[simp] theorem writeV_marks (k : VReg) (x : Vec) (s : State) : (writeV k x s).marks = { s.marks with v := s.marks.v.set k allMarked } := rfl
@[simp] theorem writeV_unwrittenRead (k : VReg) (x : Vec) (s : State) : (writeV k x s).unwrittenRead = s.unwrittenRead := rfl
@[simp] theorem writeV_draws (k : VReg) (x : Vec) (s : State) : (writeV k x s).draws = s.draws := rfl
@[simp] theorem writeV_inputs (k : VReg) (x : Vec) (s : State) : (writeV k x s).inputs = s.inputs := rfl
@[simp] theorem writeV_response (k : VReg) (x : Vec) (s : State) : (writeV k x s).response = s.response := rfl

/-! writeM -/

@[simp] theorem writeM_v (k : MReg) (x : BitMatrix) (s : State) : (writeM k x s).v = s.v := rfl
@[simp] theorem writeM_m (k : MReg) (x : BitMatrix) (s : State) : (writeM k x s).m = s.m.set k x := rfl
@[simp] theorem writeM_buf (k : MReg) (x : BitMatrix) (s : State) : (writeM k x s).buf = s.buf := rfl
@[simp] theorem writeM_inp (k : MReg) (x : BitMatrix) (s : State) : (writeM k x s).inp = s.inp := rfl
@[simp] theorem writeM_acc (k : MReg) (x : BitMatrix) (s : State) : (writeM k x s).acc = s.acc := rfl
@[simp] theorem writeM_irqEn (k : MReg) (x : BitMatrix) (s : State) : (writeM k x s).irqEn = s.irqEn := rfl
@[simp] theorem writeM_busy (k : MReg) (x : BitMatrix) (s : State) : (writeM k x s).busy = s.busy := rfl
@[simp] theorem writeM_done (k : MReg) (x : BitMatrix) (s : State) : (writeM k x s).done = s.done := rfl
@[simp] theorem writeM_err (k : MReg) (x : BitMatrix) (s : State) : (writeM k x s).err = s.err := rfl
@[simp] theorem writeM_ovr (k : MReg) (x : BitMatrix) (s : State) : (writeM k x s).ovr = s.ovr := rfl
@[simp] theorem writeM_eqFlag (k : MReg) (x : BitMatrix) (s : State) : (writeM k x s).eqFlag = s.eqFlag := rfl
@[simp] theorem writeM_errcode (k : MReg) (x : BitMatrix) (s : State) : (writeM k x s).errcode = s.errcode := rfl
@[simp] theorem writeM_errinfo (k : MReg) (x : BitMatrix) (s : State) : (writeM k x s).errinfo = s.errinfo := rfl
@[simp] theorem writeM_outPresent (k : MReg) (x : BitMatrix) (s : State) : (writeM k x s).outPresent = s.outPresent := rfl
@[simp] theorem writeM_version (k : MReg) (x : BitMatrix) (s : State) : (writeM k x s).version = s.version := rfl
@[simp] theorem writeM_scheme (k : MReg) (x : BitMatrix) (s : State) : (writeM k x s).scheme = s.scheme := rfl
@[simp] theorem writeM_pend (k : MReg) (x : BitMatrix) (s : State) : (writeM k x s).pend = s.pend := rfl
@[simp] theorem writeM_store (k : MReg) (x : BitMatrix) (s : State) : (writeM k x s).store = s.store := rfl
@[simp] theorem writeM_marks (k : MReg) (x : BitMatrix) (s : State) : (writeM k x s).marks = { s.marks with m := s.marks.m.set k (Vector.replicate 256 allMarked) } := rfl
@[simp] theorem writeM_unwrittenRead (k : MReg) (x : BitMatrix) (s : State) : (writeM k x s).unwrittenRead = s.unwrittenRead := rfl
@[simp] theorem writeM_draws (k : MReg) (x : BitMatrix) (s : State) : (writeM k x s).draws = s.draws := rfl
@[simp] theorem writeM_inputs (k : MReg) (x : BitMatrix) (s : State) : (writeM k x s).inputs = s.inputs := rfl
@[simp] theorem writeM_response (k : MReg) (x : BitMatrix) (s : State) : (writeM k x s).response = s.response := rfl

/-! writeBuf -/

@[simp] theorem writeBuf_v (x : Vec) (s : State) : (writeBuf x s).v = s.v := rfl
@[simp] theorem writeBuf_m (x : Vec) (s : State) : (writeBuf x s).m = s.m := rfl
@[simp] theorem writeBuf_buf (x : Vec) (s : State) : (writeBuf x s).buf = x := rfl
@[simp] theorem writeBuf_inp (x : Vec) (s : State) : (writeBuf x s).inp = s.inp := rfl
@[simp] theorem writeBuf_acc (x : Vec) (s : State) : (writeBuf x s).acc = s.acc := rfl
@[simp] theorem writeBuf_irqEn (x : Vec) (s : State) : (writeBuf x s).irqEn = s.irqEn := rfl
@[simp] theorem writeBuf_busy (x : Vec) (s : State) : (writeBuf x s).busy = s.busy := rfl
@[simp] theorem writeBuf_done (x : Vec) (s : State) : (writeBuf x s).done = s.done := rfl
@[simp] theorem writeBuf_err (x : Vec) (s : State) : (writeBuf x s).err = s.err := rfl
@[simp] theorem writeBuf_ovr (x : Vec) (s : State) : (writeBuf x s).ovr = s.ovr := rfl
@[simp] theorem writeBuf_eqFlag (x : Vec) (s : State) : (writeBuf x s).eqFlag = s.eqFlag := rfl
@[simp] theorem writeBuf_errcode (x : Vec) (s : State) : (writeBuf x s).errcode = s.errcode := rfl
@[simp] theorem writeBuf_errinfo (x : Vec) (s : State) : (writeBuf x s).errinfo = s.errinfo := rfl
@[simp] theorem writeBuf_outPresent (x : Vec) (s : State) : (writeBuf x s).outPresent = s.outPresent := rfl
@[simp] theorem writeBuf_version (x : Vec) (s : State) : (writeBuf x s).version = s.version := rfl
@[simp] theorem writeBuf_scheme (x : Vec) (s : State) : (writeBuf x s).scheme = s.scheme := rfl
@[simp] theorem writeBuf_pend (x : Vec) (s : State) : (writeBuf x s).pend = s.pend := rfl
@[simp] theorem writeBuf_store (x : Vec) (s : State) : (writeBuf x s).store = s.store := rfl
@[simp] theorem writeBuf_marks (x : Vec) (s : State) : (writeBuf x s).marks = { s.marks with buf := allMarked } := rfl
@[simp] theorem writeBuf_unwrittenRead (x : Vec) (s : State) : (writeBuf x s).unwrittenRead = s.unwrittenRead := rfl
@[simp] theorem writeBuf_draws (x : Vec) (s : State) : (writeBuf x s).draws = s.draws := rfl
@[simp] theorem writeBuf_inputs (x : Vec) (s : State) : (writeBuf x s).inputs = s.inputs := rfl
@[simp] theorem writeBuf_response (x : Vec) (s : State) : (writeBuf x s).response = s.response := rfl

/-! writeIn -/

@[simp] theorem writeIn_v (x : Vec) (s : State) : (writeIn x s).v = s.v := rfl
@[simp] theorem writeIn_m (x : Vec) (s : State) : (writeIn x s).m = s.m := rfl
@[simp] theorem writeIn_buf (x : Vec) (s : State) : (writeIn x s).buf = s.buf := rfl
@[simp] theorem writeIn_inp (x : Vec) (s : State) : (writeIn x s).inp = x := rfl
@[simp] theorem writeIn_acc (x : Vec) (s : State) : (writeIn x s).acc = s.acc := rfl
@[simp] theorem writeIn_irqEn (x : Vec) (s : State) : (writeIn x s).irqEn = s.irqEn := rfl
@[simp] theorem writeIn_busy (x : Vec) (s : State) : (writeIn x s).busy = s.busy := rfl
@[simp] theorem writeIn_done (x : Vec) (s : State) : (writeIn x s).done = s.done := rfl
@[simp] theorem writeIn_err (x : Vec) (s : State) : (writeIn x s).err = s.err := rfl
@[simp] theorem writeIn_ovr (x : Vec) (s : State) : (writeIn x s).ovr = s.ovr := rfl
@[simp] theorem writeIn_eqFlag (x : Vec) (s : State) : (writeIn x s).eqFlag = s.eqFlag := rfl
@[simp] theorem writeIn_errcode (x : Vec) (s : State) : (writeIn x s).errcode = s.errcode := rfl
@[simp] theorem writeIn_errinfo (x : Vec) (s : State) : (writeIn x s).errinfo = s.errinfo := rfl
@[simp] theorem writeIn_outPresent (x : Vec) (s : State) : (writeIn x s).outPresent = s.outPresent := rfl
@[simp] theorem writeIn_version (x : Vec) (s : State) : (writeIn x s).version = s.version := rfl
@[simp] theorem writeIn_scheme (x : Vec) (s : State) : (writeIn x s).scheme = s.scheme := rfl
@[simp] theorem writeIn_pend (x : Vec) (s : State) : (writeIn x s).pend = s.pend := rfl
@[simp] theorem writeIn_store (x : Vec) (s : State) : (writeIn x s).store = s.store := rfl
@[simp] theorem writeIn_marks (x : Vec) (s : State) : (writeIn x s).marks = { s.marks with inp := allMarked } := rfl
@[simp] theorem writeIn_unwrittenRead (x : Vec) (s : State) : (writeIn x s).unwrittenRead = s.unwrittenRead := rfl
@[simp] theorem writeIn_draws (x : Vec) (s : State) : (writeIn x s).draws = s.draws := rfl
@[simp] theorem writeIn_inputs (x : Vec) (s : State) : (writeIn x s).inputs = s.inputs := rfl
@[simp] theorem writeIn_response (x : Vec) (s : State) : (writeIn x s).response = s.response := rfl

/-! writeAcc -/

@[simp] theorem writeAcc_v (x : Vec) (s : State) : (writeAcc x s).v = s.v := rfl
@[simp] theorem writeAcc_m (x : Vec) (s : State) : (writeAcc x s).m = s.m := rfl
@[simp] theorem writeAcc_buf (x : Vec) (s : State) : (writeAcc x s).buf = s.buf := rfl
@[simp] theorem writeAcc_inp (x : Vec) (s : State) : (writeAcc x s).inp = s.inp := rfl
@[simp] theorem writeAcc_acc (x : Vec) (s : State) : (writeAcc x s).acc = x := rfl
@[simp] theorem writeAcc_irqEn (x : Vec) (s : State) : (writeAcc x s).irqEn = s.irqEn := rfl
@[simp] theorem writeAcc_busy (x : Vec) (s : State) : (writeAcc x s).busy = s.busy := rfl
@[simp] theorem writeAcc_done (x : Vec) (s : State) : (writeAcc x s).done = s.done := rfl
@[simp] theorem writeAcc_err (x : Vec) (s : State) : (writeAcc x s).err = s.err := rfl
@[simp] theorem writeAcc_ovr (x : Vec) (s : State) : (writeAcc x s).ovr = s.ovr := rfl
@[simp] theorem writeAcc_eqFlag (x : Vec) (s : State) : (writeAcc x s).eqFlag = s.eqFlag := rfl
@[simp] theorem writeAcc_errcode (x : Vec) (s : State) : (writeAcc x s).errcode = s.errcode := rfl
@[simp] theorem writeAcc_errinfo (x : Vec) (s : State) : (writeAcc x s).errinfo = s.errinfo := rfl
@[simp] theorem writeAcc_outPresent (x : Vec) (s : State) : (writeAcc x s).outPresent = s.outPresent := rfl
@[simp] theorem writeAcc_version (x : Vec) (s : State) : (writeAcc x s).version = s.version := rfl
@[simp] theorem writeAcc_scheme (x : Vec) (s : State) : (writeAcc x s).scheme = s.scheme := rfl
@[simp] theorem writeAcc_pend (x : Vec) (s : State) : (writeAcc x s).pend = s.pend := rfl
@[simp] theorem writeAcc_store (x : Vec) (s : State) : (writeAcc x s).store = s.store := rfl
@[simp] theorem writeAcc_marks (x : Vec) (s : State) : (writeAcc x s).marks = { s.marks with acc := allMarked } := rfl
@[simp] theorem writeAcc_unwrittenRead (x : Vec) (s : State) : (writeAcc x s).unwrittenRead = s.unwrittenRead := rfl
@[simp] theorem writeAcc_draws (x : Vec) (s : State) : (writeAcc x s).draws = s.draws := rfl
@[simp] theorem writeAcc_inputs (x : Vec) (s : State) : (writeAcc x s).inputs = s.inputs := rfl
@[simp] theorem writeAcc_response (x : Vec) (s : State) : (writeAcc x s).response = s.response := rfl

/-! writeVWord -/

@[simp] theorem writeVWord_v (k : VReg) (w : Nat) (d : Word32) (s : State) : (writeVWord k w d s).v = s.v.set k (setWord s.v[k] w d) := rfl
@[simp] theorem writeVWord_m (k : VReg) (w : Nat) (d : Word32) (s : State) : (writeVWord k w d s).m = s.m := rfl
@[simp] theorem writeVWord_buf (k : VReg) (w : Nat) (d : Word32) (s : State) : (writeVWord k w d s).buf = s.buf := rfl
@[simp] theorem writeVWord_inp (k : VReg) (w : Nat) (d : Word32) (s : State) : (writeVWord k w d s).inp = s.inp := rfl
@[simp] theorem writeVWord_acc (k : VReg) (w : Nat) (d : Word32) (s : State) : (writeVWord k w d s).acc = s.acc := rfl
@[simp] theorem writeVWord_irqEn (k : VReg) (w : Nat) (d : Word32) (s : State) : (writeVWord k w d s).irqEn = s.irqEn := rfl
@[simp] theorem writeVWord_busy (k : VReg) (w : Nat) (d : Word32) (s : State) : (writeVWord k w d s).busy = s.busy := rfl
@[simp] theorem writeVWord_done (k : VReg) (w : Nat) (d : Word32) (s : State) : (writeVWord k w d s).done = s.done := rfl
@[simp] theorem writeVWord_err (k : VReg) (w : Nat) (d : Word32) (s : State) : (writeVWord k w d s).err = s.err := rfl
@[simp] theorem writeVWord_ovr (k : VReg) (w : Nat) (d : Word32) (s : State) : (writeVWord k w d s).ovr = s.ovr := rfl
@[simp] theorem writeVWord_eqFlag (k : VReg) (w : Nat) (d : Word32) (s : State) : (writeVWord k w d s).eqFlag = s.eqFlag := rfl
@[simp] theorem writeVWord_errcode (k : VReg) (w : Nat) (d : Word32) (s : State) : (writeVWord k w d s).errcode = s.errcode := rfl
@[simp] theorem writeVWord_errinfo (k : VReg) (w : Nat) (d : Word32) (s : State) : (writeVWord k w d s).errinfo = s.errinfo := rfl
@[simp] theorem writeVWord_outPresent (k : VReg) (w : Nat) (d : Word32) (s : State) : (writeVWord k w d s).outPresent = s.outPresent := rfl
@[simp] theorem writeVWord_version (k : VReg) (w : Nat) (d : Word32) (s : State) : (writeVWord k w d s).version = s.version := rfl
@[simp] theorem writeVWord_scheme (k : VReg) (w : Nat) (d : Word32) (s : State) : (writeVWord k w d s).scheme = s.scheme := rfl
@[simp] theorem writeVWord_pend (k : VReg) (w : Nat) (d : Word32) (s : State) : (writeVWord k w d s).pend = s.pend := rfl
@[simp] theorem writeVWord_store (k : VReg) (w : Nat) (d : Word32) (s : State) : (writeVWord k w d s).store = s.store := rfl
@[simp] theorem writeVWord_marks (k : VReg) (w : Nat) (d : Word32) (s : State) : (writeVWord k w d s).marks = { s.marks with v := s.marks.v.set k (markWord s.marks.v[k] w) } := rfl
@[simp] theorem writeVWord_unwrittenRead (k : VReg) (w : Nat) (d : Word32) (s : State) : (writeVWord k w d s).unwrittenRead = s.unwrittenRead := rfl
@[simp] theorem writeVWord_draws (k : VReg) (w : Nat) (d : Word32) (s : State) : (writeVWord k w d s).draws = s.draws := rfl
@[simp] theorem writeVWord_inputs (k : VReg) (w : Nat) (d : Word32) (s : State) : (writeVWord k w d s).inputs = s.inputs := rfl
@[simp] theorem writeVWord_response (k : VReg) (w : Nat) (d : Word32) (s : State) : (writeVWord k w d s).response = s.response := rfl

/-! writeBufWord -/

@[simp] theorem writeBufWord_v (w : Nat) (d : Word32) (s : State) : (writeBufWord w d s).v = s.v := rfl
@[simp] theorem writeBufWord_m (w : Nat) (d : Word32) (s : State) : (writeBufWord w d s).m = s.m := rfl
@[simp] theorem writeBufWord_buf (w : Nat) (d : Word32) (s : State) : (writeBufWord w d s).buf = setWord s.buf w d := rfl
@[simp] theorem writeBufWord_inp (w : Nat) (d : Word32) (s : State) : (writeBufWord w d s).inp = s.inp := rfl
@[simp] theorem writeBufWord_acc (w : Nat) (d : Word32) (s : State) : (writeBufWord w d s).acc = s.acc := rfl
@[simp] theorem writeBufWord_irqEn (w : Nat) (d : Word32) (s : State) : (writeBufWord w d s).irqEn = s.irqEn := rfl
@[simp] theorem writeBufWord_busy (w : Nat) (d : Word32) (s : State) : (writeBufWord w d s).busy = s.busy := rfl
@[simp] theorem writeBufWord_done (w : Nat) (d : Word32) (s : State) : (writeBufWord w d s).done = s.done := rfl
@[simp] theorem writeBufWord_err (w : Nat) (d : Word32) (s : State) : (writeBufWord w d s).err = s.err := rfl
@[simp] theorem writeBufWord_ovr (w : Nat) (d : Word32) (s : State) : (writeBufWord w d s).ovr = s.ovr := rfl
@[simp] theorem writeBufWord_eqFlag (w : Nat) (d : Word32) (s : State) : (writeBufWord w d s).eqFlag = s.eqFlag := rfl
@[simp] theorem writeBufWord_errcode (w : Nat) (d : Word32) (s : State) : (writeBufWord w d s).errcode = s.errcode := rfl
@[simp] theorem writeBufWord_errinfo (w : Nat) (d : Word32) (s : State) : (writeBufWord w d s).errinfo = s.errinfo := rfl
@[simp] theorem writeBufWord_outPresent (w : Nat) (d : Word32) (s : State) : (writeBufWord w d s).outPresent = s.outPresent := rfl
@[simp] theorem writeBufWord_version (w : Nat) (d : Word32) (s : State) : (writeBufWord w d s).version = s.version := rfl
@[simp] theorem writeBufWord_scheme (w : Nat) (d : Word32) (s : State) : (writeBufWord w d s).scheme = s.scheme := rfl
@[simp] theorem writeBufWord_pend (w : Nat) (d : Word32) (s : State) : (writeBufWord w d s).pend = s.pend := rfl
@[simp] theorem writeBufWord_store (w : Nat) (d : Word32) (s : State) : (writeBufWord w d s).store = s.store := rfl
@[simp] theorem writeBufWord_marks (w : Nat) (d : Word32) (s : State) : (writeBufWord w d s).marks = { s.marks with buf := markWord s.marks.buf w } := rfl
@[simp] theorem writeBufWord_unwrittenRead (w : Nat) (d : Word32) (s : State) : (writeBufWord w d s).unwrittenRead = s.unwrittenRead := rfl
@[simp] theorem writeBufWord_draws (w : Nat) (d : Word32) (s : State) : (writeBufWord w d s).draws = s.draws := rfl
@[simp] theorem writeBufWord_inputs (w : Nat) (d : Word32) (s : State) : (writeBufWord w d s).inputs = s.inputs := rfl
@[simp] theorem writeBufWord_response (w : Nat) (d : Word32) (s : State) : (writeBufWord w d s).response = s.response := rfl

/-! writeMWord -/

@[simp] theorem writeMWord_v (k : MReg) (i w : Nat) (d : Word32) (s : State) : (writeMWord k i w d s).v = s.v := rfl
@[simp] theorem writeMWord_buf (k : MReg) (i w : Nat) (d : Word32) (s : State) : (writeMWord k i w d s).buf = s.buf := rfl
@[simp] theorem writeMWord_inp (k : MReg) (i w : Nat) (d : Word32) (s : State) : (writeMWord k i w d s).inp = s.inp := rfl
@[simp] theorem writeMWord_acc (k : MReg) (i w : Nat) (d : Word32) (s : State) : (writeMWord k i w d s).acc = s.acc := rfl
@[simp] theorem writeMWord_irqEn (k : MReg) (i w : Nat) (d : Word32) (s : State) : (writeMWord k i w d s).irqEn = s.irqEn := rfl
@[simp] theorem writeMWord_busy (k : MReg) (i w : Nat) (d : Word32) (s : State) : (writeMWord k i w d s).busy = s.busy := rfl
@[simp] theorem writeMWord_done (k : MReg) (i w : Nat) (d : Word32) (s : State) : (writeMWord k i w d s).done = s.done := rfl
@[simp] theorem writeMWord_err (k : MReg) (i w : Nat) (d : Word32) (s : State) : (writeMWord k i w d s).err = s.err := rfl
@[simp] theorem writeMWord_ovr (k : MReg) (i w : Nat) (d : Word32) (s : State) : (writeMWord k i w d s).ovr = s.ovr := rfl
@[simp] theorem writeMWord_eqFlag (k : MReg) (i w : Nat) (d : Word32) (s : State) : (writeMWord k i w d s).eqFlag = s.eqFlag := rfl
@[simp] theorem writeMWord_errcode (k : MReg) (i w : Nat) (d : Word32) (s : State) : (writeMWord k i w d s).errcode = s.errcode := rfl
@[simp] theorem writeMWord_errinfo (k : MReg) (i w : Nat) (d : Word32) (s : State) : (writeMWord k i w d s).errinfo = s.errinfo := rfl
@[simp] theorem writeMWord_outPresent (k : MReg) (i w : Nat) (d : Word32) (s : State) : (writeMWord k i w d s).outPresent = s.outPresent := rfl
@[simp] theorem writeMWord_version (k : MReg) (i w : Nat) (d : Word32) (s : State) : (writeMWord k i w d s).version = s.version := rfl
@[simp] theorem writeMWord_scheme (k : MReg) (i w : Nat) (d : Word32) (s : State) : (writeMWord k i w d s).scheme = s.scheme := rfl
@[simp] theorem writeMWord_pend (k : MReg) (i w : Nat) (d : Word32) (s : State) : (writeMWord k i w d s).pend = s.pend := rfl
@[simp] theorem writeMWord_store (k : MReg) (i w : Nat) (d : Word32) (s : State) : (writeMWord k i w d s).store = s.store := rfl
@[simp] theorem writeMWord_unwrittenRead (k : MReg) (i w : Nat) (d : Word32) (s : State) : (writeMWord k i w d s).unwrittenRead = s.unwrittenRead := rfl
@[simp] theorem writeMWord_draws (k : MReg) (i w : Nat) (d : Word32) (s : State) : (writeMWord k i w d s).draws = s.draws := rfl
@[simp] theorem writeMWord_inputs (k : MReg) (i w : Nat) (d : Word32) (s : State) : (writeMWord k i w d s).inputs = s.inputs := rfl
@[simp] theorem writeMWord_response (k : MReg) (i w : Nat) (d : Word32) (s : State) : (writeMWord k i w d s).response = s.response := rfl

/-! recordUnwritten -/

@[simp] theorem recordUnwritten_v (hole : Option (RegName × Nat)) (s : State) : (recordUnwritten hole s).v = s.v := rfl
@[simp] theorem recordUnwritten_m (hole : Option (RegName × Nat)) (s : State) : (recordUnwritten hole s).m = s.m := rfl
@[simp] theorem recordUnwritten_buf (hole : Option (RegName × Nat)) (s : State) : (recordUnwritten hole s).buf = s.buf := rfl
@[simp] theorem recordUnwritten_inp (hole : Option (RegName × Nat)) (s : State) : (recordUnwritten hole s).inp = s.inp := rfl
@[simp] theorem recordUnwritten_acc (hole : Option (RegName × Nat)) (s : State) : (recordUnwritten hole s).acc = s.acc := rfl
@[simp] theorem recordUnwritten_irqEn (hole : Option (RegName × Nat)) (s : State) : (recordUnwritten hole s).irqEn = s.irqEn := rfl
@[simp] theorem recordUnwritten_busy (hole : Option (RegName × Nat)) (s : State) : (recordUnwritten hole s).busy = s.busy := rfl
@[simp] theorem recordUnwritten_done (hole : Option (RegName × Nat)) (s : State) : (recordUnwritten hole s).done = s.done := rfl
@[simp] theorem recordUnwritten_err (hole : Option (RegName × Nat)) (s : State) : (recordUnwritten hole s).err = s.err := rfl
@[simp] theorem recordUnwritten_ovr (hole : Option (RegName × Nat)) (s : State) : (recordUnwritten hole s).ovr = s.ovr := rfl
@[simp] theorem recordUnwritten_eqFlag (hole : Option (RegName × Nat)) (s : State) : (recordUnwritten hole s).eqFlag = s.eqFlag := rfl
@[simp] theorem recordUnwritten_errcode (hole : Option (RegName × Nat)) (s : State) : (recordUnwritten hole s).errcode = s.errcode := rfl
@[simp] theorem recordUnwritten_errinfo (hole : Option (RegName × Nat)) (s : State) : (recordUnwritten hole s).errinfo = s.errinfo := rfl
@[simp] theorem recordUnwritten_outPresent (hole : Option (RegName × Nat)) (s : State) : (recordUnwritten hole s).outPresent = s.outPresent := rfl
@[simp] theorem recordUnwritten_version (hole : Option (RegName × Nat)) (s : State) : (recordUnwritten hole s).version = s.version := rfl
@[simp] theorem recordUnwritten_scheme (hole : Option (RegName × Nat)) (s : State) : (recordUnwritten hole s).scheme = s.scheme := rfl
@[simp] theorem recordUnwritten_pend (hole : Option (RegName × Nat)) (s : State) : (recordUnwritten hole s).pend = s.pend := rfl
@[simp] theorem recordUnwritten_store (hole : Option (RegName × Nat)) (s : State) : (recordUnwritten hole s).store = s.store := rfl
@[simp] theorem recordUnwritten_marks (hole : Option (RegName × Nat)) (s : State) : (recordUnwritten hole s).marks = s.marks := rfl
@[simp] theorem recordUnwritten_unwrittenRead (hole : Option (RegName × Nat)) (s : State) : (recordUnwritten hole s).unwrittenRead = s.unwrittenRead.or hole := rfl
@[simp] theorem recordUnwritten_draws (hole : Option (RegName × Nat)) (s : State) : (recordUnwritten hole s).draws = s.draws := rfl
@[simp] theorem recordUnwritten_inputs (hole : Option (RegName × Nat)) (s : State) : (recordUnwritten hole s).inputs = s.inputs := rfl
@[simp] theorem recordUnwritten_response (hole : Option (RegName × Nat)) (s : State) : (recordUnwritten hole s).response = s.response := rfl

/-! writeStoreWord -/

@[simp] theorem writeStoreWord_v (a : Nat) (d : Word32) (s : State) : (writeStoreWord a d s).v = s.v := rfl
@[simp] theorem writeStoreWord_m (a : Nat) (d : Word32) (s : State) : (writeStoreWord a d s).m = s.m := rfl
@[simp] theorem writeStoreWord_buf (a : Nat) (d : Word32) (s : State) : (writeStoreWord a d s).buf = s.buf := rfl
@[simp] theorem writeStoreWord_inp (a : Nat) (d : Word32) (s : State) : (writeStoreWord a d s).inp = s.inp := rfl
@[simp] theorem writeStoreWord_acc (a : Nat) (d : Word32) (s : State) : (writeStoreWord a d s).acc = s.acc := rfl
@[simp] theorem writeStoreWord_irqEn (a : Nat) (d : Word32) (s : State) : (writeStoreWord a d s).irqEn = s.irqEn := rfl
@[simp] theorem writeStoreWord_busy (a : Nat) (d : Word32) (s : State) : (writeStoreWord a d s).busy = s.busy := rfl
@[simp] theorem writeStoreWord_done (a : Nat) (d : Word32) (s : State) : (writeStoreWord a d s).done = s.done := rfl
@[simp] theorem writeStoreWord_err (a : Nat) (d : Word32) (s : State) : (writeStoreWord a d s).err = s.err := rfl
@[simp] theorem writeStoreWord_ovr (a : Nat) (d : Word32) (s : State) : (writeStoreWord a d s).ovr = s.ovr := rfl
@[simp] theorem writeStoreWord_eqFlag (a : Nat) (d : Word32) (s : State) : (writeStoreWord a d s).eqFlag = s.eqFlag := rfl
@[simp] theorem writeStoreWord_errcode (a : Nat) (d : Word32) (s : State) : (writeStoreWord a d s).errcode = s.errcode := rfl
@[simp] theorem writeStoreWord_errinfo (a : Nat) (d : Word32) (s : State) : (writeStoreWord a d s).errinfo = s.errinfo := rfl
@[simp] theorem writeStoreWord_outPresent (a : Nat) (d : Word32) (s : State) : (writeStoreWord a d s).outPresent = s.outPresent := rfl
@[simp] theorem writeStoreWord_version (a : Nat) (d : Word32) (s : State) : (writeStoreWord a d s).version = s.version := rfl
@[simp] theorem writeStoreWord_scheme (a : Nat) (d : Word32) (s : State) : (writeStoreWord a d s).scheme = s.scheme := rfl
@[simp] theorem writeStoreWord_pend (a : Nat) (d : Word32) (s : State) : (writeStoreWord a d s).pend = s.pend := rfl
@[simp] theorem writeStoreWord_store (a : Nat) (d : Word32) (s : State) : (writeStoreWord a d s).store = memWriteWord a d s.store := rfl
@[simp] theorem writeStoreWord_marks (a : Nat) (d : Word32) (s : State) : (writeStoreWord a d s).marks = s.marks := rfl
@[simp] theorem writeStoreWord_unwrittenRead (a : Nat) (d : Word32) (s : State) : (writeStoreWord a d s).unwrittenRead = s.unwrittenRead := rfl
@[simp] theorem writeStoreWord_draws (a : Nat) (d : Word32) (s : State) : (writeStoreWord a d s).draws = s.draws := rfl
@[simp] theorem writeStoreWord_inputs (a : Nat) (d : Word32) (s : State) : (writeStoreWord a d s).inputs = s.inputs := rfl
@[simp] theorem writeStoreWord_response (a : Nat) (d : Word32) (s : State) : (writeStoreWord a d s).response = s.response := rfl

/-! recordError: the record is made only while ERR = 0 (60_exceptions.md R99) -/

@[simp] theorem recordError_v (c : Cause) (s : State) : (recordError c s).v = s.v := by
  unfold recordError; split <;> rfl
@[simp] theorem recordError_m (c : Cause) (s : State) : (recordError c s).m = s.m := by
  unfold recordError; split <;> rfl
@[simp] theorem recordError_buf (c : Cause) (s : State) : (recordError c s).buf = s.buf := by
  unfold recordError; split <;> rfl
@[simp] theorem recordError_inp (c : Cause) (s : State) : (recordError c s).inp = s.inp := by
  unfold recordError; split <;> rfl
@[simp] theorem recordError_acc (c : Cause) (s : State) : (recordError c s).acc = s.acc := by
  unfold recordError; split <;> rfl
@[simp] theorem recordError_irqEn (c : Cause) (s : State) : (recordError c s).irqEn = s.irqEn := by
  unfold recordError; split <;> rfl
@[simp] theorem recordError_busy (c : Cause) (s : State) : (recordError c s).busy = s.busy := by
  unfold recordError; split <;> rfl
@[simp] theorem recordError_done (c : Cause) (s : State) : (recordError c s).done = s.done := by
  unfold recordError; split <;> rfl
@[simp] theorem recordError_ovr (c : Cause) (s : State) : (recordError c s).ovr = s.ovr := by
  unfold recordError; split <;> rfl
@[simp] theorem recordError_eqFlag (c : Cause) (s : State) : (recordError c s).eqFlag = s.eqFlag := by
  unfold recordError; split <;> rfl
@[simp] theorem recordError_outPresent (c : Cause) (s : State) : (recordError c s).outPresent = s.outPresent := by
  unfold recordError; split <;> rfl
@[simp] theorem recordError_version (c : Cause) (s : State) : (recordError c s).version = s.version := by
  unfold recordError; split <;> rfl
@[simp] theorem recordError_scheme (c : Cause) (s : State) : (recordError c s).scheme = s.scheme := by
  unfold recordError; split <;> rfl
@[simp] theorem recordError_pend (c : Cause) (s : State) : (recordError c s).pend = s.pend := by
  unfold recordError; split <;> rfl
@[simp] theorem recordError_store (c : Cause) (s : State) : (recordError c s).store = s.store := by
  unfold recordError; split <;> rfl
@[simp] theorem recordError_marks (c : Cause) (s : State) : (recordError c s).marks = s.marks := by
  unfold recordError; split <;> rfl
@[simp] theorem recordError_unwrittenRead (c : Cause) (s : State) : (recordError c s).unwrittenRead = s.unwrittenRead := by
  unfold recordError; split <;> rfl
@[simp] theorem recordError_draws (c : Cause) (s : State) : (recordError c s).draws = s.draws := by
  unfold recordError; split <;> rfl
@[simp] theorem recordError_inputs (c : Cause) (s : State) : (recordError c s).inputs = s.inputs := by
  unfold recordError; split <;> rfl
@[simp] theorem recordError_response (c : Cause) (s : State) : (recordError c s).response = s.response := by
  unfold recordError; split <;> rfl
@[simp] theorem recordError_err (c : Cause) (s : State) : (recordError c s).err = true := by
  unfold recordError; split <;> simp_all
theorem recordError_errcode (c : Cause) (s : State) :
    (recordError c s).errcode = if s.err then s.errcode else causeCode c := by
  unfold recordError; split <;> rfl
theorem recordError_errinfo (c : Cause) (s : State) :
    (recordError c s).errinfo = if s.err then s.errinfo else s.pend := by
  unfold recordError; split <;> rfl

/-! resetEvent: the reset state, but for the run's own inputs, draws and record of unwritten reads -/

@[simp] theorem resetEvent_v (s : State) : (resetEvent s).v = State.reset.v := rfl
@[simp] theorem resetEvent_m (s : State) : (resetEvent s).m = State.reset.m := rfl
@[simp] theorem resetEvent_buf (s : State) : (resetEvent s).buf = State.reset.buf := rfl
@[simp] theorem resetEvent_inp (s : State) : (resetEvent s).inp = State.reset.inp := rfl
@[simp] theorem resetEvent_acc (s : State) : (resetEvent s).acc = State.reset.acc := rfl
@[simp] theorem resetEvent_irqEn (s : State) : (resetEvent s).irqEn = State.reset.irqEn := rfl
@[simp] theorem resetEvent_busy (s : State) : (resetEvent s).busy = State.reset.busy := rfl
@[simp] theorem resetEvent_done (s : State) : (resetEvent s).done = State.reset.done := rfl
@[simp] theorem resetEvent_err (s : State) : (resetEvent s).err = State.reset.err := rfl
@[simp] theorem resetEvent_ovr (s : State) : (resetEvent s).ovr = State.reset.ovr := rfl
@[simp] theorem resetEvent_eqFlag (s : State) : (resetEvent s).eqFlag = State.reset.eqFlag := rfl
@[simp] theorem resetEvent_errcode (s : State) : (resetEvent s).errcode = State.reset.errcode := rfl
@[simp] theorem resetEvent_errinfo (s : State) : (resetEvent s).errinfo = State.reset.errinfo := rfl
@[simp] theorem resetEvent_outPresent (s : State) : (resetEvent s).outPresent = State.reset.outPresent := rfl
@[simp] theorem resetEvent_version (s : State) : (resetEvent s).version = State.reset.version := rfl
@[simp] theorem resetEvent_scheme (s : State) : (resetEvent s).scheme = State.reset.scheme := rfl
@[simp] theorem resetEvent_pend (s : State) : (resetEvent s).pend = State.reset.pend := rfl
@[simp] theorem resetEvent_store (s : State) : (resetEvent s).store = State.reset.store := rfl
@[simp] theorem resetEvent_marks (s : State) : (resetEvent s).marks = State.reset.marks := rfl
@[simp] theorem resetEvent_unwrittenRead (s : State) : (resetEvent s).unwrittenRead = s.unwrittenRead := rfl
@[simp] theorem resetEvent_draws (s : State) : (resetEvent s).draws = s.draws := rfl
@[simp] theorem resetEvent_inputs (s : State) : (resetEvent s).inputs = s.inputs := rfl
@[simp] theorem resetEvent_response (s : State) : (resetEvent s).response = State.reset.response := rfl

/-! writeStatus: only DONE, OVR and the error record (10_state.md R26) -/

@[simp] theorem writeStatus_v (d : Word32) (s : State) : (writeStatus d s).v = s.v := by
  unfold writeStatus; split <;> split <;> split <;> rfl
@[simp] theorem writeStatus_m (d : Word32) (s : State) : (writeStatus d s).m = s.m := by
  unfold writeStatus; split <;> split <;> split <;> rfl
@[simp] theorem writeStatus_buf (d : Word32) (s : State) : (writeStatus d s).buf = s.buf := by
  unfold writeStatus; split <;> split <;> split <;> rfl
@[simp] theorem writeStatus_inp (d : Word32) (s : State) : (writeStatus d s).inp = s.inp := by
  unfold writeStatus; split <;> split <;> split <;> rfl
@[simp] theorem writeStatus_acc (d : Word32) (s : State) : (writeStatus d s).acc = s.acc := by
  unfold writeStatus; split <;> split <;> split <;> rfl
@[simp] theorem writeStatus_irqEn (d : Word32) (s : State) : (writeStatus d s).irqEn = s.irqEn := by
  unfold writeStatus; split <;> split <;> split <;> rfl
@[simp] theorem writeStatus_busy (d : Word32) (s : State) : (writeStatus d s).busy = s.busy := by
  unfold writeStatus; split <;> split <;> split <;> rfl
@[simp] theorem writeStatus_eqFlag (d : Word32) (s : State) : (writeStatus d s).eqFlag = s.eqFlag := by
  unfold writeStatus; split <;> split <;> split <;> rfl
@[simp] theorem writeStatus_outPresent (d : Word32) (s : State) : (writeStatus d s).outPresent = s.outPresent := by
  unfold writeStatus; split <;> split <;> split <;> rfl
@[simp] theorem writeStatus_version (d : Word32) (s : State) : (writeStatus d s).version = s.version := by
  unfold writeStatus; split <;> split <;> split <;> rfl
@[simp] theorem writeStatus_scheme (d : Word32) (s : State) : (writeStatus d s).scheme = s.scheme := by
  unfold writeStatus; split <;> split <;> split <;> rfl
@[simp] theorem writeStatus_pend (d : Word32) (s : State) : (writeStatus d s).pend = s.pend := by
  unfold writeStatus; split <;> split <;> split <;> rfl
@[simp] theorem writeStatus_store (d : Word32) (s : State) : (writeStatus d s).store = s.store := by
  unfold writeStatus; split <;> split <;> split <;> rfl
@[simp] theorem writeStatus_marks (d : Word32) (s : State) : (writeStatus d s).marks = s.marks := by
  unfold writeStatus; split <;> split <;> split <;> rfl
@[simp] theorem writeStatus_unwrittenRead (d : Word32) (s : State) : (writeStatus d s).unwrittenRead = s.unwrittenRead := by
  unfold writeStatus; split <;> split <;> split <;> rfl
@[simp] theorem writeStatus_draws (d : Word32) (s : State) : (writeStatus d s).draws = s.draws := by
  unfold writeStatus; split <;> split <;> split <;> rfl
@[simp] theorem writeStatus_inputs (d : Word32) (s : State) : (writeStatus d s).inputs = s.inputs := by
  unfold writeStatus; split <;> split <;> split <;> rfl
@[simp] theorem writeStatus_response (d : Word32) (s : State) : (writeStatus d s).response = s.response := by
  unfold writeStatus; split <;> split <;> split <;> rfl
theorem writeStatus_done (d : Word32) (s : State) :
    (writeStatus d s).done = if d.getLsbD 1 then false else s.done := by
  unfold writeStatus; split <;> split <;> split <;> simp_all
theorem writeStatus_err (d : Word32) (s : State) :
    (writeStatus d s).err = if d.getLsbD 2 then false else s.err := by
  unfold writeStatus; split <;> split <;> split <;> simp_all
theorem writeStatus_errcode (d : Word32) (s : State) :
    (writeStatus d s).errcode = if d.getLsbD 2 then 0 else s.errcode := by
  unfold writeStatus; split <;> split <;> split <;> simp_all
theorem writeStatus_errinfo (d : Word32) (s : State) :
    (writeStatus d s).errinfo = if d.getLsbD 2 then 0 else s.errinfo := by
  unfold writeStatus; split <;> split <;> split <;> simp_all
theorem writeStatus_ovr (d : Word32) (s : State) :
    (writeStatus d s).ovr = if d.getLsbD 3 then false else s.ovr := by
  unfold writeStatus; split <;> split <;> split <;> simp_all

end Sys2Proof.Machine
end

