-- ==== Sys2Proof/Laws/Ops.lean ====
section
/-! SUPPORT. One lemma for each shared operation of Machine/Ops.lean and Machine/Operands.lean: everything it can do. -/

namespace Sys2Proof.Machine

/-! Operands, legality, ends. -/

theorem operand_next {α : Type} {r : Except Fault α} {k : α → Result} {t : State} :
    operand r k = .next t ↔ ∃ x, r = .ok x ∧ k x = .next t := by
  cases r <;> simp [operand]

theorem operand_fault {α : Type} {r : Except Fault α} {k : α → Result} {f : Fault} :
    operand r k = .fault f ↔ r = .error f ∨ ∃ x, r = .ok x ∧ k x = .fault f := by
  cases r <;> simp [operand]

theorem operand_refused {α : Type} {r : Except Fault α} {k : α → Result} {e : Refusal} :
    operand r k = .refused e ↔ ∃ x, r = .ok x ∧ k x = .refused e := by
  cases r <;> simp [operand]

@[simp] theorem operand_ok {α : Type} (x : α) (k : α → Result) : operand (.ok x) k = k x := rfl

@[simp] theorem operand_error {α : Type} (f : Fault) (k : α → Result) : operand (.error f) k = .fault f := rfl

@[simp] theorem finish_next (s t : State) : finish s = .next t ↔ complete s = t := by simp [finish]

@[simp] theorem raise_next (c : Cause) (s t : State) : raise c s = .next t ↔ complete (recordError c s) = t := by
  simp [raise]

theorem requireLegal_next {ok : Bool} {s t : State} {k : Result} :
    requireLegal ok s k = .next t ↔ (ok = true ∧ k = .next t) ∨ (ok = false ∧ raise .illegal s = .next t) := by
  cases ok <;> simp [requireLegal]

@[simp] theorem requireLegal_true (s : State) (k : Result) : requireLegal true s k = k := rfl

@[simp] theorem requireLegal_false (s : State) (k : Result) : requireLegal false s k = raise .illegal s := rfl

/-! Marks. -/

theorem vecHole_none_iff {r : RegName} {mk : ByteMarks} {lo cnt : Nat} :
    vecHole r mk lo cnt = none ↔ ∀ j, lo ≤ j → j < lo + cnt → mk.getLsbD j = true := by
  unfold vecHole
  split
  · next h =>
    simp only [true_iff]
    intro j h1 h2
    simpa using List.find?_eq_none.mp h j (List.mem_range'_1.mpr ⟨h1, h2⟩)
  · next j h =>
    simp only [reduceCtorEq, false_iff, not_forall]
    have hm := List.mem_of_find?_eq_some h
    have hp := List.find?_some h
    obtain ⟨h1, h2⟩ := List.mem_range'_1.mp hm
    exact ⟨j, h1, h2, by simpa using hp⟩

theorem vecHole_some {r r' : RegName} {mk : ByteMarks} {lo cnt j : Nat} (h : vecHole r mk lo cnt = some (r', j)) :
    r' = r ∧ lo ≤ j ∧ j < lo + cnt ∧ mk.getLsbD j = false := by
  unfold vecHole at h
  split at h
  · cases h
  · next i hi =>
    simp only [Option.some.injEq, Prod.mk.injEq] at h
    obtain ⟨rfl, rfl⟩ := h
    obtain ⟨h1, h2⟩ := List.mem_range'_1.mp (List.mem_of_find?_eq_some hi)
    exact ⟨rfl, h1, h2, by simpa using List.find?_some hi⟩

theorem matHole_none_iff {k : MReg} {mk : Vector ByteMarks 256} {rows cnt : Nat} :
    matHole k mk rows cnt = none ↔ ∀ i j, i < rows → j < cnt → (markRow mk i).getLsbD j = true := by
  simp only [matHole, List.findSome?_eq_none_iff, List.mem_range, vecHole_none_iff]
  constructor
  · intro h i j hi hj
    exact h i hi j (by omega) (by omega)
  · intro h i hi j _ hj
    exact h i j hi (by omega)

theorem matHole_some {k : MReg} {mk : Vector ByteMarks 256} {rows cnt : Nat} {r : RegName} {j : Nat}
    (h : matHole k mk rows cnt = some (r, j)) :
    ∃ i, i < rows ∧ r = .m k i ∧ j < cnt ∧ (markRow mk i).getLsbD j = false := by
  obtain ⟨i, hi, h⟩ := List.exists_of_findSome?_eq_some h
  obtain ⟨rfl, _, hj, hm⟩ := vecHole_some h
  exact ⟨i, List.mem_range.mp hi, rfl, by omega, hm⟩

/-! The record of unwritten reads. -/

@[simp] theorem recordUnwritten_none (s : State) : recordUnwritten none s = s := by
  simp only [recordUnwritten, Option.or_none]

/-- `hole` names a byte of `reads` that was not written, and is none exactly if there is no such byte. -/
structure FirstHole (s : State) (reads : RegName → Nat → Prop) (hole : Option (RegName × Nat)) : Prop where
  none_iff : hole = none ↔ ∀ r j, reads r j → registerWritten s.marks r j = true
  named : ∀ r j, hole = some (r, j) → reads r j ∧ registerWritten s.marks r j = false

theorem firstHole_none (s : State) : FirstHole s (fun _ _ => False) none := ⟨by simp, by simp⟩

theorem FirstHole.or {s : State} {p q : RegName → Nat → Prop} {a b : Option (RegName × Nat)} (ha : FirstHole s p a)
    (hb : FirstHole s q b) : FirstHole s (fun r j => p r j ∨ q r j) (a.or b) := by
  constructor
  · rw [Option.or_eq_none_iff, ha.none_iff, hb.none_iff]
    exact ⟨fun h r j => Or.rec (h.1 r j) (h.2 r j), fun h => ⟨fun r j hp => h r j (.inl hp), fun r j hq => h r j (.inr hq)⟩⟩
  · intro r j h
    cases a with
    | none => exact ⟨.inr (hb.named r j h).1, (hb.named r j h).2⟩
    | some x => exact ⟨.inl (ha.named r j h).1, (ha.named r j h).2⟩

theorem holeV_first (n : Dim) (k : VReg) (s : State) : FirstHole s (InViewV n k) (holeV n k s) := by
  constructor
  · rw [holeV, vecHole_none_iff]
    constructor
    · rintro h r j ⟨rfl, hj⟩; exact h j (by omega) (by omega)
    · intro h j _ hj; exact h _ j ⟨rfl, by omega⟩
  · intro r j h
    obtain ⟨rfl, -, hj, hm⟩ := vecHole_some h
    exact ⟨⟨rfl, by omega⟩, hm⟩

theorem holeM_first (n : Dim) (k : MReg) (s : State) : FirstHole s (InViewM n k) (holeM n k s) := by
  constructor
  · rw [holeM, matHole_none_iff]
    constructor
    · rintro h r j ⟨⟨i, hi, rfl⟩, hj⟩; exact h i j hi hj
    · intro h i j hi hj; exact h _ j ⟨⟨i, hi, rfl⟩, hj⟩
  · intro r j h
    obtain ⟨i, hi, rfl, hj, hm⟩ := matHole_some h
    exact ⟨⟨⟨i, hi, rfl⟩, hj⟩, hm⟩

theorem holeA_first (n : Dim) (k : AReg) (s : State) : FirstHole s (InViewA n k) (holeA n k s) :=
  (holeM_first n k s).or (holeV_first n (biasReg k) s)

theorem holeBuf_first (s : State) : FirstHole s InBuf (holeBuf s) := by
  constructor
  · rw [holeBuf, vecHole_none_iff]
    constructor
    · rintro h r j ⟨rfl, hj⟩; exact h j (by omega) (by omega)
    · intro h j _ hj; exact h _ j ⟨rfl, by omega⟩
  · intro r j h
    obtain ⟨rfl, -, hj, hm⟩ := vecHole_some h
    exact ⟨⟨rfl, by omega⟩, hm⟩

/-- Everything recording can do (70_reset_and_hazards.md R113). -/
theorem recordsReads_of_first {s : State} {reads : RegName → Nat → Prop} {hole : Option (RegName × Nat)}
    (h : FirstHole s reads hole) : RecordsReads s reads (recordUnwritten hole s).unwrittenRead where
  held hs := by
    obtain ⟨p, hp⟩ := Option.ne_none_iff_exists'.mp hs
    simp [hp]
  clean hw := by simp [h.none_iff.mpr hw]
  made hs := by
    rintro ⟨r, j, hr, hw⟩
    cases hh : hole with
    | none => rw [h.none_iff.mp hh r j hr] at hw; cases hw
    | some p => exact ⟨p.1, p.2, by simp [hs], h.named p.1 p.2 hh⟩

/-- After a write of BUF whole no byte of it is unwritten. -/
@[simp] theorem holeBuf_writeBuf (x : Vec) (s : State) : holeBuf (writeBuf x s) = none := by
  rw [holeBuf, vecHole_none_iff]
  intro j _ hj
  rw [writeBuf_marks, allMarked, BitVec.getLsbD_allOnes]
  simpa using hj

/-! The instance's encodings and tables. -/

theorem readRows_of_written (mem : Memory) (base k : Nat)
    (h : ∀ i j, i < k → j < 32 → written mem (base + 32 * i + j)) :
    readRows (memVec mem) base k = .ok ((List.range k).map fun i => storeVec mem (base + 32 * i)) := by
  induction k with
  | zero => rfl
  | succ k ih =>
    simp only [readRows, ih fun i j hi hj => h i j (by omega) hj,
      memVec_of_written fun j hj => h k j (by omega) hj, List.range_succ, List.map_append, List.map_cons, List.map_nil]

theorem readEncoding_of_written {mem : Memory} {l c : Nat} (h : EncodingWritten mem l c) :
    readEncoding mem l c = .ok (storeMatrix mem l, storeVec mem c) := by
  have hm : (matOfRows fun i => ((List.range 256).map fun i => storeVec mem (l + 32 * i)).getD i 0) = storeMatrix mem l := by
    apply mat_ext
    intro i hi
    simp [storeMatrix, hi]
  unfold readEncoding
  rw [readRows_of_written mem l 256 h.1, memVec_of_written h.2, ← hm]
  rfl

theorem written_of_readRows {mem : Memory} {base k : Nat} {rows : List Vec} (h : readRows (memVec mem) base k = .ok rows) :
    ∀ i j, i < k → j < 32 → written mem (base + 32 * i + j) := by
  induction k generalizing rows with
  | zero => intro i j hi; omega
  | succ k ih =>
    simp only [readRows] at h
    split at h
    · cases h
    · next rs hrs =>
      split at h
      · cases h
      · next x hx =>
        intro i j hi hj
        by_cases hik : i = k
        · subst hik; exact written_of_memBytes hx j hj
        · exact ih hrs i j (by omega) hj

/-- An encoding that is read was written whole (70_reset_and_hazards.md R113). -/
theorem written_of_readEncoding {mem : Memory} {l c : Nat} {f : BitMatrix × Vec} (h : readEncoding mem l c = .ok f) :
    EncodingWritten mem l c := by
  unfold readEncoding at h
  cases hr : readRows (memVec mem) l 256 with
  | error e => rw [hr] at h; cases h
  | ok rows =>
    cases hc : memVec mem c with
    | error e => rw [hr] at h; simp only [bind, Except.bind, hc] at h; cases h
    | ok x => exact ⟨written_of_readRows hr, written_of_memBytes hc⟩

/-- Entries that are looked up were written (70_reset_and_hazards.md R113). -/
theorem written_of_xorEntries {mem : Memory} {ps : List Nat} {a b : Vec} (h : xorEntries (memVec mem) ps a = .ok b) :
    ∀ p ∈ ps, ∀ j, j < 32 → written mem (p + j) := by
  induction ps generalizing a with
  | nil => simp
  | cons q qs ih =>
    simp only [xorEntries] at h
    split at h
    · cases h
    · next t ht =>
      rintro p hp j hj
      rcases List.mem_cons.mp hp with rfl | hp
      · exact written_of_memBytes ht j hj
      · exact ih h p hp j hj

/-- The XOR of written entries, in any state of the accumulator. -/
theorem xorEntries_of_written (mem : Memory) (ps : List Nat) (a : Vec)
    (h : ∀ p ∈ ps, ∀ j, j < 32 → written mem (p + j)) :
    xorEntries (memVec mem) ps a = .ok (ps.foldl (fun x p => x ^^^ storeVec mem p) a) := by
  induction ps generalizing a with
  | nil => simp [xorEntries]
  | cons p ps ih =>
    simp only [xorEntries, memVec_of_written (h p (by simp)), List.foldl_cons]
    exact ih _ fun q hq => h q (by simp [hq])

theorem foldl_range_xorVecs (g : Nat → Vec) (k : Nat) :
    (List.range k).foldl (fun x i => x ^^^ g i) 0 = xorVecs g k := by
  induction k with
  | zero => rfl
  | succ k ih => rw [List.range_succ, List.foldl_append, ih]; rfl

/-- A round whose 32 entries were written gives the XOR of the 32 entries (42_evaluator.md R84). -/
theorem xorEntries_round {mem : Memory} {r : Nat} {s : Vec} (h : RoundWritten mem r s) :
    xorEntries (memVec mem) (roundAddrs r s) 0 = .ok (roundXor (tableEntry mem) r s) := by
  rw [xorEntries_of_written]
  · rw [roundAddrs, List.foldl_map, roundXor, ← foldl_range_xorVecs]
    rfl
  · intro p hp j hj
    simp only [roundAddrs, List.mem_map, List.mem_range] at hp
    obtain ⟨i, hi, rfl⟩ := hp
    exact h i j hi hj

/-! The stages of the evaluator, where the bytes they read were written. -/

theorem encodeBuf_of_written {s : State} {l c : Nat} (h : EncodingWritten s.store l c) :
    encodeBuf l c s = .ok (writeBuf (applyEncoding s.store l c s.buf) (recordUnwritten (holeBuf s) s)) := by
  have hv : affineApply 256 (storeMatrix s.store l) (storeVec s.store c) s.buf = applyEncoding s.store l c s.buf := by
    apply vec_ext
    intro j hj
    rw [affineApply_getLsbD _ _ _ _ _ (le_refl _), applyEncoding, AffineMap.apply_getLsbD]
    simp [hj]
  simp only [encodeBuf, readEncoding_of_written h, bind, Except.bind, pure, Except.pure, hv]

theorem roundStage_of_written {s : State} {r : Nat} (h : RoundWritten s.store r s.buf) :
    roundStage r s =
      .ok (writeBuf (roundXor (tableEntry s.store) r s.buf)
        (writeAcc (roundXor (tableEntry s.store) r s.buf) (writeIn s.buf (recordUnwritten (holeBuf s) s)))) := by
  simp only [roundStage, xorEntries_round h, bind, Except.bind, pure, Except.pure]

/-- Every byte below 32 is marked. -/
@[simp] theorem allMarked_getLsbD (j : Nat) : allMarked.getLsbD j = decide (j < 32) := by
  rw [allMarked, BitVec.getLsbD_allOnes]

end Sys2Proof.Machine
end

