-- ==== Sys2Proof/Laws/Exec.lean ====
section
/-! SUPPORT. What a command can do, said once: the inversion of every meaning and of exec, and what a fault of a command
names. -/

namespace Sys2Proof.Machine

/-! What a read that faults names (70_reset_and_hazards.md R113). -/

theorem dimBytes_le (n : Dim) : dimBytes n ≤ 32 := by cases n <;> decide

theorem memVec_error {mem : Memory} {a : Nat} {f : Fault} (h : memVec mem a = .error f) :
    ∃ j, j < 32 ∧ f = .unwrittenStore (a + j) ∧ memRead mem (a + j) = none := memBytes_error h

theorem readRows_error {mem : Memory} {base k : Nat} {f : Fault} (h : readRows (memVec mem) base k = .error f) :
    ∃ j, j < 32 * k ∧ f = .unwrittenStore (base + j) ∧ memRead mem (base + j) = none := by
  induction k with
  | zero => simp [readRows] at h
  | succ k ih =>
    simp only [readRows] at h
    split at h
    · next g hg =>
      cases h
      obtain ⟨j, hj, hf⟩ := ih hg
      exact ⟨j, by omega, hf⟩
    · split at h
      · next g hg =>
        cases h
        obtain ⟨j, hj, hf, hn⟩ := memVec_error hg
        exact ⟨32 * k + j, by omega, by rw [hf, Nat.add_assoc], by rw [← Nat.add_assoc]; exact hn⟩
      · cases h

theorem readEncoding_error {mem : Memory} {l c : Nat} {f : Fault} (h : readEncoding mem l c = .error f) :
    ∃ a, f = .unwrittenStore a ∧ memRead mem a = none ∧ ((l ≤ a ∧ a < l + 8192) ∨ (c ≤ a ∧ a < c + 32)) := by
  unfold readEncoding at h
  cases hr : readRows (memVec mem) l 256 with
  | error e =>
    rw [hr] at h
    cases h
    obtain ⟨j, hj, hf, hn⟩ := readRows_error hr
    exact ⟨l + j, hf, hn, .inl (by omega)⟩
  | ok rows =>
    cases hc : memVec mem c with
    | error e =>
      rw [hr] at h
      simp only [bind, Except.bind, hc] at h
      cases h
      obtain ⟨j, hj, hf, hn⟩ := memVec_error hc
      exact ⟨c + j, hf, hn, .inr (by omega)⟩
    | ok x =>
      rw [hr] at h
      simp only [bind, Except.bind, hc] at h
      cases h

/-- An encoding with an unwritten byte is not read: the read stops (70_reset_and_hazards.md R113). -/
theorem readEncoding_unwritten {mem : Memory} {l c : Nat} (h : ¬ EncodingWritten mem l c) :
    ∃ a, readEncoding mem l c = .error (.unwrittenStore a) := by
  cases hr : readEncoding mem l c with
  | ok x => exact absurd (written_of_readEncoding hr) h
  | error f => obtain ⟨a, rfl, -⟩ := readEncoding_error hr; exact ⟨a, rfl⟩

theorem xorEntries_error {mem : Memory} {ps : List Nat} {a : Vec} {f : Fault}
    (h : xorEntries (memVec mem) ps a = .error f) :
    ∃ p ∈ ps, ∃ j, j < 32 ∧ f = .unwrittenStore (p + j) ∧ memRead mem (p + j) = none := by
  induction ps generalizing a with
  | nil => simp [xorEntries] at h
  | cons p ps ih =>
    simp only [xorEntries] at h
    split at h
    · next g hg =>
      cases h
      obtain ⟨j, hj, hf⟩ := memVec_error hg
      exact ⟨p, by simp, j, hj, hf⟩
    · obtain ⟨q, hq, hf⟩ := ih h
      exact ⟨q, by simp [hq], hf⟩

/-- A round with an unwritten entry is not evaluated: it stops (70_reset_and_hazards.md R113). -/
theorem roundEntries_unwritten {mem : Memory} {r : Nat} {v : Vec} (h : ¬ RoundWritten mem r v) :
    ∃ a, xorEntries (memVec mem) (roundAddrs r v) 0 = .error (.unwrittenStore a) := by
  cases hx : xorEntries (memVec mem) (roundAddrs r v) 0 with
  | ok x =>
    refine absurd (fun i k hi hk => written_of_xorEntries hx _ ?_ k hk) h
    simp only [roundAddrs, List.mem_map, List.mem_range]
    exact ⟨i, hi, rfl⟩
  | error f => obtain ⟨p, -, j, -, rfl, -⟩ := xorEntries_error hx; exact ⟨_, rfl⟩

/-- A table entry of a round 1..10 lies in TBL whole (20_memory.md R44). -/
theorem isStore_tableAddr {r i x y j : Nat} (h1 : 1 ≤ r) (h10 : r ≤ 10) (hi : i < 32) (hx : x < 256) (hy : y < 256)
    (hj : j < 32) : isStore (tableAddr r i x y + j) = true := by
  rw [isStore_iff]
  simp only [tableAddr, Config.tblBase]
  omega

/-! What the stages of the evaluator can do. -/

theorem encodeBuf_cases {l c : Nat} {s : State} :
    (∃ x, encodeBuf l c s = .ok (writeBuf x (recordUnwritten (holeBuf s) s))) ∨
    (∃ f, encodeBuf l c s = .error f ∧ readEncoding s.store l c = .error f) := by
  unfold encodeBuf
  cases he : readEncoding s.store l c with
  | error e => exact .inr ⟨e, rfl, rfl⟩
  | ok x => exact .inl ⟨_, rfl⟩

theorem roundStage_cases {r : Nat} {s : State} :
    (∃ a, roundStage r s = .ok (writeBuf a (writeAcc a (writeIn s.buf (recordUnwritten (holeBuf s) s))))) ∨
    (∃ f, roundStage r s = .error f ∧ xorEntries (memVec s.store) (roundAddrs r s.buf) 0 = .error f) := by
  unfold roundStage
  cases hx : xorEntries (memVec s.store) (roundAddrs r s.buf) 0 with
  | error e => exact .inr ⟨e, by simp only [bind, Except.bind], rfl⟩
  | ok a => exact .inl ⟨a, by simp only [bind, Except.bind, pure, Except.pure]⟩

theorem roundStages_succ (k : Nat) (s : State) :
    roundStages (k + 1) s =
      match roundStages k s with
      | .error f => .error f
      | .ok t => roundStage (k + 1) t := by
  simp only [roundStages, bind, Except.bind]
  cases roundStages k s <;> rfl

/-- The rounds, from a written BUF, write BUF, IN and ACC whole and nothing else. -/
theorem roundStages_ok {k : Nat} {s t : State} (hk : 0 < k) (hs : holeBuf s = none) (h : roundStages k s = .ok t) :
    ∃ a b, t = writeBuf a (writeAcc a (writeIn b s)) := by
  induction k generalizing t with
  | zero => omega
  | succ k ih =>
    rw [roundStages_succ] at h
    split at h
    · cases h
    · next u hu =>
      obtain ⟨a, ha⟩ | ⟨f, hf, _⟩ := roundStage_cases (r := k + 1) (s := u)
      · rw [ha] at h
        cases h
        rcases Nat.eq_zero_or_pos k with rfl | hpos
        · cases hu
          exact ⟨a, _, by rw [hs, recordUnwritten_none]⟩
        · obtain ⟨a', b', rfl⟩ := ih hpos hu
          exact ⟨a, a', by rw [holeBuf_writeBuf, recordUnwritten_none]; rfl⟩
      · rw [hf] at h; cases h

theorem foutStage_ok {s t : State} (h : foutStage s = .ok t) :
    (s.outPresent = false ∧ t = s) ∨ (s.outPresent = true ∧ ∃ x, t = writeBuf x (recordUnwritten (holeBuf s) s)) := by
  unfold foutStage at h
  split at h
  · next hp =>
    obtain ⟨x, hx⟩ | ⟨f, hf, _⟩ := encodeBuf_cases (l := Config.foutL) (c := Config.foutC) (s := s)
    · rw [hx] at h; cases h; exact .inr ⟨hp, x, rfl⟩
    · rw [hf] at h; cases h
  · next hp => cases h; exact .inl ⟨by simpa using hp, rfl⟩

theorem finStage_ok {s t : State} (h : finStage s = .ok t) : ∃ x, t = writeBuf x (recordUnwritten (holeBuf s) s) := by
  obtain ⟨x, hx⟩ | ⟨f, hf, _⟩ := encodeBuf_cases (l := Config.finL) (c := Config.finC) (s := s)
  · rw [finStage, hx] at h; cases h; exact ⟨x, rfl⟩
  · rw [finStage, hf] at h; cases h

theorem evalStages_ok {s t : State} (h : evalStages s = .ok t) :
    ∃ x a b, t = writeBuf x (writeAcc a (writeIn b (recordUnwritten (holeBuf s) s))) := by
  unfold evalStages at h
  cases h1 : finStage s with
  | error f => rw [h1] at h; cases h
  | ok u =>
    rw [h1] at h
    simp only [bind, Except.bind] at h
    cases h2 : roundStages 10 u with
    | error f => rw [h2] at h; cases h
    | ok w =>
      rw [h2] at h
      obtain ⟨x0, rfl⟩ := finStage_ok h1
      obtain ⟨a, b, rfl⟩ := roundStages_ok (by omega) (holeBuf_writeBuf _ _) h2
      obtain ⟨-, rfl⟩ | ⟨-, x, rfl⟩ := foutStage_ok h
      · exact ⟨a, a, b, rfl⟩
      · exact ⟨x, a, b, by rw [holeBuf_writeBuf, recordUnwritten_none]; rfl⟩

/-! What a command leaves, before its completion: one of these states of `s`. -/

/-- The states a command can leave, apart from BUSY and DONE (60_exceptions.md R96). -/
inductive CommandEffect (s : State) : Instr → State → Prop where
  | nop : CommandEffect s .nop s
  | mident (n d x) : CommandEffect s (.mident n d) (writeM d x s)
  | mmul (n d s1 s2 x) : CommandEffect s (.mmul n d s1 s2) (writeM d x s)
  | minv (n d src x) : CommandEffect s (.minv n d src) (writeM d x s)
  | minvDomain (n d src) : CommandEffect s (.minv n d src) (recordError .domain s)
  | mapply (n d m src x) : CommandEffect s (.mapply n d m src) (writeV d x s)
  | meq (n s1 s2 b) : CommandEffect s (.meq n s1 s2) (setEq b s)
  | aapply (n d a src x) : n.affine = true → CommandEffect s (.aapply n d a src) (writeV d x s)
  | acomp (n d s1 s2 l c) : n.affine = true → CommandEffect s (.acomp n d s1 s2) (writeA d l c s)
  | ainv (n d src l c) : n.affine = true → CommandEffect s (.ainv n d src) (writeA d l c s)
  | ainvDomain (n d src) : n.affine = true → CommandEffect s (.ainv n d src) (recordError .domain s)
  | eval (x a b) : CommandEffect s .eval (writeBuf x (writeAcc a (writeIn b s)))
  | evalFin (x) : CommandEffect s .evalFin (writeBuf x s)
  | evalRound (r a b) : roundLegal r = true → CommandEffect s (.evalRound r) (writeBuf a (writeAcc a (writeIn b s)))
  | evalFout (x) : s.outPresent = true → CommandEffect s .evalFout (writeBuf x s)
  | evalFoutAbsent : s.outPresent = false → CommandEffect s .evalFout s
  | illegal (i) : i.wellFormed = false → CommandEffect s i (recordError .illegal s)

/-- The inversion of exec: a next state is the completion of one of the command's effects, on the state in which the command's
reads of unwritten bytes are recorded; an ill-formed command reads none. -/
theorem exec_next {i : Instr} {s t : State} (h : exec i s = .next t) :
    ∃ hole u, t = complete u ∧ CommandEffect (recordUnwritten hole s) i u ∧
      (i.wellFormed = true → FirstHole s (ReadsByte i s) hole) ∧ (i.wellFormed = false → hole = none) := by
  have illegal : ∀ j : Instr, j.wellFormed = false → complete (recordError .illegal s) = t →
      ∃ hole u, t = complete u ∧ CommandEffect (recordUnwritten hole s) j u ∧
        (j.wellFormed = true → FirstHole s (ReadsByte j s) hole) ∧ (j.wellFormed = false → hole = none) := by
    intro j hj ht
    refine ⟨none, _, ht.symm, ?_, fun h => ?_, fun _ => rfl⟩
    · rw [recordUnwritten_none]; exact .illegal _ hj
    · rw [hj] at h; cases h
  have legal : ∀ (j : Instr) (hole : Option (RegName × Nat)) (u : State), FirstHole s (ReadsByte j s) hole → j.wellFormed = true →
      complete u = t → CommandEffect (recordUnwritten hole s) j u →
      ∃ hole u, t = complete u ∧ CommandEffect (recordUnwritten hole s) j u ∧
        (j.wellFormed = true → FirstHole s (ReadsByte j s) hole) ∧ (j.wellFormed = false → hole = none) :=
    fun j hole u hf hw ht hu => ⟨hole, u, ht.symm, hu, fun _ => hf, fun h => by rw [hw] at h; cases h⟩
  cases i with
  | nop =>
    simp only [exec, execNop, finish_next] at h
    exact legal _ none _ (firstHole_none s) rfl h (by rw [recordUnwritten_none]; exact .nop)
  | mident n d =>
    simp only [exec, execMident, finish_next] at h
    exact legal _ none _ (firstHole_none s) rfl h (by rw [recordUnwritten_none]; exact .mident ..)
  | mmul n d s1 s2 =>
    simp only [exec, execMmul, finish_next] at h
    exact legal _ _ _ ((holeM_first n s1 s).or (holeM_first n s2 s)) rfl h (.mmul ..)
  | minv n d src =>
    simp only [exec, execMinv] at h
    split at h
    · exact legal _ _ _ (holeM_first n src s) rfl ((raise_next ..).mp h) (.minvDomain ..)
    · exact legal _ _ _ (holeM_first n src s) rfl ((finish_next ..).mp h) (.minv ..)
  | mapply n d m src =>
    simp only [exec, execMapply, finish_next] at h
    exact legal _ _ _ ((holeM_first n m s).or (holeV_first n src s)) rfl h (.mapply ..)
  | meq n s1 s2 =>
    simp only [exec, execMeq, finish_next] at h
    exact legal _ _ _ ((holeM_first n s1 s).or (holeM_first n s2 s)) rfl h (.meq ..)
  | aapply n d a src =>
    simp only [exec, execAapply, requireLegal_next, finish_next, raise_next] at h
    obtain ⟨hn, h⟩ | ⟨hn, h⟩ := h
    · exact legal _ _ _ ((holeA_first n a s).or (holeV_first n src s)) hn h (.aapply _ _ _ _ _ hn)
    · exact illegal _ hn h
  | acomp n d s1 s2 =>
    simp only [exec, execAcomp, requireLegal_next, finish_next, raise_next] at h
    obtain ⟨hn, h⟩ | ⟨hn, h⟩ := h
    · exact legal _ _ _ ((holeA_first n s1 s).or (holeA_first n s2 s)) hn h (.acomp _ _ _ _ _ _ hn)
    · exact illegal _ hn h
  | ainv n d src =>
    simp only [exec, execAinv, requireLegal_next] at h
    obtain ⟨hn, h⟩ | ⟨hn, h⟩ := h
    · split at h
      · exact legal _ _ _ (holeA_first n src s) hn ((raise_next ..).mp h) (.ainvDomain _ _ _ hn)
      · exact legal _ _ _ (holeA_first n src s) hn ((finish_next ..).mp h) (.ainv _ _ _ _ _ hn)
    · exact illegal _ hn ((raise_next ..).mp h)
  | eval =>
    simp only [exec, execEval, operand_next, finish_next] at h
    obtain ⟨u, hu, h⟩ := h
    obtain ⟨x, a, b, rfl⟩ := evalStages_ok hu
    exact legal _ _ _ (holeBuf_first s) rfl h (.eval ..)
  | evalFin =>
    simp only [exec, execEvalFin, operand_next, finish_next] at h
    obtain ⟨u, hu, h⟩ := h
    obtain ⟨x, rfl⟩ := finStage_ok hu
    exact legal _ _ _ (holeBuf_first s) rfl h (.evalFin ..)
  | evalRound r =>
    simp only [exec, execEvalRound, requireLegal_next, operand_next, finish_next, raise_next] at h
    obtain ⟨hr, u, hu, h⟩ | ⟨hr, h⟩ := h
    · obtain ⟨a, ha⟩ | ⟨f, hf, _⟩ := roundStage_cases (r := r.toNat) (s := s)
      · rw [ha] at hu
        cases hu
        exact legal _ _ _ (holeBuf_first s) hr h (.evalRound _ _ _ hr)
      · rw [hf] at hu; cases hu
    · exact illegal _ hr h
  | evalFout =>
    simp only [exec, execEvalFout, operand_next, finish_next] at h
    obtain ⟨u, hu, h⟩ := h
    obtain ⟨hp, rfl⟩ | ⟨hp, x, rfl⟩ := foutStage_ok hu
    · refine legal _ none _ ⟨by simp [ReadsByte, hp], by simp⟩ rfl h ?_
      rw [recordUnwritten_none]; exact .evalFoutAbsent hp
    · have he : ReadsByte .evalFout s = InBuf := by
        funext r j; simp [ReadsByte, hp]
      exact legal _ _ _ (he ▸ holeBuf_first s) rfl h (.evalFout _ hp)

/-- What a command leaves in the record of unwritten reads (70_reset_and_hazards.md R113). -/
theorem exec_records {i : Instr} {s t : State} (hw : i.wellFormed = true) (h : exec i s = .next t) :
    RecordsReads s (ReadsByte i s) t.unwrittenRead := by
  obtain ⟨hole, u, rfl, hu, hf, -⟩ := exec_next h
  have : u.unwrittenRead = (recordUnwritten hole s).unwrittenRead := by cases hu <;> simp [writeA]
  rw [complete_unwrittenRead, this]
  exact recordsReads_of_first (hf hw)

end Sys2Proof.Machine
end

