-- ==== Sys2Proof/Laws/Bus.lean ====
section
/-! SUPPORT. What a host access can do, said once, and the canonical form kept by every operation of the machine. -/

namespace Sys2Proof.Machine

/-- A read changes only the response, the draw counter and the record of unwritten reads (20_memory.md R49). -/
theorem hostRead32_next {a : Word32} {s t : State} (h : hostRead32 a s = .next t) :
    ∃ d n hole, t = { s with response := some (.data d), draws := n, unwrittenRead := s.unwrittenRead.or hole } := by
  have plain : ∀ d, answer d s = .next t →
      ∃ d n hole, t = { s with response := some (.data d), draws := n, unwrittenRead := s.unwrittenRead.or hole } := by
    intro d h
    cases h
    exact ⟨d, s.draws, none, by rw [Option.or_none]⟩
  have hop : ∀ hole d, readOperand hole d s = .next t →
      ∃ d n hole, t = { s with response := some (.data d), draws := n, unwrittenRead := s.unwrittenRead.or hole } := by
    intro hole d h
    unfold readOperand at h
    split at h
    · cases h; exact ⟨_, _, none, by rw [Option.or_none]⟩
    · cases h; exact ⟨_, _, _, rfl⟩
  unfold hostRead32 at h
  split at h
  · cases h
  · split at h
    · cases h
    iterate 9 (exact plain _ h)
    iterate 5 (exact hop _ _ h)
    obtain ⟨v, _, h⟩ := operand_next.mp h
    exact plain _ h

/-- What a host write leaves, apart from the response (20_memory.md R48). -/
inductive HostEffect (a d : Word32) (s : State) : State → Prop where
  | ignored : HostEffect a d s s
  | overrun : s.busy = true → HostEffect a d s (overrun s)
  | accepted : s.busy = false → a = 0x010#32 → HostEffect a d s (accept d s)
  | status : a = 0x00C#32 → HostEffect a d s (writeStatus d s)
  | ctrl : a = 0x008#32 → HostEffect a d s (writeCtrl d s)
  | instFlags : s.busy = false → HostEffect a d s (writeInstFlags d s)
  | instVersion : s.busy = false → HostEffect a d s (writeInstVersion d s)
  | instScheme : s.busy = false → HostEffect a d s (writeInstScheme d s)
  | vector (k w) : s.busy = false → HostEffect a d s (writeVWord k w d s)
  | buffer (w) : s.busy = false → HostEffect a d s (writeBufWord w d s)
  | matrix (k i w) : s.busy = false → HostEffect a d s (writeMWord k i w d s)
  | store (b) : s.busy = false → isStore b = true → b % 4 = 0 → HostEffect a d s (writeStoreWord b d s)

theorem locate_store {a b : Nat} (h : locate a = .store b) : b = a ∧ isStore a = true := by
  unfold locate at h
  iterate 7
    split at h
    · first
      | cases h
      | (unfold locateCsr at h; repeat (first | cases h | split at h))
  split at h
  · next hs => cases h; exact ⟨rfl, hs⟩
  · cases h

/-! The address map, region by region (20_memory.md R38 to R44). -/

/-- What a word address names is nothing exactly outside the mapped ranges. -/
theorem locate_reserved_iff {a : Nat} (h4 : a % 4 = 0) :
    locate a = .reserved ↔ ¬ (a ≤ 0x23 ∨ (0x1000 ≤ a ∧ a < 0x1160) ∨ (0x8000 ≤ a ∧ a < 0x10000) ∨ isStore a = true) := by
  have hs := isStore_iff a
  have e1 : Config.bufBase = 0x1100 := rfl
  have e2 : Config.inBase = 0x1120 := rfl
  have e3 : Config.accBase = 0x1140 := rfl
  have e4 : Config.matBase = 0x8000 := rfl
  have e5 : Config.finL = 0x10000 := rfl
  unfold locate
  split
  · unfold locateCsr
    have hns : ¬ isStore a = true := fun h => by have := hs.mp h; omega
    repeat' split
    all_goals simp only [reduceCtorEq, false_iff, true_iff, not_not, hns, or_false]
    all_goals omega
  · split
    · simp only [reduceCtorEq, false_iff, not_not]; omega
    · split
      · simp only [reduceCtorEq, false_iff, not_not]; omega
      · split
        · simp only [reduceCtorEq, false_iff, not_not]; omega
        · split
          · simp only [reduceCtorEq, false_iff, not_not]; omega
          · split
            · have hns : ¬ isStore a = true := fun h => by have := hs.mp h; omega
              simp only [true_iff]
              rintro (h | h | h | h) <;> first | omega | exact hns h
            · split
              · simp only [reduceCtorEq, false_iff, not_not]; omega
              · split
                · next h => simp only [reduceCtorEq, false_iff, not_not, h, or_true]
                · next hn =>
                  simp only [true_iff]
                  rintro (h | h | h | h) <;> first | omega | exact hn h

/-- V[k], word `w` (20_memory.md R40). -/
theorem locate_vector (k : VReg) {w : Nat} (hw : w < 8) : locate (0x1000 + 0x20 * k.val + 4 * w) = .v k w := by
  have hk := k.isLt
  have e0 : Config.vecBase = 0x1000 := rfl
  have e1 : Config.bufBase = 0x1100 := rfl
  unfold locate
  rw [if_neg (by omega), if_pos (by omega)]
  have h1 : (0x1000 + 0x20 * k.val + 4 * w - Config.vecBase) / 32 = k.val := by omega
  have h2 : wordIndex (0x1000 + 0x20 * k.val + 4 * w - Config.vecBase) = w := by unfold wordIndex; omega
  rw [h1, h2]
  congr 1
  exact Fin.ofNat_val_eq_self k

/-- BUF, word `w` (20_memory.md R41). -/
theorem locate_buffer {w : Nat} (hw : w < 8) : locate (0x1100 + 4 * w) = .buf w := by
  have e1 : Config.bufBase = 0x1100 := rfl
  have e2 : Config.inBase = 0x1120 := rfl
  unfold locate
  rw [if_neg (by omega), if_neg (by omega), if_pos (by omega)]
  congr 1
  unfold wordIndex
  omega

/-- IN, word `w` (20_memory.md R41). -/
theorem locate_snapshot {w : Nat} (hw : w < 8) : locate (0x1120 + 4 * w) = .inp w := by
  have e1 : Config.bufBase = 0x1100 := rfl
  have e2 : Config.inBase = 0x1120 := rfl
  have e3 : Config.accBase = 0x1140 := rfl
  unfold locate
  rw [if_neg (by omega), if_neg (by omega), if_neg (by omega), if_pos (by omega)]
  congr 1
  unfold wordIndex
  omega

/-- ACC, word `w` (20_memory.md R41). -/
theorem locate_accumulator {w : Nat} (hw : w < 8) : locate (0x1140 + 4 * w) = .acc w := by
  have e1 : Config.bufBase = 0x1100 := rfl
  have e2 : Config.inBase = 0x1120 := rfl
  have e3 : Config.accBase = 0x1140 := rfl
  unfold locate
  rw [if_neg (by omega), if_neg (by omega), if_neg (by omega), if_neg (by omega), if_pos (by omega)]
  congr 1
  unfold wordIndex
  omega

/-- M[k], row `i`, word `w` (20_memory.md R42). -/
theorem locate_matrix (k : MReg) {i w : Nat} (hi : i < 256) (hw : w < 8) :
    locate (0x8000 + 0x2000 * k.val + 0x20 * i + 4 * w) = .m k i w := by
  have hk := k.isLt
  have e1 : Config.bufBase = 0x1100 := rfl
  have e2 : Config.inBase = 0x1120 := rfl
  have e3 : Config.accBase = 0x1140 := rfl
  have e4 : Config.matBase = 0x8000 := rfl
  have e5 : Config.finL = 0x10000 := rfl
  unfold locate
  rw [if_neg (by omega), if_neg (by omega), if_neg (by omega), if_neg (by omega), if_neg (by omega), if_neg (by omega),
    if_pos (by omega)]
  have h1 : (0x8000 + 0x2000 * k.val + 0x20 * i + 4 * w - Config.matBase) / 0x2000 = k.val := by omega
  have h2 : (0x8000 + 0x2000 * k.val + 0x20 * i + 4 * w - Config.matBase) / 32 % 256 = i := by omega
  have h3 : wordIndex (0x8000 + 0x2000 * k.val + 0x20 * i + 4 * w - Config.matBase) = w := by unfold wordIndex; omega
  rw [h1, h2, h3]
  congr 1
  exact Fin.ofNat_val_eq_self k

/-- The instance store (20_memory.md R43, R44). -/
theorem locate_isStore {a : Nat} (h : isStore a = true) : locate a = .store a := by
  have hs := (isStore_iff a).mp h
  have e1 : Config.bufBase = 0x1100 := rfl
  have e2 : Config.inBase = 0x1120 := rfl
  have e3 : Config.accBase = 0x1140 := rfl
  have e4 : Config.matBase = 0x8000 := rfl
  have e5 : Config.finL = 0x10000 := rfl
  unfold locate
  rw [if_neg (by omega), if_neg (by omega), if_neg (by omega), if_neg (by omega), if_neg (by omega), if_neg (by omega),
    if_neg (by omega), if_pos h]

/-- A write to STATUS, field by field (10_state.md R26). -/
theorem writeStatus_eq (d : Word32) (s : State) :
    writeStatus d s =
      { s with
        done := s.done && !d.getLsbD 1
        err := s.err && !d.getLsbD 2
        errcode := if d.getLsbD 2 then 0 else s.errcode
        errinfo := if d.getLsbD 2 then 0 else s.errinfo
        ovr := s.ovr && !d.getLsbD 3 } := by
  unfold writeStatus
  cases d.getLsbD 1 <;> cases d.getLsbD 2 <;> cases d.getLsbD 3 <;> simp [clearDone, clearError, clearOvr]

theorem locate_csr {a : Nat} {l : Loc} (h : locate a = l) (hl : l = .cmd ∨ l = .status ∨ l = .ctrl) :
    (l = .cmd → a = 0x010) ∧ (l = .status → a = 0x00C) ∧ (l = .ctrl → a = 0x008) := by
  unfold locate at h
  split at h
  · unfold locateCsr at h
    repeat (first | (split at h; swap) | (subst h; simp_all))
  · repeat (first | (split at h; swap) | (subst h; simp at hl))

/-- The marks after a host write of word `w` (70_reset_and_hazards.md R113). -/
theorem markWord_getLsbD (mk : ByteMarks) {w j : Nat} (hw : w < 8) (hj : j < 32) :
    (markWord mk w).getLsbD j = (decide (j / 4 = w) || mk.getLsbD j) := by
  have h : ∀ w, w < 8 → ∀ j, j < 32 → (0xF#32 <<< (4 * w)).getLsbD j = decide (j / 4 = w) := by decide +kernel
  rw [markWord, BitVec.getLsbD_or, h w hw j hj, Bool.or_comm]

/-- The bytes of a value after a host write of word `w` (20_memory.md R36, R37). -/
theorem byteOf_setWord (v : Vec) (w : Nat) (d : Word32) {j : Nat} (hj : j < 32) :
    byteOf (setWord v w d) j = if j / 4 = w then d.extractLsb' (8 * (j % 4)) 8 else byteOf v j := by
  apply BitVec.eq_of_getLsbD_eq
  intro b hb
  rw [byteOf_getLsbD, setWord_getLsbD, show (8 * j + b) / 32 = j / 4 by omega, show (8 * j + b) % 32 = 8 * (j % 4) + b by omega]
  split
  · simp [hb, show 8 * j + b < 256 by omega]
  · rw [byteOf_getLsbD]
    simp [hb, show 8 * j + b < 256 by omega]

theorem word_eq_of_toNat {a : Word32} {n : Nat} (h : a.toNat = n) (hn : n < 2 ^ 32) : a = BitVec.ofNat 32 n := by
  apply BitVec.eq_of_toNat_eq
  rw [h, BitVec.toNat_ofNat, Nat.mod_eq_of_lt hn]

/-- The inversion of a host write. -/
theorem hostWrite32_next {a d : Word32} {s t : State} (h : hostWrite32 a d s = .next t) :
    ∃ u, t = { u with response := some .okay } ∧ HostEffect a d s u := by
  have hlock : ∀ v, lockedWrite s v = .next t → (s.busy = false → HostEffect a d s v) →
      ∃ u, t = { u with response := some .okay } ∧ HostEffect a d s u := by
    intro v h hv
    unfold lockedWrite at h
    split at h
    · next hb => cases h; exact ⟨_, rfl, .overrun hb⟩
    · next hb => cases h; exact ⟨_, rfl, hv (by simpa using hb)⟩
  unfold hostWrite32 at h
  split at h
  · cases h
  next hal =>
  split at h
  · cases h
  iterate 5 (cases h; exact ⟨s, rfl, .ignored⟩)
  · next hl =>
    split at h
    · next hb => cases h; exact ⟨_, rfl, .overrun hb⟩
    · next hb =>
      cases h
      exact ⟨_, rfl, .accepted (by simpa using hb)
        (word_eq_of_toNat ((locate_csr hl (.inl rfl)).1 rfl) (by decide))⟩
  · next hl =>
    cases h
    exact ⟨_, rfl, .status (word_eq_of_toNat ((locate_csr hl (.inr (.inl rfl))).2.1 rfl) (by decide))⟩
  · next hl =>
    cases h
    exact ⟨_, rfl, .ctrl (word_eq_of_toNat ((locate_csr hl (.inr (.inr rfl))).2.2 rfl) (by decide))⟩
  · exact hlock _ h .instFlags
  · exact hlock _ h .instVersion
  · exact hlock _ h .instScheme
  · exact hlock _ h (.vector _ _)
  · exact hlock _ h (.buffer _)
  · exact hlock _ h (.matrix _ _ _)
  · next b hl =>
    obtain ⟨rfl, hs⟩ := locate_store hl
    exact hlock _ h fun hb => .store _ hb hs (by omega)

/-- A host write keeps the canonical form of the instance store. -/
theorem hostEffect_wf {a d : Word32} {s u : State} (h : HostEffect a d s u) (hw : Memory.wf s.store) :
    Memory.wf u.store := by
  cases h <;> first | exact hw | (rw [writeStatus_store]; exact hw) | exact memWriteWord_wf _ _ _ hw

/-- A host write lists only addresses of the instance store. -/
theorem hostEffect_inStore {a d : Word32} {s u : State} (h : HostEffect a d s u) (hw : Memory.inStore s.store) :
    Memory.inStore u.store := by
  cases h with
  | store b _ hb h4 => exact memWriteWord_inStore _ _ _ hb h4 hw
  | status _ => rw [writeStatus_store]; exact hw
  | _ => exact hw

/-- The reset state's instance store is in canonical form. -/
theorem reset_store_wf : Memory.wf State.reset.store := by simp [Memory.wf, State.reset]

end Sys2Proof.Machine
end

