-- ==== Sys2Proof/Laws/Encoding.lean ====
section
/-! SUPPORT. The fields of an assembled word (30_encoding.md R56). -/

namespace Sys2Proof

/-- The fields of an assembled word are the ones it was assembled from, and RSV is 0. -/
theorem assembleWord_fields (op : BitVec 8) (dim : BitVec 2) (rd rs1 rs2 : BitVec 3) (rnd : BitVec 4) :
    opField (assembleWord op dim rd rs1 rs2 rnd) = op ∧ dimField (assembleWord op dim rd rs1 rs2 rnd) = dim ∧
    rdField (assembleWord op dim rd rs1 rs2 rnd) = rd ∧ rs1Field (assembleWord op dim rd rs1 rs2 rnd) = rs1 ∧
    rs2Field (assembleWord op dim rd rs1 rs2 rnd) = rs2 ∧ rndField (assembleWord op dim rd rs1 rs2 rnd) = rnd ∧
    rsvField (assembleWord op dim rd rs1 rs2 rnd) = 0 := by
  simp only [opField, dimField, rdField, rs1Field, rs2Field, rndField, rsvField, assembleWord]
  refine ⟨?_, ?_, ?_, ?_, ?_, ?_, ?_⟩ <;>
  · apply BitVec.eq_of_getLsbD_eq
    intro j hj
    simp only [BitVec.getLsbD_extractLsb', hj, decide_true, Bool.true_and, BitVec.getLsbD_append]
    repeat' split
    all_goals first | omega | (congr 1; omega)

/-- A word is assembled from its fields if RSV is 0. -/
theorem assembleWord_of_fields (w : Word32) (h : rsvField w = 0) :
    assembleWord (opField w) (dimField w) (rdField w) (rs1Field w) (rs2Field w) (rndField w) = w := by
  apply BitVec.eq_of_getLsbD_eq
  intro j hj
  have hz : ∀ i, i < 9 → w.getLsbD i = false := by
    intro i hi
    have := congrArg (fun f : BitVec 9 => f.getLsbD i) h
    simpa [rsvField, hi] using this
  simp only [opField, dimField, rdField, rs1Field, rs2Field, rndField, assembleWord, BitVec.getLsbD_append,
    BitVec.getLsbD_extractLsb']
  repeat' split
  · next h9 => rw [hz j h9]; simp
  all_goals
    rw [decide_eq_true (by omega), Bool.true_and]
    congr 1
    omega

/-- A register number's field is the number. -/
theorem regCode_toNat {k : Nat} (r : Fin k) (hk : k ≤ 8) : (regCode r).toNat = r.val := by
  have := r.isLt
  simp only [regCode, BitVec.toNat_ofNat]
  omega

end Sys2Proof
end

