-- ==== Sys2Proof/Laws/Inverse.lean ====
section
/-! SUPPORT. Everything Gauss–Jordan inversion can do, said once: a two-sided inverse, zero outside the leading view, or none
and a non-zero vector that the matrix maps to 0 (00_scope.md R9, 40_gf2_matrix.md R69). -/

namespace Sys2Proof.Machine

/-- The XOR over `j < n` of the products of the bits of a row and of `v`. -/
def rowDot (n : Nat) (r : Vec) (v : Nat → Bool) : Bool := xorBelow (fun j => r.getLsbD j && v j) n

theorem rowDot_xor (n : Nat) (a b : Vec) (v : Nat → Bool) : rowDot n (a ^^^ b) v = (rowDot n a v ^^ rowDot n b v) := by
  rw [rowDot, rowDot, rowDot, ← xorBelow_xor]
  apply xorBelow_congr
  intro j _
  rw [BitVec.getLsbD_xor]
  cases a.getLsbD j <;> cases b.getLsbD j <;> cases v j <;> rfl

theorem rowComb_xor (a b : Vec) (x : BitMatrix) (n : Nat) : rowComb (a ^^^ b) x n = rowComb a x n ^^^ rowComb b x n := by
  apply vec_ext
  intro j _
  rw [BitVec.getLsbD_xor, rowComb_getLsbD, rowComb_getLsbD, rowComb_getLsbD]
  exact rowDot_xor n a b fun i => entry x i j

theorem rowComb_twoPow (x : BitMatrix) {i n : Nat} (hi : i < n) (hn : n ≤ 256) :
    rowComb (BitVec.twoPow 256 i) x n = row x i := by
  apply vec_ext
  intro j _
  rw [rowComb_getLsbD, xorBelow_single _ hi]
  · simp [entry, show i < 256 by omega]
  · intro k _ hk
    simp [BitVec.getLsbD_twoPow, hk.symm]

theorem takePivot_some {c : Nat} {l rest : List (Vec × Vec)} {p : Vec × Vec} (h : takePivot c l = some (p, rest)) :
    p.1.getLsbD c = true ∧ l.Perm (p :: rest) := by
  induction l generalizing p rest with
  | nil => simp [takePivot] at h
  | cons r rs ih =>
    simp only [takePivot] at h
    split at h
    · next hr => cases h; exact ⟨hr, List.Perm.refl _⟩
    · split at h
      · next q qs hq =>
        cases h
        obtain ⟨h1, h2⟩ := ih hq
        exact ⟨h1, (h2.cons r).trans (List.Perm.swap ..)⟩
      · cases h

theorem takePivot_none {c : Nat} {l : List (Vec × Vec)} (h : takePivot c l = none) :
    ∀ r ∈ l, r.1.getLsbD c = false := by
  induction l with
  | nil => simp
  | cons r rs ih =>
    simp only [takePivot] at h
    split at h
    · cases h
    · next hr =>
      split at h
      · cases h
      · next hq => simpa [hr] using ih hq

/-- What every stage of the reduction of `x` keeps: each pair's first row is the combination of rows of `x` that its second
row says, the finished pivots are reduced in the columns below `c`, the others are 0 there, and what they all map to 0, `x`
maps to 0. -/
structure Reduced (n : Nat) (x : BitMatrix) (c : Nat) (finished todo : List (Vec × Vec)) : Prop where
  length : finished.length = c
  comb : ∀ r ∈ finished ++ todo, r.1 = rowComb r.2 x n ∧ ∀ j, n ≤ j → r.2.getLsbD j = false
  pivots : ∀ i (h : i < finished.length) j, j < c → finished[i].1.getLsbD j = decide (i = j)
  below : ∀ r ∈ todo, ∀ j, j < c → r.1.getLsbD j = false
  kernel : ∀ v, (∀ r ∈ finished ++ todo, rowDot n r.1 v = false) → ∀ i, i < n → rowDot n (row x i) v = false

theorem clearColumn_comb {n : Nat} {x : BitMatrix} {c : Nat} {p r : Vec × Vec}
    (hp : p.1 = rowComb p.2 x n ∧ ∀ j, n ≤ j → p.2.getLsbD j = false)
    (hr : r.1 = rowComb r.2 x n ∧ ∀ j, n ≤ j → r.2.getLsbD j = false) :
    (clearColumn c p r).1 = rowComb (clearColumn c p r).2 x n ∧
      ∀ j, n ≤ j → (clearColumn c p r).2.getLsbD j = false := by
  unfold clearColumn
  split
  · refine ⟨by rw [rowComb_xor, ← hp.1, ← hr.1], fun j hj => ?_⟩
    rw [BitVec.getLsbD_xor, hp.2 j hj, hr.2 j hj]
    rfl
  · exact hr

theorem clearColumn_bit {c : Nat} {p r : Vec × Vec} (hp : p.1.getLsbD c = true) :
    (clearColumn c p r).1.getLsbD c = false := by
  unfold clearColumn
  split
  · next h => rw [BitVec.getLsbD_xor, h, hp]; rfl
  · next h => simpa using h

theorem clearColumn_low {c j : Nat} {p r : Vec × Vec} (hp : p.1.getLsbD j = false) :
    (clearColumn c p r).1.getLsbD j = r.1.getLsbD j := by
  unfold clearColumn
  split
  · rw [BitVec.getLsbD_xor, hp, Bool.xor_false]
  · rfl

theorem clearColumn_dot {n c : Nat} {p r : Vec × Vec} {v : Nat → Bool} (hp : rowDot n p.1 v = false)
    (hr : rowDot n (clearColumn c p r).1 v = false) : rowDot n r.1 v = false := by
  unfold clearColumn at hr
  split at hr
  · rwa [rowDot_xor, hp, Bool.xor_false] at hr
  · exact hr

theorem reduced_start (n : Nat) (x : BitMatrix) (hn : n ≤ 256) :
    Reduced n x 0 [] ((List.range n).map fun i => (row x i, BitVec.twoPow 256 i)) where
  length := rfl
  comb := by
    simp only [List.nil_append, List.mem_map, List.mem_range]
    rintro _ ⟨i, hi, rfl⟩
    refine ⟨(rowComb_twoPow x hi hn).symm, fun j hj => ?_⟩
    simp [BitVec.getLsbD_twoPow]
    omega
  pivots := by simp
  below := by simp
  kernel := by
    intro v h i hi
    exact h (row x i, BitVec.twoPow 256 i) (by simpa using ⟨i, hi, rfl, rfl⟩)

theorem reduced_next {n c : Nat} {x : BitMatrix} {finished todo rest : List (Vec × Vec)} {p : Vec × Vec}
    (h : Reduced n x c finished todo) (hp : takePivot c todo = some (p, rest)) :
    Reduced n x (c + 1) (finished.map (clearColumn c p) ++ [p]) (rest.map (clearColumn c p)) := by
  obtain ⟨hbit, hperm⟩ := takePivot_some hp
  have hpm : p ∈ todo := hperm.mem_iff.mpr (by simp)
  have hrm : ∀ r ∈ rest, r ∈ todo := fun r hr => hperm.mem_iff.mpr (by simp [hr])
  have hpc := h.comb p (by simp [hpm])
  have hlow := h.below p hpm
  refine ⟨by simp [h.length], ?_, ?_, ?_, ?_⟩
  · simp only [List.mem_append, List.mem_map, List.mem_singleton]
    rintro r ((⟨q, hq, rfl⟩ | rfl) | ⟨q, hq, rfl⟩)
    · exact clearColumn_comb hpc (h.comb q (by simp [hq]))
    · exact hpc
    · exact clearColumn_comb hpc (h.comb q (by simp [hrm q hq]))
  · intro i hi j hj
    by_cases hic : i < finished.length
    · rw [List.getElem_append_left (by simpa using hic), List.getElem_map]
      by_cases hjc : j = c
      · subst hjc
        rw [clearColumn_bit hbit]
        have := h.length
        simp
        omega
      · rw [clearColumn_low (hlow j (by omega)), h.pivots i hic j (by omega)]
    · have hil : i = c := by
        have := h.length
        simp at hi
        omega
      subst hil
      rw [List.getElem_append_right (by simpa using Nat.not_lt.mp hic)]
      by_cases hjc : j = i
      · subst hjc; simpa using hbit
      · simp [hlow j (by omega), Ne.symm hjc]
  · simp only [List.mem_map]
    rintro _ ⟨q, hq, rfl⟩ j hj
    by_cases hjc : j = c
    · subst hjc; exact clearColumn_bit hbit
    · rw [clearColumn_low (hlow j (by omega))]
      exact h.below q (hrm q hq) j (by omega)
  · intro v hv
    have hpv : rowDot n p.1 v = false := hv p (by simp)
    apply h.kernel v
    intro r hr
    rcases List.mem_append.mp hr with hr | hr
    · exact clearColumn_dot hpv (hv _ (by simp only [List.mem_append, List.mem_map]; exact .inl (.inl ⟨r, hr, rfl⟩)))
    · rcases List.mem_cons.mp (hperm.mem_iff.mp hr) with rfl | hr
      · exact hpv
      · exact clearColumn_dot hpv (hv _ (by simp only [List.mem_append, List.mem_map]; exact .inr ⟨r, hr, rfl⟩))

/-- A stage without a pivot shows a non-zero vector that `x` maps to 0. -/
theorem reduced_stuck {n c : Nat} {x : BitMatrix} {finished todo : List (Vec × Vec)} (h : Reduced n x c finished todo)
    (hc : c < n) (hp : takePivot c todo = none) :
    ∃ v : Nat → Bool, v c = true ∧ (∀ j, n ≤ j → v j = false) ∧ ∀ i, i < n → rowDot n (row x i) v = false := by
  have hlen := h.length
  obtain ⟨v, hv⟩ : ∃ v : Nat → Bool, ∀ j, v j =
      if j = c then true else if h : j < finished.length then finished[j].1.getLsbD c else false := ⟨_, fun _ => rfl⟩
  refine ⟨v, by rw [hv, if_pos rfl], fun j hj => by rw [hv, if_neg (by omega), dif_neg (by omega)], h.kernel _ ?_⟩
  intro r hr
  have hcut : rowDot n r.1 v = rowDot (c + 1) r.1 v := by
    apply xorBelow_cut _ (by omega)
    intro j hj _
    rw [hv, if_neg (by omega), dif_neg (by omega), Bool.and_false]
  rw [hcut, rowDot, xorBelow, hv c, if_pos rfl, Bool.and_true]
  rcases List.mem_append.mp hr with hr | hr
  · obtain ⟨i, hi, rfl⟩ := List.getElem_of_mem hr
    have hic : i < c := by omega
    rw [xorBelow_single _ hic]
    · rw [h.pivots i hi i hic, hv, if_neg (by omega), dif_pos hi]
      simp
    · intro j hj hji
      rw [h.pivots i hi j hj]
      simp [hji.symm]
  · rw [takePivot_none hp r hr, xorBelow_congr (g := fun _ => false)]
    · simp
    · intro j hj
      rw [h.below r hr j hj, Bool.false_and]

/-- The reduction ends with `n` reduced pivots, or finds a non-zero vector that `x` maps to 0. -/
theorem gaussJordan_cases {n : Nat} {x : BitMatrix} (k c : Nat) (finished todo : List (Vec × Vec)) (hk : c + k = n)
    (h : Reduced n x c finished todo) :
    (∃ rows todo', gaussJordan k c finished todo = some rows ∧ Reduced n x n rows todo') ∨
    (gaussJordan k c finished todo = none ∧
      ∃ v : Nat → Bool, (∃ j, j < n ∧ v j = true) ∧ (∀ j, n ≤ j → v j = false) ∧
        ∀ i, i < n → rowDot n (row x i) v = false) := by
  induction k generalizing c finished todo with
  | zero =>
    obtain rfl : c = n := by omega
    exact .inl ⟨finished, todo, rfl, h⟩
  | succ k ih =>
    simp only [gaussJordan]
    split
    · next hp =>
      obtain ⟨v, h1, h2⟩ := reduced_stuck h (by omega) hp
      exact .inr ⟨rfl, v, ⟨c, by omega, h1⟩, h2⟩
    · next p rest hp => exact ih (c + 1) _ _ (by omega) (reduced_next h hp)

/-! Two-sidedness, through matrices over the field of two elements. -/

/-- The leading view as a matrix over the field of two elements. -/
def toMatrix (n : Nat) (x : BitMatrix) : Matrix (Fin n) (Fin n) (ZMod 2) := fun i j => if entry x i j then 1 else 0

theorem bit_add (a b : Bool) :
    ((if a then 1 else 0) + (if b then 1 else 0) : ZMod 2) = if a ^^ b then 1 else 0 := by
  revert a b; decide

theorem sum_eq_xorBelow (f : Nat → Bool) (n : Nat) :
    (∑ k : Fin n, (if f k then (1 : ZMod 2) else 0)) = if xorBelow f n then 1 else 0 := by
  induction n with
  | zero => simp [xorBelow]
  | succ n ih =>
    rw [Fin.sum_univ_castSucc]
    simp only [Fin.val_castSucc, Fin.val_last, ih, xorBelow]
    exact bit_add ..

theorem toMatrix_mul (n : Nat) (x y : BitMatrix) (i j : Fin n) :
    (toMatrix n x * toMatrix n y) i j = if productEntry n x y i j then 1 else 0 := by
  rw [Matrix.mul_apply, productEntry, ← sum_eq_xorBelow]
  apply Finset.sum_congr rfl
  intro k _
  simp only [toMatrix]
  cases entry x i k <;> cases entry y k j <;> simp

theorem toMatrix_one (n : Nat) (x y : BitMatrix) :
    toMatrix n x * toMatrix n y = 1 ↔ ∀ i j, i < n → j < n → productEntry n x y i j = decide (i = j) := by
  constructor
  · intro h i j hi hj
    have := congrFun (congrFun h ⟨i, hi⟩) ⟨j, hj⟩
    rw [toMatrix_mul, Matrix.one_apply] at this
    simp only [Fin.mk.injEq] at this
    by_cases hij : i = j <;> cases hp : productEntry n x y i j <;> simp_all
  · intro h
    ext i j
    rw [toMatrix_mul, h i j i.2 j.2, Matrix.one_apply]
    simp [Fin.ext_iff]

/-- A one-sided inverse is two-sided (00_scope.md R9). -/
theorem isInverse_of_left {n : Nat} {x y : BitMatrix}
    (h : ∀ i j, i < n → j < n → productEntry n y x i j = decide (i = j)) : IsInverse n x y := by
  have h1 := (toMatrix_one n y x).mpr h
  have h2 := (toMatrix_one n x y).mp (mul_eq_one_comm.mp h1)
  exact fun i j hi hj => ⟨h2 i j hi hj, h i j hi hj⟩

/-- A row of a product, applied, is the row of the left factor applied to what the right factor gives. -/
theorem productEntry_apply (n : Nat) (y x : BitMatrix) (j : Nat) (v : Nat → Bool) :
    xorBelow (fun k => productEntry n y x j k && v k) n = xorBelow (fun i => entry y j i && rowDot n (row x i) v) n := by
  have e1 : ∀ k, (productEntry n y x j k && v k) = xorBelow (fun i => v k && (entry y j i && entry x i k)) n := by
    intro k
    rw [xorBelow_and, productEntry, Bool.and_comm]
  rw [xorBelow_congr fun k _ => e1 k, xorBelow_comm]
  apply xorBelow_congr
  intro i _
  rw [rowDot, ← xorBelow_and]
  apply xorBelow_congr
  intro k _
  simp only [entry]
  cases v k <;> cases (row y j).getLsbD i <;> cases (row x i).getLsbD k <;> rfl

/-- What a one-sided inverse gives of an image is the argument. -/
theorem apply_of_product {n : Nat} {x y : BitMatrix} {j : Nat} (hj : j < n)
    (h : ∀ k, k < n → productEntry n y x j k = decide (j = k)) (v : Nat → Bool) :
    xorBelow (fun i => entry y j i && rowDot n (row x i) v) n = v j := by
  rw [← productEntry_apply, xorBelow_single _ hj]
  · rw [h j hj]; simp
  · intro k hk hkj
    rw [h k hk]
    simp [hkj.symm]

/-- A matrix that maps a non-zero vector to 0 is not invertible. -/
theorem not_invertible_of_kernel {n : Nat} {x : BitMatrix} {v : Nat → Bool} (hv : ∃ j, j < n ∧ v j = true)
    (h : ∀ i, i < n → rowDot n (row x i) v = false) : ¬ Invertible n x := by
  rintro ⟨y, hy⟩
  obtain ⟨j, hj, hvj⟩ := hv
  have h1 := apply_of_product hj (fun k hk => (hy j k hj hk).2) v
  rw [xorBelow_congr (g := fun _ => false) fun i hi => by rw [h i hi, Bool.and_false], xorBelow_false] at h1
  rw [hvj] at h1
  exact absurd h1 (by decide)

/-- Everything inversion can do. -/
theorem matInverse_cases (n : Nat) (x : BitMatrix) (hn : n ≤ 256) :
    (∃ y, matInverse n x = some y ∧ IsInverse n x y ∧ ∀ i j, entry y i j = true → i < n ∧ j < n) ∨
    (matInverse n x = none ∧ ∃ v : Vec, v ≠ 0 ∧ leadVec n v = v ∧ ∀ i, i < n → applyBit n x v i = false) := by
  obtain ⟨rows, todo, hg, hr⟩ | ⟨hg, v, ⟨j, hj, hvj⟩, hv2, hv⟩ :=
    gaussJordan_cases n 0 [] _ (by omega) (reduced_start n x hn)
  · left
    refine ⟨matOfRows fun i => (rows.getD i (0, 0)).2, by simp only [matInverse, hg], isInverse_of_left ?_, ?_⟩
    · intro i j hi hj
      have hl : i < rows.length := by rw [hr.length]; exact hi
      have hrow := hr.comb rows[i] (by simp)
      have : (rowComb rows[i].2 x n).getLsbD j = decide (i = j) := by
        rw [← hrow.1]; exact hr.pivots i hl j hj
      rw [rowComb_getLsbD] at this
      rw [← this, productEntry]
      apply xorBelow_congr
      intro k _
      rw [entry_matOfRows]
      simp [show i < 256 by omega, hl]
    · intro i j h
      rw [entry_matOfRows] at h
      simp only [Bool.and_eq_true, decide_eq_true_eq] at h
      have hl : i < rows.length := by
        by_contra hl
        rw [List.getD_eq_default _ _ (Nat.not_lt.mp hl)] at h
        simp at h
      refine ⟨by rwa [hr.length] at hl, ?_⟩
      by_contra hj
      have := (hr.comb rows[i] (by simp)).2 j (by omega)
      simp [hl, this] at h
  · right
    refine ⟨by simp only [matInverse, hg], vecOfBits v n, ?_, ?_, ?_⟩
    · intro h0
      have := congrArg (fun w : Vec => w.getLsbD j) h0
      simp [hn, hj, hvj] at this
    · apply vec_ext
      intro k _
      simp [hn]
    · intro i hi
      rw [← hv i hi, applyBit, rowDot]
      apply xorBelow_congr
      intro k hk
      simp [hn, hk, entry]

/-- Inversion of a leading view: the inverse of the whole matrix's leading view, 0 outside it, exactly if there is one. -/
theorem matInverse_lead (n : Nat) (x : BitMatrix) (hn : n ≤ 256) :
    (∃ y, matInverse n (leadMat n x) = some y ∧ IsInverse n x y ∧ (∀ i j, entry y i j = true → i < n ∧ j < n) ∧
      Invertible n x) ∨
    (matInverse n (leadMat n x) = none ∧ ¬ Invertible n x) := by
  have hcongr : ∀ y, IsInverse n (leadMat n x) y → IsInverse n x y := by
    intro y hy i j hi hj
    obtain ⟨h1, h2⟩ := hy i j hi hj
    constructor
    · rw [← h1]
      apply xorBelow_congr
      intro k hk
      simp [hn, hi, hk]
    · rw [← h2]
      apply xorBelow_congr
      intro k hk
      simp [hn, hj, hk]
  obtain ⟨y, h1, h2, h3⟩ | ⟨h1, v, h0, hl, hv⟩ := matInverse_cases n (leadMat n x) hn
  · exact .inl ⟨y, h1, hcongr y h2, h3, y, hcongr y h2⟩
  · refine .inr ⟨h1, not_invertible_of_kernel (v := fun j => v.getLsbD j) ?_ ?_⟩
    · by_contra hne
      push Not at hne
      apply h0
      apply vec_ext
      intro j _
      by_cases hj : j < n
      · simpa using hne j hj
      · rw [← hl]; simp [hj]
    · intro i hi
      rw [← hv i hi, applyBit, rowDot]
      apply xorBelow_congr
      intro k hk
      rw [entry_leadMat _ _ _ _ hn]
      simp [hi, hk, entry]

/-- `Y·(X·v ⊕ c) ⊕ Y·c` is `v` if `Y·X` is the unit. -/
theorem applyBit_undo {x y : BitMatrix} (h : ∀ i j, i < 256 → j < 256 → productEntry 256 y x i j = decide (i = j))
    (u v c : Vec) (hu : ∀ i, i < 256 → u.getLsbD i = (applyBit 256 x v i ^^ c.getLsbD i)) {j : Nat} (hj : j < 256) :
    (applyBit 256 y u j ^^ applyBit 256 y c j) = v.getLsbD j := by
  rw [applyBit, applyBit, ← xorBelow_xor, ← apply_of_product hj (fun k hk => h j k hj hk) fun i => v.getLsbD i]
  apply xorBelow_congr
  intro i hi
  rw [hu i hi, applyBit, rowDot]
  simp only [entry]
  generalize xorBelow _ 256 = b
  cases (row y j).getLsbD i <;> cases b <;> cases c.getLsbD i <;> rfl

/-- Everything the inverse of an affine map can be: the map that undoes it on both sides, or none. -/
theorem AffineMap.inverse_cases (f : AffineMap) :
    (∃ g, f.inverse = some g ∧ f.IsInvertible ∧ (∀ x, g.apply (f.apply x) = x) ∧ ∀ x, f.apply (g.apply x) = x) ∨
    (f.inverse = none ∧ ¬ f.IsInvertible) := by
  obtain ⟨y, h1, hy, -⟩ | ⟨h1, v, h0, -, hv⟩ := matInverse_cases 256 f.linear (le_refl _)
  · have hl := fun i k hi hk => (hy i k hi hk).2
    have hr := fun i k hi hk => (hy i k hi hk).1
    have hm : ∀ i, i < 256 → (matVec 256 y f.bias).getLsbD i = applyBit 256 y f.bias i := fun i hi => by
      rw [matVec_getLsbD _ _ _ _ (le_refl _), decide_eq_true hi, Bool.true_and]
    have ha : ∀ (g : AffineMap) (x : Vec) (i : Nat), i < 256 →
        (g.apply x).getLsbD i = (applyBit 256 g.linear x i ^^ g.bias.getLsbD i) := fun g x i hi => by
      rw [AffineMap.apply_getLsbD, decide_eq_true hi, Bool.true_and]
    refine .inl ⟨⟨y, matVec 256 y f.bias⟩, by rw [AffineMap.inverse, h1], ⟨y, hy⟩,
      fun x => vec_ext fun j hj => ?_, fun x => vec_ext fun j hj => ?_⟩
    · rw [ha _ _ _ hj, hm j hj]
      exact applyBit_undo hl (f.apply x) x f.bias (ha f x) hj
    · have h0 := applyBit_undo hr (matVec 256 y f.bias) f.bias 0 (fun i hi => by rw [hm i hi]; simp) hj
      rw [show applyBit 256 f.linear 0 j = false by simp [applyBit], Bool.xor_false] at h0
      rw [ha _ _ _ hj, ← h0]
      exact applyBit_undo hr _ x (matVec 256 y f.bias) (ha ⟨y, matVec 256 y f.bias⟩ x) hj
  · refine .inr ⟨by rw [AffineMap.inverse, h1], not_invertible_of_kernel (v := fun j => v.getLsbD j) ?_ hv⟩
    by_contra hne
    push Not at hne
    exact h0 (vec_ext fun j hj => by simpa using hne j hj)

end Sys2Proof.Machine
end

