-- ==== Sys2Proof/Laws/PerInstr.lean ====
section
/-! SUPPORT. The statements made of every command, one lemma for each constructor. -/

namespace Sys2Proof.Laws.EncodedWord

/-- The word of a command has an opcode of the opcode map and RSV 0 (30_encoding.md R56, R58). -/
def Statement (i : Instr) : Prop := (opMap.any fun row => row.op == opField (encode i)) = true ∧ rsvField (encode i) = 0

theorem ofFields {i : Instr} {op : BitVec 8} {dim : BitVec 2} {rd rs1 rs2 : BitVec 3} {rnd : BitVec 4}
    (h : encode i = assembleWord op dim rd rs1 rs2 rnd) (hop : (opMap.any fun row => row.op == op) = true) :
    Statement i := by
  obtain ⟨h1, _, _, _, _, _, h2⟩ := assembleWord_fields op dim rd rs1 rs2 rnd
  rw [Statement, h, h1]
  exact ⟨hop, h2⟩

theorem nop : Statement .nop := ofFields rfl (by decide)
theorem mident (n : Dim) (d : MReg) : Statement (.mident n d) := ofFields rfl (by decide)
theorem mmul (n : Dim) (d s1 s2 : MReg) : Statement (.mmul n d s1 s2) := ofFields rfl (by decide)
theorem minv (n : Dim) (d s : MReg) : Statement (.minv n d s) := ofFields rfl (by decide)
theorem mapply (n : Dim) (d : VReg) (m : MReg) (s : VReg) : Statement (.mapply n d m s) := ofFields rfl (by decide)
theorem meq (n : Dim) (s1 s2 : MReg) : Statement (.meq n s1 s2) := ofFields rfl (by decide)
theorem aapply (n : Dim) (d : VReg) (a : AReg) (s : VReg) : Statement (.aapply n d a s) := ofFields rfl (by decide)
theorem acomp (n : Dim) (d s1 s2 : AReg) : Statement (.acomp n d s1 s2) := ofFields rfl (by decide)
theorem ainv (n : Dim) (d s : AReg) : Statement (.ainv n d s) := ofFields rfl (by decide)
theorem eval : Statement .eval := ofFields rfl (by decide)
theorem evalFin : Statement .evalFin := ofFields rfl (by decide)
theorem evalRound (r : BitVec 4) : Statement (.evalRound r) := ofFields rfl (by decide)
theorem evalFout : Statement .evalFout := ofFields rfl (by decide)

end Sys2Proof.Laws.EncodedWord
end

