-- ==== Sys2Proof/Tests/Slice0.lean ====
section
/-! SUPPORT. The model's own tests: the checks of WellFormed, decoding against words written out from 30_encoding.md R56 and
R58, one-step tests whose expected values are those of 95_test_vectors.md, and a witness for the hypotheses of each
statement of Certificates/Slice0/Obligations.lean. -/

namespace Sys2Proof.Tests

/- One test at a time: each waits for the kernel, and many waiting at once exhaust the sandbox's threads. -/
set_option Elab.async false

open Sys2Proof.Machine Sys2Proof.Claims

/-! Helpers. -/

/-- A value from its bytes, byte 0 first, the rest 0. -/
def vec (l : List Nat) : Vec := l.foldr (fun b acc => acc <<< 8 ||| BitVec.ofNat 256 b) 0

/-- A matrix from its rows of 8 bits. -/
def rows8 (l : List Nat) : BitMatrix := matOfRows fun i => BitVec.ofNat 256 (l.getD i 0)

/-- Right after reset, but every register byte written. -/
def ready : State :=
  { State.reset with
    marks :=
      { v := Vector.replicate 8 allMarked, m := Vector.replicate 4 (Vector.replicate 256 allMarked), buf := allMarked,
        inp := allMarked, acc := allMarked } }

def setM (k : MReg) (l : List Nat) (s : State) : State := { s with m := s.m.set k (rows8 l) }
def setV (k : VReg) (l : List Nat) (s : State) : State := { s with v := s.v.set k (vec l) }

/-- A property of the next state; false of a fault and of a refusal. -/
def after (r : Result) (p : State → Bool) : Bool :=
  match r with
  | .next t => p t
  | .fault _ => false
  | .refused _ => false

/-- The fault a step stops with. -/
def faultOf (r : Result) : Option Fault :=
  match r with
  | .next _ => none
  | .fault f => some f
  | .refused _ => none

/-- The first `n` rows of a matrix register. -/
def rowsOf (n : Nat) (k : MReg) (s : State) : List Nat := (List.range n).map fun i => (row s.m[k] i).toNat

/-- The matrix B of 95_test_vectors.md and its inverse. -/
def matB : List Nat := [0x01, 0x03, 0x07, 0x0f, 0x1f, 0x3f, 0x7f, 0xff]
def matBInv : List Nat := [0x01, 0x03, 0x06, 0x0c, 0x18, 0x30, 0x60, 0xc0]

/-- The matrix Rot of 95_test_vectors.md. -/
def matRot : List Nat := [0x02, 0x04, 0x08, 0x10, 0x20, 0x40, 0x80, 0x01]

/-- I + Rot, of rank 7 (95_test_vectors.md G8). -/
def matRank7 : List Nat := [0x03, 0x06, 0x0c, 0x18, 0x30, 0x60, 0xc0, 0x81]

/-- I_8. -/
def matId : List Nat := [0x01, 0x02, 0x04, 0x08, 0x10, 0x20, 0x40, 0x80]

/-! WellFormed refuses each ill-formed term. -/

theorem test_wellFormed_aapply_128 : (Instr.aapply .d128 0 0 1).wellFormed = false := by decide
theorem test_wellFormed_acomp_128 : (Instr.acomp .d128 0 1 2).wellFormed = false := by decide
theorem test_wellFormed_ainv_128 : (Instr.ainv .d128 0 1).wellFormed = false := by decide
theorem test_wellFormed_round_low : (Instr.evalRound 0).wellFormed = false ∧ (Instr.evalRound 1).wellFormed = true := by decide
theorem test_wellFormed_round_high : (Instr.evalRound 11).wellFormed = false ∧ (Instr.evalRound 10).wellFormed = true := by decide

/-! Words written out bit by bit: OP, DIM, RD, RS1, RS2, RND, RSV (30_encoding.md R56, R58). -/

theorem test_decode_nop : decode 0b00000000_00_000_000_000_0000_000000000#32 = .ok .nop := by decide +kernel
theorem test_decode_mident : decode 0b00010000_01_011_000_000_0000_000000000#32 = .ok (.mident .d128 3) := by decide +kernel
theorem test_decode_mmul : decode 0b00010001_10_000_001_010_0000_000000000#32 = .ok (.mmul .d256 0 1 2) := by decide +kernel
theorem test_decode_minv : decode 0b00010010_01_001_010_000_0000_000000000#32 = .ok (.minv .d128 1 2) := by decide +kernel
theorem test_decode_mapply : decode 0b00010011_01_101_001_100_0000_000000000#32 = .ok (.mapply .d128 5 1 4) := by decide +kernel
theorem test_decode_meq : decode 0b00010100_00_000_010_001_0000_000000000#32 = .ok (.meq .d8 2 1) := by decide +kernel
theorem test_decode_aapply : decode 0b00100000_10_110_001_100_0000_000000000#32 = .ok (.aapply .d256 6 1 4) := by decide +kernel
theorem test_decode_acomp : decode 0b00100001_00_010_000_011_0000_000000000#32 = .ok (.acomp .d8 2 0 3) := by decide +kernel
theorem test_decode_ainv : decode 0b00100010_10_001_000_000_0000_000000000#32 = .ok (.ainv .d256 1 0) := by decide +kernel
theorem test_decode_eval : decode 0b00110000_00_000_000_000_0000_000000000#32 = .ok .eval := by decide +kernel
theorem test_decode_evalFin : decode 0b00110001_00_000_000_000_0000_000000000#32 = .ok .evalFin := by decide +kernel
theorem test_decode_evalRound : decode 0b00110010_00_000_000_000_0101_000000000#32 = .ok (.evalRound 5) := by decide +kernel
theorem test_decode_evalFout : decode 0b00110011_00_000_000_000_0000_000000000#32 = .ok .evalFout := by decide +kernel

/-- The illegal words of 95_test_vectors.md section 2, each rejected by name. -/
theorem test_decode_rejects :
    decode 0x00000001 = .error .reservedBits ∧ decode 0x33000100 = .error .reservedBits ∧
    decode 0x01000000 = .error .unassignedOpcode ∧ decode 0xFF000000 = .error .unassignedOpcode ∧
    decode 0x15000000 = .error .unassignedOpcode ∧ decode 0x10C00000 = .error .dimension ∧
    decode 0x11E00000 = .error .dimension ∧ decode 0x20400000 = .error .dimension ∧
    decode 0x21400000 = .error .dimension ∧ decode 0x30400000 = .error .dimension ∧
    decode 0x10200000 = .error .registerNumber ∧ decode 0x21040000 = .error .registerNumber ∧
    decode 0x10010000 = .error .unusedField ∧ decode 0x12002000 = .error .unusedField ∧
    decode 0x14080000 = .error .unusedField ∧ decode 0x10040200 = .error .unusedField ∧
    decode 0x30080000 = .error .unusedField ∧ decode 0x32000000 = .error .roundNumber ∧
    decode 0x32001600 = .error .roundNumber ∧ decode 0x32001E00 = .error .roundNumber := by decide +kernel

/-- The assembler's words of 95_test_vectors.md section 2. -/
theorem test_encode_words :
    encode (.mmul .d8 2 0 1) = 0x11102000 ∧ encode (.minv .d128 1 2) = 0x124A0000 ∧
    encode (.mapply .d256 3 1 2) = 0x13994000 ∧ encode (.meq .d256 1 2) = 0x14814000 ∧
    encode (.aapply .d8 6 3 5) = 0x2033A000 ∧ encode (.acomp .d256 3 0 0) = 0x21980000 ∧
    encode (.evalRound 10) = 0x32001400 := by decide +kernel

/-! One step each. -/

/-- 95_test_vectors.md section 7: `do nop` leaves STATUS 2; the word comes as the host's table numbers it. -/
theorem test_step_nop :
    after (step (State.reset.withFetchWord 32 0)) (fun t => statusWord t == 0x2 && t.inputs.isEmpty) = true := by
  decide +kernel

/-- G1: the rows of I_8, and STATUS 2. -/
theorem test_mident_rows :
    after (exec (.mident .d8 1) State.reset) (fun t => rowsOf 8 1 t == matId && statusWord t == 0x2) = true := by decide +kernel

/-- G2: the zero fill takes row 8 of I_256 away. -/
theorem test_mident_zero_fill :
    after (exec (.mident .d8 0) { ready with m := Vector.replicate 4 (identity 256) }) (fun t => row t.m[(0 : MReg)] 8 == 0) =
      true := by decide +kernel

/-- G3: B·Rot. -/
theorem test_mmul_product :
    after (exec (.mmul .d8 2 0 1) (setM 0 matB (setM 1 matRot ready)))
      (fun t => rowsOf 9 2 t == [0x02, 0x06, 0x0e, 0x1e, 0x3e, 0x7e, 0xfe, 0xff, 0]) = true := by decide +kernel

/-- G5: the destination is both sources. -/
theorem test_mmul_in_place :
    after (exec (.mmul .d8 0 0 0) (setM 0 matB ready))
      (fun t => rowsOf 8 0 t == [0x01, 0x02, 0x05, 0x0a, 0x15, 0x2a, 0x55, 0xaa]) = true := by decide +kernel

/-- G6: B⁻¹. -/
theorem test_minv_inverse :
    after (exec (.minv .d8 1 0) (setM 0 matB ready)) (fun t => rowsOf 8 1 t == matBInv) = true := by decide +kernel

/-- G8: DOMAIN, with M1 still unwritten. -/
theorem test_minv_domain :
    after (exec (.minv .d8 1 0) { setM 0 matRank7 State.reset with marks := { State.reset.marks with m := ready.marks.m.set 1 (State.reset.marks.m[1]) }, pend := 0x12080000 })
      (fun t => statusWord t == 0x206 && t.errinfo == 0x12080000 && !registerWritten t.marks (.m 1 0) 0) = true := by
  decide +kernel

/-- G12: B·a5, then 31 zero bytes. -/
theorem test_mapply_B :
    after (exec (.mapply .d8 1 0 0) (setM 0 matB (setV 0 [0xa5, 0xff] ready))) (fun t => t.v[(1 : VReg)] == vec [0x63]) =
      true := by decide +kernel

/-- G13: in place. -/
theorem test_mapply_in_place :
    after (exec (.mapply .d8 0 0 0) (setM 0 matRot (setV 0 [0xa5] ready))) (fun t => t.v[(0 : VReg)] == vec [0xd2]) = true := by
  decide +kernel

/-- Sources that nothing has written are read as the registers hold them, and the first byte read is recorded: the matrix before
the vector, and nothing where the view was written (70_reset_and_hazards.md R113; log 5). -/
theorem test_unwritten_recorded :
    after (exec (.mapply .d8 1 0 0) State.reset) (fun t => t.done && t.unwrittenRead == some (.m 0 0, 0)) = true ∧
    after (exec (.mapply .d8 1 0 0) { State.reset with marks := { State.reset.marks with m := ready.marks.m } })
      (fun t => t.done && t.unwrittenRead == some (.v 0, 0)) = true ∧
    after (exec (.mapply .d8 1 0 0) ready) (fun t => t.done && t.unwrittenRead.isNone) = true := by decide +kernel

/-- G16: I_256 and I_8 are equal at n = 8. -/
theorem test_meq_equal :
    after (exec (.meq .d8 0 1) (setM 1 matId { ready with m := Vector.replicate 4 (identity 256) }))
      (fun t => statusWord t == 0x12) = true := by decide +kernel

/-- G15: B and I_8 differ, and EQ is cleared. -/
theorem test_meq_differs :
    after (exec (.meq .d8 0 1) (setM 0 matB (setM 1 matId { ready with eqFlag := true }))) (fun t => statusWord t == 0x2) =
      true := by decide +kernel

/-- A3: B·a5 ⊕ 5a into the map's own bias. -/
theorem test_aapply_bias :
    after (exec (.aapply .d8 0 0 4) (setM 0 matB (setV 0 [0x5a] (setV 4 [0xa5] ready)))) (fun t => t.v[(0 : VReg)] == vec [0x39]) =
      true := by decide +kernel

/-- A17: the bias is read through its leading view. -/
theorem test_aapply_lead :
    after (exec (.aapply .d8 5 0 4) (setM 0 matB (setV 0 [0x5a, 0xff, 0xff] (setV 4 [0xa5] ready))))
      (fun t => t.v[(5 : VReg)] == vec [0x39]) = true := by decide +kernel

/-- A6: (B, 5a) after (B⁻¹, 0f). -/
theorem test_acomp_order :
    after (exec (.acomp .d8 2 0 1) (setM 0 matB (setM 1 matBInv (setV 0 [0x5a] (setV 1 [0x0f] ready)))))
      (fun t => rowsOf 8 2 t == matId && t.v[(2 : VReg)] == vec [0x5f]) = true := by decide +kernel

/-- A7: the other order. -/
theorem test_acomp_swapped :
    after (exec (.acomp .d8 2 1 0) (setM 0 matB (setM 1 matBInv (setV 0 [0x5a] (setV 1 [0x0f] ready)))))
      (fun t => rowsOf 8 2 t == matId && t.v[(2 : VReg)] == vec [0xe1]) = true := by decide +kernel

/-- A4: (B⁻¹, ee). -/
theorem test_ainv_inverse :
    after (exec (.ainv .d8 3 0) (setM 0 matB (setV 0 [0x5a] ready)))
      (fun t => rowsOf 8 3 t == matBInv && t.v[(3 : VReg)] == vec [0xee]) = true := by decide +kernel

/-- A10: DOMAIN, with M3 and V3 unchanged. -/
theorem test_ainv_domain :
    after (exec (.ainv .d8 3 0) { setM 0 matRank7 (setM 3 matBInv (setV 3 [0xee] ready)) with pend := 0x22180000 })
      (fun t => statusWord t == 0x206 && t.errinfo == 0x22180000 && rowsOf 8 3 t == matBInv && t.v[(3 : VReg)] == vec [0xee]) =
      true := by decide +kernel

/-- u of 95_test_vectors.md: bytes 00..1f. -/
def upTo31 : Vec := vec (List.range 32)

/-- V13: the first entry a round looks up on 00..1f is T(1, 0, 0, 1), and it is unwritten. -/
theorem test_evalRound_unwritten :
    faultOf (exec (.evalRound 1) { ready with buf := upTo31 }) = some (.unwrittenStore 0x40000020) := by decide +kernel

/-- V8: without F_out, EVAL_FOUT does not read it. -/
theorem test_evalFout_absent :
    after (exec .evalFout { State.reset with buf := upTo31 }) (fun t => t.buf == upTo31 && statusWord t == 0x2) = true := by
  decide +kernel

/-- 95_test_vectors.md section 7: EVAL before any instance write faults, on the first byte of FIN_L. -/
theorem test_eval_unwritten : faultOf (exec .eval ready) = some (.unwrittenStore 0x10000) := by decide +kernel

/-- 20_memory.md R44 and 95_test_vectors.md section 5. -/
theorem test_tableAddr :
    tableAddr 1 5 0x53 0 = 0x40AA6000 ∧ tableAddr 2 0 0 0 = 0x44000000 ∧ tableAddr 10 31 255 255 = 0x67FFFFE0 := by decide

/-! The bus and the error record (95_test_vectors.md section 6). -/

/-- S9 to S12: bus errors. -/
theorem test_bus_errors :
    faultOf (hostRead32 0x002 ready) = some (.busError ⟨false, 32, 0x002⟩) ∧
    faultOf (hostRead32 0x024 ready) = some (.busError ⟨false, 32, 0x024⟩) ∧
    faultOf (hostWrite32 0x1160 0 ready) = some (.busError ⟨true, 32, 0x1160⟩) ∧
    faultOf (hostRead32 0x68000000 ready) = some (.busError ⟨false, 32, 0x68000000⟩) := by decide +kernel

/-- S14, S18: while busy a CMD write is dropped with OVR, a CTRL write acts at once. -/
theorem test_busy_writes :
    after (hostWrite32 0x010 5 { ready with busy := true }) (fun t => t.ovr && t.pend == 0) = true ∧
    after (hostWrite32 0x008 1 { ready with busy := true }) (fun t => t.irqEn && !t.ovr) = true := by decide +kernel

/-- S1, S2: the first error is held. -/
theorem test_error_held :
    after (completeCommand { ready with pend := 0x12080000, busy := true, err := true, errcode := 1, errinfo := 0x01000000 })
      (fun t => statusWord t == 0x106 && t.errinfo == 0x01000000) = true := by decide +kernel

/-- S5: only bits 1, 2 and 3 of a STATUS write act. -/
theorem test_status_write :
    after (hostWrite32 0x00C 0x0E0E { ready with done := true, err := true, errcode := 1, errinfo := 7 })
      (fun t => statusWord t == 0 && t.errinfo == 0) = true := by decide +kernel

/-- `do mident.8 m0`, then rows 0 and 8 read 1 and 0 (95_test_vectors.md section 7). -/
theorem test_read_after_fill :
    after (exec (.mident .d8 0) State.reset) (fun t =>
      after (hostRead32 0x8000 t) (fun u => u.response == some (.data 1)) &&
      after (hostRead32 0x8100 t) (fun u => u.response == some (.data 0))) = true := by decide +kernel

/-- A word of a register is little-endian (20_memory.md R36, R37). -/
theorem test_register_bytes :
    after (hostWrite32 0x1104 0x44332211 State.reset) (fun t => t.buf == vec [0, 0, 0, 0, 0x11, 0x22, 0x33, 0x44]) = true := by
  decide +kernel

/-- 42_evaluator.md R90: the upper block is in bytes 0..15. -/
theorem test_packBlocks :
    packBlocks 0x0f0e0d0c0b0a09080706050403020100 0x1f1e1d1c1b1a19181716151413121110 = upTo31 := by decide +kernel

/-- The assembler's text (30_encoding.md R62). -/
theorem test_assembly_text :
    assemblyText (.mapply .d128 4 2 3) = "mapply.128 v4, m2, v3" ∧ assemblyText (.evalRound 10) = "eval.round 10" := by
  decide +kernel

/-! A loaded instance: FIN_L and FOUT_L the identity, FIN_C and FOUT_C one byte repeated, and tables given by a formula, as in
95_test_vectors.md section 5. Its 640 MiB are never evaluated. -/

/-- The bytes `f base .. f (base + len - 1)`. -/
def filled (f : Nat → Byte) (base len : Nat) : Memory := (List.range' base len).map fun a => (a, f a)

theorem memRead_filled (f : Nat → Byte) (base len a : Nat) :
    memRead (filled f base len) a = if base ≤ a ∧ a < base + len then some (f a) else none := by
  induction len generalizing base with
  | zero => rw [if_neg (by omega)]; rfl
  | succ len ih =>
    have e : filled f base (len + 1) = (base, f base) :: filled f (base + 1) len := rfl
    rw [e, memRead, ih]
    by_cases h : base = a
    · subst h; rw [if_pos rfl, if_pos (by omega)]
    · rw [if_neg h]
      by_cases h2 : base ≤ a ∧ a < base + (len + 1)
      · rw [if_pos h2, if_pos (by omega)]
      · rw [if_neg h2, if_neg (by omega)]

theorem memRead_append (x y : Memory) (a : Nat) :
    memRead (x ++ y) a = if (memRead x a).isSome then memRead x a else memRead y a := by
  induction x with
  | nil => rfl
  | cons c x ih =>
    obtain ⟨b, v⟩ := c
    simp only [List.cons_append, memRead]
    split
    · simp
    · exact ih

/-- The whole instance store, its bytes given by `f`. -/
def fullStore (f : Nat → Byte) : Memory :=
  filled f Config.finL 0x2020 ++ (filled f Config.foutL 0x2020 ++ filled f Config.tblBase Config.tblSize)

theorem memRead_fullStore (f : Nat → Byte) {a : Nat} (h : isStore a = true) : memRead (fullStore f) a = some (f a) := by
  have hs := (isStore_iff a).mp h
  have e1 : Config.finL = 0x10000 := rfl
  have e2 : Config.foutL = 0x14000 := rfl
  have e3 : Config.tblBase = 0x40000000 := rfl
  have e4 : Config.tblSize = 0x28000000 := rfl
  rw [fullStore, memRead_append, memRead_append, memRead_filled, memRead_filled, memRead_filled]
  by_cases h1 : Config.finL ≤ a ∧ a < Config.finL + 0x2020
  · simp [h1]
  · by_cases h2 : Config.foutL ≤ a ∧ a < Config.foutL + 0x2020
    · simp [h1, h2]
    · have h3 : Config.tblBase ≤ a ∧ a < Config.tblBase + Config.tblSize := by omega
      simp [h1, h2, h3]

/-- Byte `o` of I_256 as a stored matrix. -/
def identityByte (o : Nat) : Byte := if o % 32 = o / 32 / 8 then BitVec.twoPow 8 (o / 32 % 8) else 0

/-- The byte at an address of the instance with biases `cin` and `cout` and tables `t r i x y`, byte by byte. -/
def instanceByte (cin cout : Byte) (t : Nat → Nat → Nat → Nat → Nat → Byte) (a : Nat) : Byte :=
  if a < 0x12000 then identityByte (a - 0x10000)
  else if a < 0x14000 then cin
  else if a < 0x16000 then identityByte (a - 0x14000)
  else if a < 0x40000000 then cout
  else
    t ((a - 0x40000000) / 0x4000000 + 1) ((a - 0x40000000) / 0x200000 % 32) ((a - 0x40000000) / 0x2000 % 256)
      ((a - 0x40000000) / 32 % 256) ((a - 0x40000000) % 32)

/-- A state that holds the instance, everything written. -/
def loaded (cin cout : Byte) (t : Nat → Nat → Nat → Nat → Nat → Byte) (present : Bool) (u : Vec) : State :=
  { ready with store := fullStore (instanceByte cin cout t), outPresent := present, buf := u }

theorem loaded_store (cin cout : Byte) (t : Nat → Nat → Nat → Nat → Nat → Byte) (present : Bool) (u : Vec) :
    (loaded cin cout t present u).store = fullStore (instanceByte cin cout t) := rfl

theorem written_fullStore (f : Nat → Byte) {a : Nat} (h : isStore a = true) : written (fullStore f) a := by
  rw [written, memRead_fullStore f h]; rfl

theorem storeByte_fullStore (f : Nat → Byte) {a : Nat} (h : isStore a = true) : storeByte (fullStore f) a = f a := by
  rw [storeByte, memRead_fullStore f h]; rfl

theorem encodingWritten_fin (f : Nat → Byte) : EncodingWritten (fullStore f) 0x10000 0x12000 :=
  ⟨fun i k hi hk => written_fullStore f ((isStore_iff _).mpr (by omega)),
    fun k hk => written_fullStore f ((isStore_iff _).mpr (by omega))⟩

theorem encodingWritten_fout (f : Nat → Byte) : EncodingWritten (fullStore f) 0x14000 0x16000 :=
  ⟨fun i k hi hk => written_fullStore f ((isStore_iff _).mpr (by omega)),
    fun k hk => written_fullStore f ((isStore_iff _).mpr (by omega))⟩

theorem roundWritten_full (f : Nat → Byte) {r : Nat} (h1 : 1 ≤ r) (h10 : r ≤ 10) (s : Vec) :
    RoundWritten (fullStore f) r s :=
  fun _ _ hi hk => written_fullStore f (isStore_tableAddr h1 h10 hi (byteOf _ _).isLt (byteOf _ _).isLt hk)

theorem instanceLoaded (cin cout : Byte) (t : Nat → Nat → Nat → Nat → Nat → Byte) (present : Bool) (u : Vec) :
    InstanceLoaded (loaded cin cout t present u) where
  input := encodingWritten_fin _
  output _ := encodingWritten_fout _
  tables a h1 h2 := by
    have e3 : Config.tblBase = 0x40000000 := rfl
    have e4 : Config.tblSize = 0x28000000 := rfl
    exact written_fullStore _ ((isStore_iff _).mpr (by omega))

theorem identityByte_bit {i j : Nat} (_ : i < 256) (hj : j < 256) :
    (identityByte (32 * i + j / 8)).getLsbD (j % 8) = decide (i = j) := by
  have e1 : (32 * i + j / 8) % 32 = j / 8 := by omega
  have e2 : (32 * i + j / 8) / 32 = i := by omega
  rw [identityByte, e1, e2]
  by_cases h : j / 8 = i / 8
  · rw [if_pos h, BitVec.getLsbD_twoPow]
    by_cases h2 : i = j
    · subst h2; simp; omega
    · have : ¬ i % 8 = j % 8 := by omega
      simp [h2, this]
  · rw [if_neg h]
    have : ¬ i = j := by rintro rfl; exact h rfl
    simp [this]

/-- One byte in all 32 places. -/
def repeated (c : Byte) : Vec := vecOfBits (fun j => c.getLsbD (j % 8)) 256

/-- The encoding at `l`, `c`, its matrix I_256, XORs its bias byte into every byte. -/
theorem applyEncoding_identity (f : Nat → Byte) (l c : Nat) (b : Byte) (u : Vec)
    (hl : ∀ o, o < 8192 → isStore (l + o) = true ∧ f (l + o) = identityByte o)
    (hc : ∀ o, o < 32 → isStore (c + o) = true ∧ f (c + o) = b) :
    applyEncoding (fullStore f) l c u = u ^^^ repeated b := by
  apply vec_ext
  intro k hk
  rw [applyEncoding, AffineMap.apply, vecOfBits_getLsbD _ _ _ (le_refl _), BitVec.getLsbD_xor, repeated, vecOfBits_getLsbD _ _ _ (le_refl _)]
  simp only [hk, decide_true, Bool.true_and]
  refine congrArg₂ xor ?_ ?_
  · rw [applyBit, xorBelow_single _ hk]
    · rw [storeMatrix, entry_matOfRows, storeVec, vecOfBits_getLsbD _ _ _ (le_refl _)]
      rw [show l + 32 * k + k / 8 = l + (32 * k + k / 8) by omega, storeByte_fullStore f (hl _ (by omega)).1,
        (hl _ (by omega)).2, identityByte_bit hk hk]
      simp [hk]
    · intro j hj hjk
      rw [storeMatrix, entry_matOfRows, storeVec, vecOfBits_getLsbD _ _ _ (le_refl _)]
      rw [show l + 32 * k + j / 8 = l + (32 * k + j / 8) by omega, storeByte_fullStore f (hl _ (by omega)).1,
        (hl _ (by omega)).2, identityByte_bit hk hj]
      simp [hjk.symm]
  · rw [storeVec, vecOfBits_getLsbD _ _ _ (le_refl _), storeByte_fullStore f (hc _ (by omega)).1, (hc _ (by omega)).2]
    simp [hk]

theorem instanceByte_fin (cin cout : Byte) (t : Nat → Nat → Nat → Nat → Nat → Byte) (u : Vec) :
    applyEncoding (fullStore (instanceByte cin cout t)) 0x10000 0x12000 u = u ^^^ repeated cin := by
  apply applyEncoding_identity
  · intro o ho
    refine ⟨(isStore_iff _).mpr (by omega), ?_⟩
    rw [instanceByte, if_pos (by omega), show 0x10000 + o - 0x10000 = o by omega]
  · intro o ho
    refine ⟨(isStore_iff _).mpr (by omega), ?_⟩
    rw [instanceByte, if_neg (by omega), if_pos (by omega)]

theorem instanceByte_fout (cin cout : Byte) (t : Nat → Nat → Nat → Nat → Nat → Byte) (u : Vec) :
    applyEncoding (fullStore (instanceByte cin cout t)) 0x14000 0x16000 u = u ^^^ repeated cout := by
  apply applyEncoding_identity
  · intro o ho
    refine ⟨(isStore_iff _).mpr (by omega), ?_⟩
    rw [instanceByte, if_neg (by omega), if_neg (by omega), if_pos (by omega), show 0x14000 + o - 0x14000 = o by omega]
  · intro o ho
    refine ⟨(isStore_iff _).mpr (by omega), ?_⟩
    rw [instanceByte, if_neg (by omega), if_neg (by omega), if_neg (by omega), if_pos (by omega)]

/-- Bit `j` of a table entry is bit `j mod 8` of its byte `j / 8`. -/
theorem tableEntry_bit (cin cout : Byte) (t : Nat → Nat → Nat → Nat → Nat → Byte) {r i x y j : Nat} (h1 : 1 ≤ r)
    (h10 : r ≤ 10) (hi : i < 32) (hx : x < 256) (hy : y < 256) (hj : j < 256) :
    (tableEntry (fullStore (instanceByte cin cout t)) r i x y).getLsbD j = (t r i x y (j / 8)).getLsbD (j % 8) := by
  rw [tableEntry, storeVec, vecOfBits_getLsbD _ _ _ (le_refl _),
    storeByte_fullStore _ (isStore_tableAddr h1 h10 hi hx hy (by omega))]
  obtain ⟨b, hb⟩ : ∃ b, b = tableAddr r i x y + j / 8 - 0x40000000 := ⟨_, rfl⟩
  have e : tableAddr r i x y + j / 8 = 0x40000000 + b ∧ b = ((r - 1) * 32 + i) * 0x200000 + (x * 256 + y) * 32 + j / 8 := by
    simp only [tableAddr, Config.tblBase] at hb ⊢
    omega
  rw [e.1, instanceByte, if_neg (by omega), if_neg (by omega), if_neg (by omega), if_neg (by omega)]
  rw [show 0x40000000 + b - 0x40000000 = b by omega]
  rw [show b / 0x4000000 + 1 = r by omega, show b / 0x200000 % 32 = i by omega, show b / 0x2000 % 256 = x by omega,
    show b / 32 % 256 = y by omega, show b % 32 = j / 8 by omega]
  simp [hj]

/-- A round whose table `i` puts `g` of its two bytes at byte `i` and 0 elsewhere. -/
theorem roundXor_bytes (cin cout : Byte) (t : Nat → Nat → Nat → Nat → Nat → Byte) (g : Nat → Nat → Byte) {r : Nat}
    (h1 : 1 ≤ r) (h10 : r ≤ 10) (ht : ∀ i x y k, t r i x y k = if k = i then g x y else 0) (u : Vec) :
    roundXor (tableEntry (fullStore (instanceByte cin cout t))) r u =
      vecOfBits (fun j => (g (byteOf u (j / 8)).toNat (byteOf u ((j / 8 + 1) % 32)).toNat).getLsbD (j % 8)) 256 := by
  apply vec_ext
  intro j hj
  rw [roundXor, xorVecs_getLsbD, vecOfBits_getLsbD _ _ _ (le_refl _), xorBelow_single _ (i := j / 8) (by omega)]
  · rw [lookupEntry, tableEntry_bit _ _ _ h1 h10 (by omega) (byteOf _ _).isLt (byteOf _ _).isLt hj, ht, if_pos rfl]
    simp [hj]
  · intro i hi hij
    rw [lookupEntry, tableEntry_bit _ _ _ h1 h10 hi (byteOf _ _).isLt (byteOf _ _).isLt hj, ht, if_neg hij.symm]
    simp

/-- `T(r, i, x, y) = e_i(x)` (95_test_vectors.md V3). -/
def tablesX (_ i x _ k : Nat) : Byte := if k = i then BitVec.ofNat 8 x else 0

/-- `T(r, i, x, y) = e_i(y)` (95_test_vectors.md V2). -/
def tablesY (_ i _ y k : Nat) : Byte := if k = i then BitVec.ofNat 8 y else 0

theorem roundXor_tablesX (cin cout : Byte) {r : Nat} (h1 : 1 ≤ r) (h10 : r ≤ 10) (u : Vec) :
    roundXor (tableEntry (fullStore (instanceByte cin cout tablesX))) r u = u := by
  rw [roundXor_bytes cin cout tablesX (fun x _ => BitVec.ofNat 8 x) h1 h10 (fun _ _ _ _ => rfl)]
  apply vec_ext
  intro j hj
  rw [vecOfBits_getLsbD _ _ _ (le_refl _), BitVec.ofNat_toNat, BitVec.setWidth_eq, byteOf_getLsbD]
  rw [show 8 * (j / 8) + j % 8 = j by omega]
  simp [hj]
  omega

/-- V1: `F_in` with bias 80^32, on 00..1f. -/
theorem test_evalFin : ∃ t, exec .evalFin (loaded 0x80 0 tablesX false upTo31) = .next t ∧
    t.buf = vec [0x80, 0x81, 0x82, 0x83, 0x84, 0x85, 0x86, 0x87, 0x88, 0x89, 0x8a, 0x8b, 0x8c, 0x8d, 0x8e, 0x8f, 0x90, 0x91,
      0x92, 0x93, 0x94, 0x95, 0x96, 0x97, 0x98, 0x99, 0x9a, 0x9b, 0x9c, 0x9d, 0x9e, 0x9f] := by
  have h := encodeBuf_of_written (s := loaded 0x80 0 tablesX false upTo31) (l := Config.finL) (c := Config.finC)
    (encodingWritten_fin _)
  refine ⟨_, by rw [exec, execEvalFin, finStage, h]; rfl, ?_⟩
  rw [complete_buf, writeBuf_buf, loaded_store]
  refine (instanceByte_fin ..).trans ?_
  decide +kernel

/-- V2: round 1 on 00..1f gives 01 02 .. 1f 00, byte 31 through the wrap. -/
theorem test_evalRound : ∃ t, exec (.evalRound 1) (loaded 0 0 tablesY false upTo31) = .next t ∧ t.inp = upTo31 ∧
    t.acc = t.buf ∧ t.buf = vec [1, 2, 3, 4, 5, 6, 7, 8, 9, 10, 11, 12, 13, 14, 15, 16, 17, 18, 19, 20, 21, 22, 23, 24, 25, 26,
      27, 28, 29, 30, 31, 0] := by
  have h := roundStage_of_written (s := loaded 0 0 tablesY false upTo31) (r := (1 : BitVec 4).toNat)
    (roundWritten_full _ (by decide) (by decide) _)
  refine ⟨_, by rw [exec, execEvalRound, h]; rfl, rfl, rfl, ?_⟩
  rw [complete_buf, writeBuf_buf, loaded_store]
  refine (roundXor_bytes 0 0 tablesY (fun _ y => BitVec.ofNat 8 y) (by decide) (by decide) (fun _ _ _ _ => rfl) _).trans ?_
  decide +kernel

/-- V7: `F_out` with bias ff^32, on 00..1f. -/
theorem test_evalFout : ∃ t, exec .evalFout (loaded 0 0xff tablesX true upTo31) = .next t ∧
    t.buf = vec [0xff, 0xfe, 0xfd, 0xfc, 0xfb, 0xfa, 0xf9, 0xf8, 0xf7, 0xf6, 0xf5, 0xf4, 0xf3, 0xf2, 0xf1, 0xf0, 0xef, 0xee,
      0xed, 0xec, 0xeb, 0xea, 0xe9, 0xe8, 0xe7, 0xe6, 0xe5, 0xe4, 0xe3, 0xe2, 0xe1, 0xe0] := by
  have h := encodeBuf_of_written (s := loaded 0 0xff tablesX true upTo31) (l := Config.foutL) (c := Config.foutC)
    (encodingWritten_fout _)
  refine ⟨_, by rw [exec, execEvalFout, foutStage, if_pos (show (loaded 0 0xff tablesX true upTo31).outPresent = true from rfl), h]; rfl, ?_⟩
  rw [complete_buf, writeBuf_buf, loaded_store]
  refine (instanceByte_fout ..).trans ?_
  decide +kernel

/-! Witnesses: for each statement with hypotheses, concrete states and operands that meet all of them together, at the
boundary values of their ranges. The name says the statement. -/

/-- A busy state whose next inputs are `l`. -/
def busyWith (w : Word32) (l : List Input) : State := { ready with busy := true, pend := w, inputs := l }

theorem witness_DecodeInvertsEncode :
    (Instr.evalRound 10).wellFormed = true ∧ (Instr.aapply .d256 7 3 7).wellFormed = true ∧
    (Instr.mident .d128 3).wellFormed = true := by decide

theorem witness_EncodeInvertsDecode : decode 0x20B98000 = .ok (.aapply .d256 7 1 4) := by decide +kernel

theorem witness_AssemblerAndMmov : assemble (.ainv .d256 3 0) = some 0x22980000 ∧ (3 : MReg) ≠ 0 :=
  ⟨by decide +kernel, by decide⟩

theorem witness_StepRunsDecodedCommand :
    (busyWith 0x10980000 []).busy = true ∧ decode (busyWith 0x10980000 []).pend = .ok (.mident .d256 3) ∧
    (busyWith 0x10980000 []).inputs = [] ∧
    (busyWith 0x10980000 [.engineTurn, .reset]).inputs = .engineTurn :: [.reset] ∧
    (busyWith 0x32000000 []).busy = true ∧ ∃ e, decode (busyWith 0x32000000 []).pend = .error e := by
  refine ⟨rfl, by decide +kernel, rfl, rfl, rfl, ?_⟩
  cases h : decode (busyWith 0x32000000 []).pend with
  | error e => exact ⟨e, rfl⟩
  | ok i =>
    have : (decode 0x32000000).isOk = false := by decide +kernel
    rw [show decode 0x32000000 = .ok i from h] at this
    cases this

theorem witness_StepTakesItsNextInput :
    { ready with inputs := [.read32 0x1000] }.inputs = .read32 0x1000 :: [] ∧
    { ready with inputs := [.write32 0x010 0, .engineTurn] }.inputs = .write32 0x010 0 :: [.engineTurn] ∧
    { ready with inputs := [.reset] }.inputs = .reset :: [] ∧
    { ready with inputs := [.engineTurn] }.inputs = .engineTurn :: [] ∧ ready.busy = false ∧ ready.inputs = [] :=
  ⟨rfl, rfl, rfl, rfl, rfl, rfl⟩

theorem witness_AcceptanceStoresTheWord : State.reset.busy = false := rfl

theorem witness_BusyOnlyByCmdWrite :
    after (step { ready with inputs := [.write32 0x010 0xFFFFFFFF] }) (fun t => t.busy) = true ∧ ready.busy = false := by
  decide +kernel

theorem witness_IdleOnlyByCompletionOrReset :
    after (step (busyWith 0 [])) (fun t => !t.busy) = true ∧ after (step (busyWith 0 [.engineTurn])) (fun t => !t.busy) = true ∧
    after (step (busyWith 0 [.reset])) (fun t => !t.busy) = true ∧ (busyWith 0 []).busy = true := by decide +kernel

theorem witness_IllegalWordRaisesIllegal :
    legalWord 0xFFFFFFFF = false ∧ legalWord 0x32001600 = false ∧ legalWord 1 = false := by decide +kernel

theorem witness_ErrorRecordHoldsTheFirst :
    after (exec .nop { ready with err := true, errcode := 2 }) (fun t => t.err) = true ∧
    after (exec (.minv .d8 0 0) { ready with err := true, errcode := 1 }) (fun t => t.err) = true := by decide +kernel

theorem witness_ErrClearedOnlyByHost :
    after (step { ready with err := true, errcode := 2, inputs := [.write32 0x00C 4] }) (fun t => !t.err) = true ∧
    after (step { ready with err := true, errcode := 2, inputs := [.reset] }) (fun t => !t.err) = true := by decide +kernel

theorem witness_OnlyInversionsFail :
    (Instr.minv .d8 1 0).wellFormed = true ∧ after (exec (.minv .d8 1 0) ready) (fun t => t.err) = true ∧
    (Instr.mmul .d8 1 0 2).wellFormed = true ∧ after (exec (.mmul .d8 1 0 2) ready) (fun t => !t.err) = true := by
  decide +kernel

theorem witness_CommandsWriteOnlyTheirState :
    after (exec (.mmul .d8 1 0 2) ready) (fun t => t.done) = true ∧ Instr.mmul .d8 1 0 2 ≠ .eval ∧
    (∀ r, Instr.mmul .d8 1 0 2 ≠ .evalRound r) ∧ ∀ n a b, Instr.mmul .d8 1 0 2 ≠ .meq n a b :=
  ⟨by decide +kernel, by simp, by simp, by simp⟩

/-- Two host accesses during a NOP, one during an EVAL that will fault. -/
theorem witness_ResultIndependentOfLatency :
    [Input.write32 0x1100 5, .read32 0x1100, .read32 0x00C].all isHostAccess = true ∧ (busyWith 0 []).busy = true ∧
    after (runFrom 2 { busyWith 0 [] with inputs := [.write32 0x1100 5, .read32 0x1100] ++ [] }) (fun t => t.busy) = true ∧
    after (completeCommand (busyWith 0 [])) (fun t => t.done) = true ∧
    after (runFrom 1 { busyWith 0x30000000 [] with inputs := [.read32 0x00C] ++ [] }) (fun t => t.busy) = true ∧
    faultOf (completeCommand (busyWith 0x30000000 [])) = some (.unwrittenStore 0x10000) := by decide +kernel

/-! The register commands. MMUL, MAPPLY and MINV have no hypothesis but those of witness_MinvInverts. -/

theorem witness_MeqCompares : ∃ t, raise .illegal ready = .next t := ⟨_, rfl⟩

/-- The hypothesis of AapplyApplies, AcompComposes and CompositionAppliesInnerFirst: every dimension the commands have. -/
theorem witness_AapplyApplies : Dim.d8.affine = true ∧ Dim.d256.affine = true := ⟨rfl, rfl⟩

/-- The hypotheses of the clauses about illegal words (MidentLoadsIdentity, NopOnlyCompletes and the statements of the other
commands): an illegal word of each opcode. -/
theorem witness_IllegalWordsRaise :
    [0x10C00000#32, 0x10200000#32, 0x11E00000#32, 0x12002000#32, 0x13000200#32, 0x14080000#32, 0x20400000#32, 0x21400000#32,
      0x22400000#32, 0x32000000#32, 0x32001E00#32, 0x00000001#32, 0x30400000#32, 0x31000001#32, 0x33000100#32].all
      (fun w => !legalWord w) = true := by decide +kernel

/-- The hypotheses of the clauses that name one more field. -/
theorem witness_illegal_fields :
    (opField 0x20400000 = 0x20 ∧ dimField 0x20400000 = 0b01) ∧ (opField 0x21400000 = 0x21 ∧ dimField 0x21400000 = 0b01) ∧
    (opField 0x22400000 = 0x22 ∧ dimField 0x22400000 = 0b01) ∧ (opField 0x00000001 = 0 ∧ (0x00000001 : Word32) ≠ 0) ∧
    (opField 0x30400000 = 0x30 ∧ (0x30400000 : Word32) ≠ 0x30000000) ∧
    (opField 0x31000001 = 0x31 ∧ (0x31000001 : Word32) ≠ 0x31000000) ∧
    (opField 0x33000100 = 0x33 ∧ (0x33000100 : Word32) ≠ 0x33000000) ∧
    (opField 0x32000000 = 0x32 ∧ rndField 0x32000000 = 0) ∧ (opField 0x32001600 = 0x32 ∧ 11 ≤ (rndField 0x32001600).toNat) ∧
    (opField 0x32001E00 = 0x32 ∧ 11 ≤ (rndField 0x32001E00).toNat) := by decide +kernel

theorem identity_invertible (n : Nat) (hn : n ≤ 256) : Invertible n (identity 256) := by
  refine ⟨identity 256, fun i j hi hj => ?_⟩
  have h : productEntry n (identity 256) (identity 256) i j = decide (i = j) := by
    rw [productEntry, xorBelow_single _ hi]
    · rw [entry_identity _ _ _ (le_refl _), entry_identity _ _ _ (le_refl _)]
      simp [show i < 256 by omega]
    · intro k _ hk
      rw [entry_identity _ _ _ (le_refl _)]
      simp [hk.symm]
  exact ⟨h, h⟩

theorem zero_not_invertible (n : Nat) (h0 : 0 < n) : ¬ Invertible n (Vector.replicate 256 0) :=
  not_invertible_of_kernel (v := fun j => decide (j = 0)) ⟨0, h0, rfl⟩ fun i _ => by
    rw [rowDot, xorBelow_congr (g := fun _ => false), xorBelow_false]
    intro j _
    rw [row]
    split <;> simp

/-- Both cases, for every dimension. -/
theorem witness_MinvInverts (n : Dim) :
    Invertible (dimSize n) { State.reset with m := Vector.replicate 4 (identity 256) }.m[(3 : MReg)] ∧
    ¬ Invertible (dimSize n) State.reset.m[(3 : MReg)] := by
  refine ⟨?_, ?_⟩
  · have e : { State.reset with m := Vector.replicate 4 (identity 256) }.m[(3 : MReg)] = identity 256 :=
      Vector.getElem_replicate ..
    rw [e]
    exact identity_invertible _ (dimSize_le n)
  · have e : State.reset.m[(3 : MReg)] = Vector.replicate 256 0 := Vector.getElem_replicate ..
    rw [e]
    exact zero_not_invertible _ (by cases n <;> decide)

/-- The hypotheses of AinvInverts and AffineInverseUndoes, both cases, for every dimension the command has. -/
theorem witness_AinvInverts (n : Dim) :
    Dim.d8.affine = true ∧ Dim.d256.affine = true ∧
    Invertible (dimSize n) { State.reset with m := Vector.replicate 4 (identity 256) }.m[(3 : MReg)] ∧
    ¬ Invertible (dimSize n) State.reset.m[(3 : MReg)] :=
  ⟨rfl, rfl, witness_MinvInverts n⟩

theorem witness_EvalFinAppliesInputEncoding :
    EncodingWritten (loaded 0x80 0 tablesX false upTo31).store 0x10000 0x12000 := encodingWritten_fin _

theorem witness_EvalRoundXorsItsTables :
    ∀ r : BitVec 4, r = 1 ∨ r = 10 → 1 ≤ r.toNat ∧ r.toNat ≤ 10 ∧
      RoundWritten (loaded 0 0 tablesY false upTo31).store r.toNat (loaded 0 0 tablesY false upTo31).buf := by
  rintro r (rfl | rfl)
  · exact ⟨by decide, by decide, roundWritten_full _ (by decide) (by decide) _⟩
  · exact ⟨by decide, by decide, roundWritten_full _ (by decide) (by decide) _⟩

theorem witness_EvalFoutAppliesOutputEncoding :
    (loaded 0 0xff tablesX true upTo31).outPresent = true ∧
    EncodingWritten (loaded 0 0xff tablesX true upTo31).store 0x14000 0x16000 ∧ State.reset.outPresent = false :=
  ⟨rfl, encodingWritten_fout _, rfl⟩

/-- With an output encoding; the case without one is the next witness. -/
theorem witness_EvalRunsTheProcedure :
    EncodingWritten (loaded 0x80 0xff tablesY true upTo31).store 0x10000 0x12000 ∧
    ((loaded 0x80 0xff tablesY true upTo31).outPresent = true →
      EncodingWritten (loaded 0x80 0xff tablesY true upTo31).store 0x14000 0x16000) ∧
    ∀ r, r < 10 → RoundWritten (loaded 0x80 0xff tablesY true upTo31).store (r + 1)
      (roundsXor (tableEntry (loaded 0x80 0xff tablesY true upTo31).store) r
        (applyEncoding (loaded 0x80 0xff tablesY true upTo31).store 0x10000 0x12000
          (loaded 0x80 0xff tablesY true upTo31).buf)) :=
  ⟨encodingWritten_fin _, fun _ => encodingWritten_fout _, fun _ hr => roundWritten_full _ (by omega) (by omega) _⟩

theorem witness_LoadedInstanceEvaluates :
    InstanceLoaded (loaded 0 0 tablesX false upTo31) ∧ InstanceLoaded (loaded 0 0 tablesX true upTo31) :=
  ⟨instanceLoaded .., instanceLoaded ..⟩

/-- Byte `q` of the mask `h(r, j, v)` of 95_test_vectors.md V9. -/
def maskByte (r j v q : Nat) : Byte := BitVec.ofNat 8 (v * (j + 1) + r + 7 * q)

/-- The tables of 95_test_vectors.md V9: those of V3 with the masks added. -/
def tablesMasked (r i x y k : Nat) : Byte := tablesX r i x y k ^^^ maskByte r i x k ^^^ maskByte r ((i + 1) % 32) y k

/-- The mask `h(10, j, v)` of V9. -/
def mask10 (j v : Nat) : Vec := vecOfBits (fun b => (maskByte 10 j v (b / 8)).getLsbD (b % 8)) 256

/-- The one entry that V9 lists: T(1, 0, 0, 1). -/
theorem test_masked_entry : (List.range 32).map (tablesMasked 1 0 0 1) =
    [0x02, 0x02, 0x1e, 0x0e, 0x02, 0x02, 0x06, 0x06, 0x02, 0x02, 0x0e, 0x1e, 0x02, 0x02, 0x06, 0x06, 0x02, 0x02, 0xfe, 0x0e,
      0x02, 0x02, 0x06, 0x06, 0x02, 0x02, 0x0e, 0x7e, 0x02, 0x02, 0x06, 0x06] := by decide +kernel

/-- The last round of V3 and of V9, whose tables differ by V9's masks. -/
theorem witness_MasksCancelInARound :
    ∃ (s s' : State) (h : Nat → Nat → Vec), s'.store ≠ s.store ∧ s'.buf = s.buf ∧
      RoundWritten s.store (10 : BitVec 4).toNat s.buf ∧ RoundWritten s'.store (10 : BitVec 4).toNat s.buf ∧
      ∀ i x y, i < 32 → x < 256 → y < 256 →
        tableEntry s'.store (10 : BitVec 4).toNat i x y =
          tableEntry s.store (10 : BitVec 4).toNat i x y ^^^ h i x ^^^ h ((i + 1) % 32) y := by
  have hT : ∀ i x y, i < 32 → x < 256 → y < 256 →
      tableEntry (loaded 0 0 tablesMasked false upTo31).store 10 i x y =
        tableEntry (loaded 0 0 tablesX false upTo31).store 10 i x y ^^^ mask10 i x ^^^ mask10 ((i + 1) % 32) y := by
    intro i x y hi hx hy
    rw [loaded_store, loaded_store]
    apply vec_ext
    intro j hj
    rw [BitVec.getLsbD_xor, BitVec.getLsbD_xor, tableEntry_bit _ _ _ (by omega) (by omega) hi hx hy hj,
      tableEntry_bit _ _ _ (by omega) (by omega) hi hx hy hj, mask10, mask10, vecOfBits_getLsbD _ _ _ (le_refl _),
      vecOfBits_getLsbD _ _ _ (le_refl _), tablesMasked, BitVec.getLsbD_xor, BitVec.getLsbD_xor]
    simp [hj]
  refine ⟨loaded 0 0 tablesX false upTo31, loaded 0 0 tablesMasked false upTo31, mask10, fun he => ?_, rfl,
    roundWritten_full _ (by decide) (by decide) _,
    roundWritten_full _ (by decide) (by decide) _, hT⟩
  have h := hT 0 0 1 (by omega) (by omega) (by omega)
  rw [he, BitVec.xor_assoc] at h
  have hx : ∀ a b : Vec, a ^^^ b = a → b = 0 := fun a b hab => by
    rw [← BitVec.zero_xor (x := b), ← BitVec.xor_self (x := a), BitVec.xor_assoc, hab, BitVec.xor_self]
    rfl
  have h0 := hx _ _ h.symm
  revert h0
  decide +kernel

theorem packBlocks_halves (s : Vec) : packBlocks (upperBlock s) (lowerBlock s) = s := by
  apply vec_ext
  intro j hj
  rw [packBlocks_getLsbD, upperBlock, lowerBlock, BitVec.getLsbD_extractLsb', BitVec.getLsbD_extractLsb']
  split
  · next h => simp [h]
  · next h =>
    rw [show 128 + (j - 128) = j by omega]
    simp [show j - 128 < 128 by omega]

/-- The identity as an affine map. -/
def identityMap : AffineMap := ⟨identity 256, 0⟩

theorem identityMap_apply (x : Vec) : identityMap.apply x = x := by
  apply vec_ext
  intro j hj
  rw [AffineMap.apply_getLsbD, identityMap, applyBit, xorBelow_single _ hj]
  · simp [hj]
  · intro k _ hk
    simp [hk.symm]

/-- A correct instance, without `F_out` and with one: the tables e_i(x) for the core whose functions are all the identity and
whose keys are 0, with every `A^(r)` the identity. -/
theorem witness_CorrectInstanceComputesAes (present : Bool) :
    CorrectInstance (loaded 0 0xff tablesX present upTo31) ⟨id, id, id, fun _ => 0⟩ (fun _ => identityMap) ∧
    (loaded 0 0xff tablesX present upTo31).outPresent = present := by
  have hz : packBlocks 0 0 = 0 := by decide
  have hrep : repeated 0 = 0 := by decide +kernel
  refine ⟨⟨instanceLoaded .., fun _ _ _ => identity_invertible 256 (le_refl _), ?_, ?_, ?_⟩, rfl⟩
  · intro u
    refine (instanceByte_fin 0 0xff tablesX u).trans ?_
    rw [hrep, AesCore.wideKey, hz, identityMap_apply]
  · intro r ai s h1 h10 hai
    have hs : ai.apply s = s := by
      obtain ⟨g, hg, -, hgl, -⟩ | ⟨hg, -⟩ := identityMap.inverse_cases
      · obtain rfl : g = ai := Option.some.inj (hg.symm.trans hai)
        simpa [identityMap_apply] using hgl s
      · rw [hg] at hai; cases hai
    refine (roundXor_tablesX 0 0xff h1 h10 s).trans ?_
    have hlin : ∀ b, AesCore.linearBlock ⟨id, id, id, fun _ => 0⟩ r b = b := by
      intro b; unfold AesCore.linearBlock; split <;> rfl
    have hsub : AesCore.wideSub ⟨id, id, id, fun _ => 0⟩ s = s := by
      apply vec_ext
      intro j hj
      rw [AesCore.wideSub, vecOfBits_getLsbD _ _ _ (le_refl _)]
      simp only [id]
      rw [byteOf_getLsbD, show 8 * (j / 8) + j % 8 = j by omega]
      simp [hj]
      omega
    rw [hs, hsub, AesCore.wideKey, hz, onHalves, hlin, hlin, packBlocks_halves, identityMap_apply]
    exact BitVec.xor_zero.symm
  · cases present
    · exact .inl ⟨identityMap_apply, rfl⟩
    · exact .inr rfl

/-- A step that makes the record, and one that holds it. -/
theorem witness_CommandFaultsNameUnwrittenBytes :
    faultOf (exec .eval ready) = some (.unwrittenStore 0x10000) ∧
    after (step { State.reset with inputs := [.read32 0x1104] }) (fun t => t.unwrittenRead == some (.buf, 4)) = true ∧
    after (step { State.reset with inputs := [.read32 0x1104], unwrittenRead := some (.m 3 255, 31) })
      (fun t => t.unwrittenRead == some (.m 3 255, 31)) = true := by decide +kernel

/-- Every command that reads a register, on unwritten sources; EVAL on a loaded instance and on one whose first unwritten byte is
in FIN, in a round and in FOUT. -/
theorem witness_UnwrittenSourcesAreRecorded :
    [Instr.mmul .d8 0 1 2, .minv .d8 1 3, .mapply .d8 0 1 7, .meq .d8 1 3, .aapply .d8 0 3 7, .acomp .d8 0 1 2, .ainv .d8 0 1].all
      (fun i => i.wellFormed && after (exec i State.reset) fun t => t.unwrittenRead.isSome) = true ∧
    (∃ t, exec .evalFin { loaded 0x80 0 tablesX false upTo31 with marks := State.reset.marks } = .next t ∧
      t.unwrittenRead = some (.buf, 0)) ∧
    StoreReadsWritten .eval (loaded 0x80 0xff tablesY true upTo31) ∧
    (¬ StoreReadsWritten .eval ready ∧ ¬ StoreReadsWritten .evalFin ready ∧ ¬ StoreReadsWritten (.evalRound 10) ready ∧
      ¬ StoreReadsWritten .evalFout { ready with outPresent := true }) ∧
    (∃ s : State, EncodingWritten s.store 0x10000 0x12000 ∧ ¬ StoreReadsWritten .eval s) ∧
    ∃ s : State, s.outPresent = true ∧ EncodingWritten s.store 0x10000 0x12000 ∧
      (∀ r v, 1 ≤ r → r ≤ 10 → RoundWritten s.store r v) ∧ ¬ StoreReadsWritten .eval s := by
  have hn : ∀ a, ¬ written ready.store a := fun a h => by cases h
  have he := encodeBuf_of_written (s := { loaded 0x80 0 tablesX false upTo31 with marks := State.reset.marks })
    (l := Config.finL) (c := Config.finC) (encodingWritten_fin _)
  have hno : ∀ (m : Memory) (a : Nat), memRead m a = none → ¬ written m a := fun m a h hw => by
    rw [written, h] at hw; cases hw
  obtain ⟨m1, hm1⟩ : ∃ m : Memory, ∀ a, memRead m a = if 0x10000 ≤ a ∧ a < 0x10000 + 0x2020 then some 0 else none :=
    ⟨_, memRead_filled (fun _ => 0) 0x10000 0x2020⟩
  obtain ⟨m2, hm2⟩ : ∃ m : Memory, ∀ a, memRead m a = if 0x40000000 ≤ a ∧ a < 0x40000000 + 0x28000000 then some 0 else none :=
    ⟨_, memRead_filled (fun _ => 0) 0x40000000 0x28000000⟩
  have h1 : ∀ a, 0x10000 ≤ a → a < 0x12020 → written m1 a := fun a h1 h2 => by
    rw [written, hm1, if_pos (by omega)]; rfl
  have h12 : ∀ a, (0x10000 ≤ a ∧ a < 0x12020) ∨ (0x40000000 ≤ a ∧ a < 0x68000000) → written (m1 ++ m2) a := fun a h => by
    rw [written, memRead_append, hm1, hm2]
    by_cases h1 : 0x10000 ≤ a ∧ a < 0x12020
    · rw [if_pos (show 0x10000 ≤ a ∧ a < 0x10000 + 0x2020 by omega)]; rfl
    · rw [if_neg (show ¬ (0x10000 ≤ a ∧ a < 0x10000 + 0x2020) by omega), if_pos (show 0x40000000 ≤ a ∧ a < 0x40000000 + 0x28000000 by omega)]
      rfl
  refine ⟨by decide +kernel, ⟨_, by rw [exec, execEvalFin, finStage, he]; rfl, ?_⟩, ?_,
    ⟨fun h => hn _ (h.1.2 0 (by decide)), fun h => hn _ (h.2 0 (by decide)), fun h => hn _ (h 0 0 (by decide) (by decide)),
      fun h => hn _ ((h rfl).2 0 (by decide))⟩, ?_, ?_⟩
  · show (none : Option (RegName × Nat)).or (vecHole .buf State.reset.marks.buf 0 32) = _
    decide +kernel
  · exact ⟨encodingWritten_fin _, fun _ hr => roundWritten_full _ (by omega) (by omega) _, fun _ => encodingWritten_fout _⟩
  · refine ⟨{ ready with store := m1 },
      ⟨fun i k hi hk => h1 _ (by omega) (by omega), fun k hk => h1 _ (by omega) (by omega)⟩, fun h => ?_⟩
    refine hno m1 _ ?_ (h.2.1 0 (by omega) 0 0 (by omega) (by omega))
    rw [hm1, if_neg]
    simp only [tableAddr, Config.tblBase]
    omega
  · refine ⟨{ ready with store := m1 ++ m2, outPresent := true }, rfl,
      ⟨fun i k hi hk => h12 _ (by omega), fun k hk => h12 _ (by omega)⟩, fun r v h1 h10 i k hi hk => h12 _ ?_, fun h => ?_⟩
    · have hx := (byteOf v i).isLt
      have hy := (byteOf v ((i + 1) % 32)).isLt
      simp only [tableAddr, Config.tblBase]
      omega
    · refine hno (m1 ++ m2) 0x16000 ?_ ((h.2.2 rfl).2 0 (by omega))
      rw [memRead_append, hm1, hm2, if_neg (show ¬ (0x10000 ≤ 0x16000 ∧ 0x16000 < 0x10000 + 0x2020) by omega)]
      rfl

/-- The first and last address of each mapped range, the addresses next to them, and other widths. -/
theorem witness_BusErrorsExactly :
    (∀ a ∈ [0x0, 0x20, 0x1000, 0x10FC, 0x1100, 0x111C, 0x1120, 0x113C, 0x1140, 0x115C, 0x8000, 0xFFFC, 0x10000, 0x11FFC,
      0x12000, 0x1201C, 0x14000, 0x15FFC, 0x16000, 0x1601C, 0x40000000, 0x67FFFFFC], a % 4 = 0 ∧ Mapped a) ∧
    (∀ a ∈ [0x24, 0xFFC, 0x1160, 0x7FFC, 0x12020, 0x13FFC, 0x16020, 0x3FFFFFFC, 0x68000000, 0xFFFFFFFC, 0x2], ¬ (a % 4 = 0 ∧ Mapped a)) ∧
    ∀ width ∈ [8, 16, 31, 33, 64], width ≠ 32 := by
  unfold Mapped
  decide

theorem witness_BusyWritesAreDropped :
    (busyWith 0 []).busy = true ∧ ∀ a ∈ [0x010, 0x018, 0x01C, 0x020, 0x1000, 0x10FC, 0x1100, 0x111C, 0x8000, 0xFFFC, 0x10000,
      0x1201C, 0x14000, 0x1601C, 0x40000000, 0x67FFFFFC], a % 4 = 0 ∧ BusyLocked a := by
  refine ⟨rfl, ?_⟩
  unfold BusyLocked StoreAddress
  decide

theorem witness_BusyReadsAreFree :
    (busyWith 0 []).busy = true ∧ ∀ a ∈ [0x1000, 0x115C, 0x8000, 0xFFFC], a % 4 = 0 ∧ RegisterAddress a := by
  refine ⟨rfl, ?_⟩
  unfold RegisterAddress
  decide

theorem witness_ReadsHaveNoSideEffect :
    after (hostRead32 0x1000 ready) (fun t => t.draws == 0) = true ∧
    after (hostRead32 0x1000 (busyWith 0 [])) (fun t => t.draws == 1) = true ∧ ready.busy = false := by decide +kernel

theorem witness_ReadOnlyLocationsIgnoreWrites :
    [0x000#32, 0x004#32, 0x014#32, 0x1120#32, 0x115C#32].all (fun a => decide (a.toNat % 4 = 0 ∧ (a.toNat = 0x000 ∨
      a.toNat = 0x004 ∨ a.toNat = 0x014 ∨ (0x1120 ≤ a.toNat ∧ a.toNat ≤ 0x115F)))) = true ∧ ready.busy = false ∧ ready.ovr = false ∧
    after (hostWrite32 0x00C 0xFFFFFFFB ready) (fun t => !t.done) = true ∧ (0xFFFFFFFB : Word32).getLsbD 2 = false := by
  decide +kernel

theorem witness_RegisterWritesLandAtTheirBytes :
    (0 < 8 ∧ 7 < 8) ∧ (0 < 256 ∧ 255 < 256) ∧ ready.busy = false ∧ State.reset.busy = false :=
  ⟨by decide, by decide, rfl, rfl⟩

theorem witness_StoreWordReadsBack :
    ready.busy = false ∧ (∀ a ∈ [0x10000, 0x1201C, 0x14000, 0x1601C, 0x40000000, 0x67FFFFFC], a % 4 = 0 ∧ StoreAddress a) ∧
    ∀ a, ∃ k, k < 4 ∧ memRead ready.store (a + k) = none := by
  refine ⟨rfl, ?_, fun a => ⟨3, by decide, rfl⟩⟩
  unfold StoreAddress
  decide

/-- A word written whole and one not: the second read is recorded. -/
theorem witness_RegisterReadsReturnStoredWords :
    State.reset.busy = false ∧ ready.busy = false ∧
    after (hostRead32 0x111C { ready with buf := upTo31 })
      (fun t => t.response == some (.data 0x1f1e1d1c) && t.unwrittenRead.isNone) = true ∧
    after (hostRead32 0xFFFC State.reset) (fun t => t.unwrittenRead == some (.m 3 255, 28)) = true := by decide +kernel

theorem witness_EngineReadsBytesInOrder (f : Nat → Byte) :
    (∀ k, k < 32 → written (fullStore f) (0x10000 + k)) ∧ ∀ k, k < 32 → written (fullStore f) (0x67FFFFE0 + k) :=
  ⟨fun _ _ => written_fullStore f ((isStore_iff _).mpr (by omega)), fun _ _ => written_fullStore f ((isStore_iff _).mpr (by omega))⟩

theorem witness_TableEntriesAreDisjoint :
    (1 ≤ 10 ∧ 10 ≤ 10 ∧ 31 < 32 ∧ 255 < 256) ∧
    tableAddr 10 31 255 255 < tableAddr 10 31 255 255 + 32 ∧ tableAddr 1 0 0 0 < tableAddr 1 0 0 0 + 32 := by decide

theorem witness_InterruptLevel : (0xFFFFFFFE : Word32).getLsbD 0 = false ∧ ∃ line, line ≠ Config.wbrtIrqLine :=
  ⟨by decide, Config.wbrtIrqLine + 1, by omega⟩

theorem witness_ResetEventClearsEverything :
    (busyWith 0x30000000 [.reset, .engineTurn]).inputs = .reset :: [.engineTurn] := rfl

/-- The invariant holds of a loaded state with an error recorded, and that state steps. -/
theorem witness_StepKeepsInvariant :
    State.Inv { ready with store := [(0x10000, 7), (0x67FFFFFF, 0)], err := true, errcode := 2, inputs := [.write32 0x1201C 5] } ∧
    after (step { ready with store := [(0x10000, 7), (0x67FFFFFF, 0)], err := true, errcode := 2, inputs := [.write32 0x1201C 5] })
      (fun t => t.store.length == 6) = true :=
  ⟨⟨by decide, by decide, fun h => absurd h (by decide), fun _ => .inr (by decide)⟩, by decide +kernel⟩

/-- B has an inverse at n = 8, I + Rot has none. -/
theorem witness_MatrixInverseLaws :
    (matInverse 8 (leadMat 8 (rows8 matB))).isSome = true ∧ (matInverse 8 (leadMat 8 (rows8 matRot))).isSome = true ∧
    matInverse 8 (leadMat 8 (rows8 matRank7)) = none ∧ leadVec 8 (vec [0xff]) ≠ 0 ∧
    matVec 8 (leadMat 8 (rows8 matRank7)) (leadVec 8 (vec [0xff])) = 0 := by decide +kernel

theorem witness_LiftedMatrixAppliesTheFunction :
    ∀ x y : Vec, (fun v : Vec => v ^^^ (v <<< 1)) (x ^^^ y) = (fun v : Vec => v ^^^ (v <<< 1)) x ^^^ (fun v : Vec => v ^^^ (v <<< 1)) y := by
  intro x y
  apply vec_ext
  intro j hj
  simp only [BitVec.getLsbD_xor, BitVec.getLsbD_shiftLeft]
  cases x.getLsbD j <;> cases y.getLsbD j <;> cases x.getLsbD (j - 1) <;> cases y.getLsbD (j - 1) <;> cases decide (j < 256) <;>
    cases decide (j < 1) <;> rfl

/-- A sparse unsplit matrix: I_8 in every block of the band but block (31, 0), which is `corner`. -/
def corner (a b : Nat) : Bool := if a % 2 = 0 then decide (b = a + 1) else decide (b + 1 = a) ^^ decide (b = a)

/-- Its entries. -/
def bandEntry (i j : Nat) : Bool :=
  decide (j = i) ^^ (if i < 248 then decide (j = i + 8) else decide (j < 8) && corner (i - 248) j)

def bandMatrix : BitMatrix := matOfRows fun i => vecOfBits (bandEntry i) 256

theorem entry_bandMatrix {i j : Nat} (hi : i < 256) (hj : j < 256) : entry bandMatrix i j = bandEntry i j := by
  rw [bandMatrix, entry_matOfRows, vecOfBits_getLsbD _ _ _ (le_refl _)]
  simp [hi, hj]

theorem entry_blockOf (l : BitMatrix) {p q a b : Nat} (ha : a < 8) (hb : b < 8) :
    entry (blockOf l p q) a b = entry l (8 * p + a) (8 * q + b) := by
  rw [blockOf, entry_matOfRows, if_pos ha, BitVec.getLsbD_setWidth, byteOf_getLsbD]
  simp [hb, show a < 256 by omega, show b < 256 by omega, entry]

/-- Invertibility looks at the leading view only. -/
theorem isInverse_of_entries {n : Nat} {x x' y : BitMatrix} (h : IsInverse n x y)
    (he : ∀ i j, i < n → j < n → entry x' i j = entry x i j) : IsInverse n x' y := by
  intro i j hi hj
  obtain ⟨h1, h2⟩ := h i j hi hj
  constructor
  · rw [← h1]; apply xorBelow_congr; intro k hk; rw [he i k hi hk]
  · rw [← h2]; apply xorBelow_congr; intro k hk; rw [he k j hk hj]

theorem xorBelow_pick (b : Nat → Bool) {i n : Nat} (hi : i < n) : xorBelow (fun k => decide (k = i) && b k) n = b i := by
  rw [xorBelow_single _ hi]
  · simp
  · intro k _ hk; simp [hk]

/-- What the matrix maps to 0 is 0. -/
theorem bandMatrix_kernel (v : Vec) (h : ∀ i, i < 256 → applyBit 256 bandMatrix v i = false) : v = 0 := by
  have hrow : ∀ i, i < 256 → xorBelow (fun k => bandEntry i k && v.getLsbD k) 256 = false := by
    intro i hi
    rw [← h i hi, applyBit]
    apply xorBelow_congr
    intro k hk
    rw [entry_bandMatrix hi hk]
  have hand : ∀ x y z : Bool, ((x ^^ y) && z) = ((x && z) ^^ (y && z)) := by decide
  have hlow : ∀ i, i < 248 → v.getLsbD (i + 8) = v.getLsbD i := by
    intro i hi
    have := hrow i (by omega)
    simp only [bandEntry, hi, if_true, hand, xorBelow_xor] at this
    rw [xorBelow_pick _ (by omega), xorBelow_pick _ (by omega)] at this
    revert this
    cases v.getLsbD i <;> cases v.getLsbD (i + 8) <;> decide
  have hall : ∀ m a, a < 8 → m < 32 → v.getLsbD (8 * m + a) = v.getLsbD a := by
    intro m a ha
    induction m with
    | zero => intro _; rw [show 8 * 0 + a = a by omega]
    | succ m ih =>
      intro hm
      rw [show 8 * (m + 1) + a = 8 * m + a + 8 by omega, hlow _ (by omega), ih (by omega)]
  have hlast : ∀ a, a < 8 → (xorBelow (fun k => decide (k < 8) && corner a k && v.getLsbD k) 256) = v.getLsbD a := by
    intro a ha
    have := hrow (248 + a) (by omega)
    simp only [bandEntry, show ¬ 248 + a < 248 by omega, if_false, hand, xorBelow_xor] at this
    rw [xorBelow_pick _ (by omega), show 248 + a - 248 = a by omega, show 248 + a = 8 * 31 + a by omega,
      hall 31 a ha (by omega)] at this
    revert this
    generalize xorBelow (fun k => decide (k < 8) && corner a k && v.getLsbD k) 256 = t
    cases v.getLsbD a <;> cases t <;> decide
  have heven : ∀ a, a < 8 → a % 2 = 0 → v.getLsbD (a + 1) = v.getLsbD a := by
    intro a ha h2
    rw [← hlast a ha, xorBelow_single _ (i := a + 1) (by omega)]
    · simp [corner, h2, show a + 1 < 8 by omega]
    · intro k _ hk; simp [corner, h2, hk]
  have hodd : ∀ a, a + 1 < 8 → a % 2 = 0 → v.getLsbD a = false := by
    intro a ha h2
    have := hlast (a + 1) ha
    rw [xorBelow_congr (g := fun k => (decide (k = a) && v.getLsbD k) ^^ (decide (k = a + 1) && v.getLsbD k)),
      xorBelow_xor, xorBelow_pick _ (by omega), xorBelow_pick _ (by omega)] at this
    · revert this
      cases v.getLsbD a <;> cases v.getLsbD (a + 1) <;> decide
    · intro k _
      rw [corner, if_neg (by omega), ← hand]
      by_cases hk : k < 8
      · simp [hk]
      · simp [hk, show k ≠ a by omega, show k ≠ a + 1 by omega]
  apply vec_ext
  intro j hj
  rw [show (0 : Vec).getLsbD j = false from BitVec.getLsbD_zero, show j = 8 * (j / 8) + j % 8 by omega,
    hall _ _ (by omega) (by omega)]
  by_cases h2 : j % 8 % 2 = 0
  · exact hodd _ (by omega) h2
  · rw [show j % 8 = j % 8 - 1 + 1 by omega, heven _ (by omega) (by omega)]
    exact hodd _ (by omega) (by omega)

/-- The matrix is sparse unsplit; the bias may be anything. -/
theorem test_sparseUnsplit (c : Vec) : SparseUnsplit bandMatrix c := by
  have hid : ∀ x, (∀ i j, i < 8 → j < 8 → entry x i j = decide (i = j)) → Invertible 8 x := by
    intro x hx
    obtain ⟨y, hy⟩ := identity_invertible 8 (by omega)
    refine ⟨y, isInverse_of_entries hy fun i j hi hj => ?_⟩
    rw [hx i j hi hj, entry_identity _ _ _ (le_refl _)]
    simp [show i < 256 by omega]
  refine ⟨?_, ?_, ?_, ?_⟩
  · intro p q hp hq h1 h2 a b ha hb
    rw [entry_blockOf _ ha hb, entry_bandMatrix (by omega) (by omega), bandEntry]
    have e1 : ¬ 8 * q + b = 8 * p + a := by omega
    split
    · have e2 : ¬ 8 * q + b = 8 * p + a + 8 := by omega
      simp [e1, e2]
    · have e2 : ¬ 8 * q + b < 8 := by omega
      simp [e1, e2]
  · intro p hp
    refine hid _ fun i j hi hj => ?_
    rw [entry_blockOf _ hi hj, entry_bandMatrix (by omega) (by omega), bandEntry]
    split
    · have e2 : ¬ 8 * p + j = 8 * p + i + 8 := by omega
      simp [e2, eq_comm]
    · have e2 : ¬ 8 * p + j < 8 := by omega
      simp [e2, eq_comm]
  · intro p hp
    by_cases h : p < 31
    · refine hid _ fun i j hi hj => ?_
      rw [entry_blockOf _ hi hj, entry_bandMatrix (by omega) (by omega), bandEntry, if_pos (by omega)]
      have e1 : (8 * ((p + 1) % 32) + j = 8 * p + i + 8) = (i = j) := by rw [eq_iff_iff]; omega
      have e2 : ¬ 8 * ((p + 1) % 32) + j = 8 * p + i := by omega
      simp [e1, e2]
    · obtain rfl : p = 31 := by omega
      refine ⟨rows8 [0x03, 0x01, 0x0c, 0x04, 0x30, 0x10, 0xc0, 0x40], isInverse_of_entries
        (x := rows8 [0x02, 0x03, 0x08, 0x0c, 0x20, 0x30, 0x80, 0xc0]) ?_ fun i j hi hj => ?_⟩
      · have h : ∀ i, i < 8 → ∀ j, j < 8 →
            productEntry 8 (rows8 [0x02, 0x03, 0x08, 0x0c, 0x20, 0x30, 0x80, 0xc0])
              (rows8 [0x03, 0x01, 0x0c, 0x04, 0x30, 0x10, 0xc0, 0x40]) i j = decide (i = j) ∧
            productEntry 8 (rows8 [0x03, 0x01, 0x0c, 0x04, 0x30, 0x10, 0xc0, 0x40])
              (rows8 [0x02, 0x03, 0x08, 0x0c, 0x20, 0x30, 0x80, 0xc0]) i j = decide (i = j) := by decide +kernel
        exact fun i j hi hj => h i hi j hj
      · have h : ∀ i, i < 8 → ∀ j, j < 8 → bandEntry (8 * 31 + i) (8 * ((31 + 1) % 32) + j) =
            entry (rows8 [0x02, 0x03, 0x08, 0x0c, 0x20, 0x30, 0x80, 0xc0]) i j := by decide +kernel
        rw [entry_blockOf _ hi hj, entry_bandMatrix (by omega) (by omega)]
        exact h i hi j hj
  · obtain ⟨y, _, h, _⟩ | ⟨_, v, h0, _, hv⟩ := matInverse_cases 256 bandMatrix (le_refl _)
    · exact ⟨y, h⟩
    · exact absurd (bandMatrix_kernel v hv) h0

/-- The matrix with I_8 in every block of the two block-diagonals. -/
def unitBand : BitMatrix := matOfRows fun i => vecOfBits (fun j => decide (j = i) ^^ decide (j = (i + 8) % 256)) 256

theorem entry_unitBand {i j : Nat} (hi : i < 256) (hj : j < 256) :
    entry unitBand i j = (decide (j = i) ^^ decide (j = (i + 8) % 256)) := by
  rw [unitBand, entry_matOfRows, vecOfBits_getLsbD _ _ _ (le_refl _)]
  simp [hi, hj]

/-- A banded matrix that is not invertible, so not sparse unsplit (90_conflicts.md C3), and two vectors that agree on bytes 31
and 0 only. -/
theorem witness_SparseByteDependsOnTwoBytes :
    Banded unitBand ∧ ¬ Invertible 256 unitBand ∧
    byteOf upTo31 31 = byteOf (oneHotByte 31 31) 31 ∧ byteOf upTo31 ((31 + 1) % 32) = byteOf (oneHotByte 31 31) ((31 + 1) % 32) ∧
    byteOf upTo31 1 ≠ byteOf (oneHotByte 31 31) 1 := by
  refine ⟨?_, not_invertible_of_kernel (v := fun _ => true) ⟨0, by omega, rfl⟩ ?_, by decide +kernel, by decide +kernel,
    by decide +kernel⟩
  · intro p q hp hq h1 h2 a b ha hb
    rw [entry_blockOf _ ha hb, entry_unitBand (by omega) (by omega), decide_eq_false (by omega), decide_eq_false (by omega)]
    rfl
  · intro i hi
    rw [rowDot, xorBelow_congr (g := fun j => (decide (j = i) && true) ^^ (decide (j = (i + 8) % 256) && true)), xorBelow_xor,
      xorBelow_pick _ hi, xorBelow_pick _ (Nat.mod_lt _ (by omega))]
    · rfl
    · intro j hj
      rw [show (row unitBand i).getLsbD j = entry unitBand i j from rfl, entry_unitBand hi hj]
      simp

end Sys2Proof.Tests
end

section
/-! SUPPORT. The CSR words on the bus: which access to which of them does what, and the bits of the words that a read composes
(10_state.md R22 to R31, 20_memory.md R48, R49). -/

namespace Sys2Proof.Machine

/-! A read of a CSR word (20_memory.md R49). The address is a literal, so its place in the map is found by evaluation. -/

theorem hostRead32_id (s : State) : hostRead32 0x000 s = answer Config.id s := rfl
theorem hostRead32_hwver (s : State) : hostRead32 0x004 s = answer Config.hwver s := rfl
theorem hostRead32_ctrl (s : State) : hostRead32 0x008 s = answer (ctrlWord s) s := rfl
theorem hostRead32_status (s : State) : hostRead32 0x00C s = answer (statusWord s) s := rfl
theorem hostRead32_errinfo (s : State) : hostRead32 0x014 s = answer s.errinfo s := rfl
theorem hostRead32_instFlags (s : State) : hostRead32 0x018 s = answer (instFlagsWord s) s := rfl
theorem hostRead32_instVersion (s : State) : hostRead32 0x01C s = answer (instVersionWord s) s := rfl
theorem hostRead32_instScheme (s : State) : hostRead32 0x020 s = answer s.scheme s := rfl

/-! A write to the identification words and to STATUS (20_memory.md R48). -/

theorem hostWrite32_id (d : Word32) (s : State) : hostWrite32 0x000 d s = okay s := rfl
theorem hostWrite32_hwver (d : Word32) (s : State) : hostWrite32 0x004 d s = okay s := rfl
theorem hostWrite32_status (d : Word32) (s : State) : hostWrite32 0x00C d s = okay (writeStatus d s) := rfl

/-! The words that a read composes. -/

theorem flagBit_zero (b : Bool) : flagBit b 0 = if b then 1 else 0 := by
  cases b <;> rfl

theorem flagBit_getLsbD (b : Bool) {k : Nat} (hk : k < 32) (j : Nat) :
    (flagBit b k).getLsbD j = (decide (j = k) && b) := by
  cases b with
  | false => simp [flagBit]
  | true =>
    simp only [flagBit, if_true, BitVec.getLsbD_twoPow, Bool.and_true]
    rw [decide_eq_true hk, Bool.true_and, decide_eq_decide]
    exact eq_comm

/-- Bits 7:0 of the STATUS word: the five flags at bits 0 to 4, the rest reserved (10_state.md R26). -/
theorem statusWord_low (s : State) {j : Nat} (hj : j < 8) :
    (statusWord s).getLsbD j =
      (decide (j = 0) && s.busy || decide (j = 1) && s.done || decide (j = 2) && s.err || decide (j = 3) && s.ovr
        || decide (j = 4) && s.eqFlag) := by
  have hcode : (s.errcode.setWidth 32 <<< 8).getLsbD j = false := by simp [hj]
  simp only [statusWord, BitVec.getLsbD_or, hcode, flagBit_getLsbD, Nat.reduceLT, Bool.or_false]

/-- Bits 31:8 of the STATUS word: ERRCODE, and 0 above it (10_state.md R26). -/
theorem statusWord_high (s : State) {j : Nat} (hj : j < 24) :
    (statusWord s).getLsbD (8 + j) = s.errcode.getLsbD j := by
  have hcode : (s.errcode.setWidth 32 <<< 8).getLsbD (8 + j) = s.errcode.getLsbD j := by
    simp only [BitVec.getLsbD_shiftLeft, BitVec.getLsbD_setWidth, Nat.add_sub_cancel_left]
    simp [show 8 + j < 32 by omega, show j < 32 by omega]
  have hflag : ∀ b k, k < 5 → (flagBit b k).getLsbD (8 + j) = false := fun b k hk => by
    rw [flagBit_getLsbD b (by omega), decide_eq_false (by omega), Bool.false_and]
  simp only [statusWord, BitVec.getLsbD_or, hcode, hflag, Nat.reduceLT, Bool.false_or]

theorem statusWord_errcode (s : State) : (statusWord s).extractLsb' 8 8 = s.errcode := by
  apply BitVec.eq_of_getLsbD_eq
  intro i hi
  rw [BitVec.getLsbD_extractLsb', statusWord_high s (by omega), decide_eq_true hi, Bool.true_and]

/-- Bits 7:5 of STATUS are reserved and read 0 (10_state.md R26). -/
theorem statusWord_reserved_low (s : State) : (statusWord s).extractLsb' 5 3 = 0 := by
  apply BitVec.eq_of_getLsbD_eq
  intro i hi
  have hflags : 5 + i ≠ 0 ∧ 5 + i ≠ 1 ∧ 5 + i ≠ 2 ∧ 5 + i ≠ 3 ∧ 5 + i ≠ 4 := by omega
  rw [BitVec.getLsbD_extractLsb', statusWord_low s (by omega)]
  simp [hflags]

/-- Bits 31:16 of STATUS are reserved and read 0 (10_state.md R26). -/
theorem statusWord_reserved_high (s : State) : (statusWord s).extractLsb' 16 16 = 0 := by
  apply BitVec.eq_of_getLsbD_eq
  intro i hi
  rw [BitVec.getLsbD_extractLsb', show 16 + i = 8 + (8 + i) by omega, statusWord_high s (by omega),
    BitVec.getLsbD_of_ge _ _ (by omega)]
  simp

/-- Settles O41: both words are constants, and a write to either is answered and dropped. -/
theorem identificationIsConstant : Obligations.IdentificationIsConstant := fun s d =>
  ⟨hostRead32_id s, hostRead32_hwver s, hostWrite32_id d s, hostWrite32_hwver d s⟩

/-- Settles O42, from the bits of the STATUS word. -/
theorem statusWordLayout : Obligations.StatusWordLayout := by
  intro s
  refine ⟨statusWord s, hostRead32_status s, ?_, ?_, ?_, ?_, ?_, statusWord_reserved_low s, statusWord_errcode s,
    statusWord_reserved_high s⟩
  all_goals
    rw [statusWord_low s (by decide)]
    simp

/-- Settles O43: each word is its field; CTRL and INST_FLAGS are their one flag at bit 0. -/
theorem csrWordsReadTheirFields : Obligations.CsrWordsReadTheirFields := by
  intro s
  refine ⟨?_, hostRead32_errinfo s, ?_, hostRead32_instVersion s, hostRead32_instScheme s⟩
  · rw [hostRead32_ctrl, ctrlWord, flagBit_zero, answer]
  · rw [hostRead32_instFlags, instFlagsWord, flagBit_zero, answer]

/-- Settles O44: the write acts by `writeStatus`, whose fields `writeStatus_eq` gives. -/
theorem statusWriteClears : Obligations.StatusWriteClears := by
  intro d s
  rw [hostWrite32_status, writeStatus_eq, okay]

end Sys2Proof.Machine
end

section
/-! SUPPORT. What one step can be, said once, and what the host and the engine do to BUSY and DONE (60_exceptions.md R94 to
R96). -/

namespace Sys2Proof.Machine

open Sys2Proof.Claims

/-- The four kinds of step that give a next state: the engine's turn, the reset event, a host read and a host write. Each acts
on the state whose list of inputs lost its head (60_exceptions.md R94, 70_reset_and_hazards.md R112). -/
inductive StepKind (s t : State) : Prop where
  | engine : EngineNext s → engineStep { s with inputs := s.inputs.tail } = .next t → StepKind s t
  | reset : ResetNext s → t = resetEvent { s with inputs := s.inputs.tail } → StepKind s t
  | read (a rest) : s.inputs = .read32 a :: rest → hostRead32 a { s with inputs := rest } = .next t → StepKind s t
  | write (a d rest) : s.inputs = .write32 a d :: rest → hostWrite32 a d { s with inputs := rest } = .next t → StepKind s t

/-- The inversion of a step. An access of another width gives no next state. -/
theorem step_next {s t : State} (h : step s = .next t) : StepKind s t := by
  unfold step at h
  split at h
  · next hi => exact .engine (.inl hi) (by rwa [hi, List.tail_nil, ← hi])
  · next i rest hi =>
    cases i with
    | read32 a => exact .read a rest hi h
    | write32 a d => exact .write a d rest hi h
    | otherWidth wr width a => cases h
    | engineTurn => exact .engine (.inr ⟨rest, hi⟩) (by rw [hi]; exact h)
    | reset => exact .reset ⟨rest, hi⟩ (by rw [hi]; exact (Host.Outcome.next.inj h).symm)

/-- Every command that ends, with an error or without, leaves BUSY 0 and DONE 1 (60_exceptions.md R96). -/
theorem completeCommand_completed {s t : State} (h : completeCommand s = .next t) : Completed t := by
  unfold completeCommand at h
  split at h
  · obtain ⟨hole, u, rfl, -, -⟩ := exec_next h
    exact ⟨complete_busy u, complete_done u⟩
  · obtain rfl := (raise_next ..).mp h
    exact ⟨complete_busy _, complete_done _⟩

/-- The engine's turn completes a command in flight, and does nothing while idle. -/
theorem engineStep_next {s t : State} (h : engineStep s = .next t) :
    (s.busy = true ∧ Completed t) ∨ (s.busy = false ∧ t = s) := by
  cases hb : s.busy with
  | true =>
    rw [engineStep, if_pos hb] at h
    exact .inl ⟨rfl, completeCommand_completed h⟩
  | false =>
    simp only [engineStep, hb] at h
    exact .inr ⟨rfl, (Host.Outcome.next.inj h).symm⟩

theorem hostRead32_busy {a : Word32} {s t : State} (h : hostRead32 a s = .next t) : t.busy = s.busy := by
  obtain ⟨_, _, _, rfl⟩ := hostRead32_next h
  rfl

/-- No host write ends a command in flight: while busy a write is dropped, or acts on STATUS or CTRL, neither of which writes
BUSY (20_memory.md R47). -/
theorem hostWrite32_keeps_busy {a d : Word32} {s t : State} (h : hostWrite32 a d s = .next t) (hb : s.busy = true) :
    t.busy = true := by
  obtain ⟨u, rfl, hu⟩ := hostWrite32_next h
  change u.busy = true
  cases hu with
  | status _ => rw [writeStatus_busy, hb]
  | accepted _ _ => rfl
  | _ => exact hb

/-- Settles O10: of the four kinds of step a host access keeps a command in flight, so the step is the engine's turn, which
sets DONE, or the reset event. -/
theorem idleOnlyByCompletionOrReset : Obligations.IdleOnlyByCompletionOrReset := by
  intro s t hstep hbusy hidle
  cases step_next hstep with
  | engine hnext h =>
    obtain ⟨-, -, hdone⟩ | ⟨hnot, -⟩ := engineStep_next h
    · exact .inl ⟨hnext, hdone⟩
    · have hnot : s.busy = false := hnot
      exact absurd hbusy (by simp [hnot])
  | reset hnext _ => exact .inr hnext
  | read a rest _ h =>
    have hkept := (hostRead32_busy h).trans hbusy
    exact absurd hkept (by simp [hidle])
  | write a d rest _ h =>
    have hkept := hostWrite32_keeps_busy h hbusy
    exact absurd hkept (by simp [hidle])

end Sys2Proof.Machine
end

section
/-! SUPPORT. What a host read does. The registers V, BUF, IN, ACC and M are taken together: which word of which register an
address names, and what a read of it gives (20_memory.md R40 to R42, R47 (b), R49; 60_exceptions.md R101). -/

namespace Sys2Proof.Machine

open Sys2Proof.Claims

/-- The word of a register that a location names: the register, or the matrix row, and the word's number. None for a CSR, for a
word of the instance store and for a reserved address. -/
def Loc.regWord : Loc → Option (RegName × Nat)
  | .v k w => some (.v k, w)
  | .buf w => some (.buf, w)
  | .inp w => some (.inp, w)
  | .acc w => some (.acc, w)
  | .m k i w => some (.m k i, w)
  | _ => none

/-- The 256 bits of a register, or of a matrix row. -/
def regValue (s : State) : RegName → Vec
  | .v k => s.v[k]
  | .m k i => row s.m[k] i
  | .buf => s.buf
  | .inp => s.inp
  | .acc => s.acc

/-- The 32 marks of a register, or of a matrix row (70_reset_and_hazards.md R113). -/
def regMarks (mk : Marks) : RegName → ByteMarks
  | .v k => mk.v[k]
  | .m k i => markRow mk.m[k] i
  | .buf => mk.buf
  | .inp => mk.inp
  | .acc => mk.acc

theorem registerWritten_eq (mk : Marks) (r : RegName) (j : Nat) : registerWritten mk r j = (regMarks mk r).getLsbD j := by
  cases r <;> rfl

/-- The first unwritten byte of word `w` of a register, if any. -/
def wordHole (s : State) (r : RegName) (w : Nat) : Option (RegName × Nat) := vecHole r (regMarks s.marks r) (4 * w) 4

theorem wordHole_first (s : State) (r : RegName) (w : Nat) :
    FirstHole s (fun q j => q = r ∧ 4 * w ≤ j ∧ j < 4 * w + 4) (wordHole s r w) := by
  constructor
  · rw [wordHole, vecHole_none_iff]
    constructor
    · rintro h q j ⟨rfl, hlo, hhi⟩
      rw [registerWritten_eq]
      exact h j hlo hhi
    · intro h j hlo hhi
      rw [← registerWritten_eq]
      exact h r j ⟨rfl, hlo, hhi⟩
  · intro q j h
    obtain ⟨rfl, hlo, hhi, hm⟩ := vecHole_some h
    exact ⟨⟨rfl, hlo, hhi⟩, by rw [registerWritten_eq, hm]⟩

theorem locateCsr_regWord (a : Nat) : (locateCsr a).regWord = none := by
  unfold locateCsr
  iterate 9
    split
    · rfl
  rfl

/-- A register has eight words (20_memory.md R37). -/
theorem locate_regWord_lt {a : Nat} {r : RegName} {w : Nat} (h : (locate a).regWord = some (r, w)) : w < 8 := by
  have hindex : ∀ off, wordIndex off < 8 := fun off => Nat.mod_lt _ (by decide)
  unfold locate at h
  split at h
  · rw [locateCsr_regWord] at h; cases h
  iterate 4
    split at h
    · cases h; exact hindex _
  split at h
  · cases h
  split at h
  · cases h; exact hindex _
  split at h
  · cases h
  · cases h

/-- Every address of V, BUF, IN, ACC and M names a word of a register. -/
theorem regWord_of_registerAddress {a : Nat} (h : RegisterAddress a) : ∃ r w, (locate a).regWord = some (r, w) := by
  have hmat : Config.matBase = 0x8000 := rfl
  have hfin : Config.finL = 0x10000 := rfl
  unfold RegisterAddress at h
  unfold locate
  rw [if_neg (by omega)]
  iterate 4
    split
    · exact ⟨_, _, rfl⟩
  rw [if_neg (by omega), if_pos (by omega)]
  exact ⟨_, _, rfl⟩

/-- A read of a register word, whichever register it is of (20_memory.md R49). -/
theorem hostRead32_regWord {a : Word32} {r : RegName} {w : Nat} (s : State) (h4 : a.toNat % 4 = 0)
    (h : (locate a.toNat).regWord = some (r, w)) :
    hostRead32 a s = readOperand (wordHole s r w) (wordOf (regValue s r) w) s := by
  unfold hostRead32
  rw [if_neg (not_not.mpr h4)]
  cases hl : locate a.toNat <;> rw [hl] at h <;> cases h <;> rfl

theorem readOperand_busy {hole : Option (RegName × Nat)} {d : Word32} {s : State} (hb : s.busy = true) :
    readOperand hole d s =
      .next { s with response := some (.data (Config.busyRead s.draws)), draws := s.draws + 1 } := by
  rw [readOperand, if_pos hb, answer]

theorem readOperand_idle {hole : Option (RegName × Nat)} {d : Word32} {s : State} (hb : s.busy = false) :
    readOperand hole d s = .next { recordUnwritten hole s with response := some (.data d) } := by
  rw [readOperand, hb]
  rfl

/-- An access to a misaligned or reserved address is a bus error that names it (60_exceptions.md R101). -/
theorem hostAccess_busError {a : Word32} (d : Word32) (s : State)
    (h : ¬ (a.toNat % 4 = 0 ∧ locate a.toNat ≠ .reserved)) :
    hostWrite32 a d s = .fault (.busError ⟨true, 32, a⟩) ∧ hostRead32 a s = .fault (.busError ⟨false, 32, a⟩) := by
  unfold hostWrite32 hostRead32
  by_cases h4 : a.toNat % 4 = 0
  · have hres : locate a.toNat = .reserved := not_not.mp fun hl => h ⟨h4, hl⟩
    rw [if_neg (not_not.mpr h4), if_neg (not_not.mpr h4), hres]
    exact ⟨rfl, rfl⟩
  · rw [if_pos h4, if_pos h4]
    exact ⟨rfl, rfl⟩

/-- The three kinds of read of a mapped word: a CSR word is answered, a register word is read by `readOperand`, and a word
of the instance store is its four bytes (20_memory.md R47, R49). -/
theorem hostRead32_kinds {a : Word32} (s : State) (h4 : a.toNat % 4 = 0) (hl : locate a.toNat ≠ .reserved) :
    (∃ d, hostRead32 a s = answer d s) ∨
    (∃ r w, w < 8 ∧ hostRead32 a s = readOperand (wordHole s r w) (wordOf (regValue s r) w) s) ∨
    hostRead32 a s = operand (memBytes s.store a.toNat 4) fun v => answer (v.setWidth 32) s := by
  cases hr : (locate a.toNat).regWord with
  | some p => exact .inr (.inl ⟨p.1, p.2, locate_regWord_lt hr, hostRead32_regWord s h4 hr⟩)
  | none =>
    unfold hostRead32
    rw [if_neg (not_not.mpr h4)]
    cases hloc : locate a.toNat with
    | reserved => exact absurd hloc hl
    | store b =>
      obtain ⟨rfl, -⟩ := locate_store hloc
      exact .inr (.inr rfl)
    | v k w => rw [hloc] at hr; cases hr
    | buf w => rw [hloc] at hr; cases hr
    | inp w => rw [hloc] at hr; cases hr
    | acc w => rw [hloc] at hr; cases hr
    | m k i w => rw [hloc] at hr; cases hr
    | _ => exact .inl ⟨_, rfl⟩

/-- What a read that is answered can be: it leaves only its response, or it is the read of a register word. -/
theorem hostRead32_cases {a : Word32} {s t : State} (h : hostRead32 a s = .next t) :
    (∃ d, t = { s with response := some (.data d) }) ∨
    (∃ r w, w < 8 ∧ readOperand (wordHole s r w) (wordOf (regValue s r) w) s = .next t) := by
  by_cases hok : a.toNat % 4 = 0 ∧ locate a.toNat ≠ .reserved
  · obtain ⟨d, hread⟩ | ⟨r, w, hw, hread⟩ | hread := hostRead32_kinds s hok.1 hok.2
    · rw [hread] at h
      exact .inl ⟨d, (Host.Outcome.next.inj h).symm⟩
    · exact .inr ⟨r, w, hw, hread ▸ h⟩
    · rw [hread] at h
      obtain ⟨v, -, hv⟩ := operand_next.mp h
      exact .inl ⟨v.setWidth 32, (Host.Outcome.next.inj hv).symm⟩
  · rw [(hostAccess_busError 0 s hok).2] at h
    cases h

/-- While busy a read that is answered changes only the response and the draw counter (20_memory.md R47 (b), (c)). -/
theorem hostRead32_busy_next {a : Word32} {s t : State} (h : hostRead32 a s = .next t) (hb : s.busy = true) :
    ∃ d n, t = { s with response := some (.data d), draws := n } := by
  obtain ⟨d, rfl⟩ | ⟨r, w, -, h⟩ := hostRead32_cases h
  · exact ⟨d, s.draws, rfl⟩
  · rw [readOperand_busy hb] at h
    exact ⟨_, _, (Host.Outcome.next.inj h).symm⟩

end Sys2Proof.Machine
end

section
/-! SUPPORT. What a command can observe of a state, and that its result is determined by it: every operation of the engine
commutes with forgetting the rest (20_memory.md R47, R51 (3); 60_exceptions.md R96). -/

namespace Sys2Proof.Machine

open Sys2Proof.Claims

/-- The state with everything cleared that no command's result depends on: CTRL, DONE, OVR, the error record, and the model's own
draw counter, inputs and response. -/
def commandView (s : State) : State :=
  { s with
    irqEn := false, done := false, err := false, ovr := false, errcode := 0, errinfo := 0
    draws := 0, inputs := [], response := none }

@[simp] theorem commandView_buf (s : State) : (commandView s).buf = s.buf := rfl
@[simp] theorem commandView_outPresent (s : State) : (commandView s).outPresent = s.outPresent := rfl
@[simp] theorem commandView_pend (s : State) : (commandView s).pend = s.pend := rfl
@[simp] theorem commandView_store (s : State) : (commandView s).store = s.store := rfl
@[simp] theorem readM_commandView (n : Dim) (k : MReg) (s : State) : readM n k (commandView s) = readM n k s := rfl
@[simp] theorem readA_commandView (n : Dim) (k : AReg) (s : State) : readA n k (commandView s) = readA n k s := rfl

theorem sameForCommands_iff {s t : State} : SameForCommands s t ↔ commandView t = commandView s := by
  constructor
  · rintro ⟨hv, hm, hbuf, hinp, hacc, hbusy, heq, hout, hver, hsch, hpend, hstore, hmarks, hread⟩
    simp only [commandView, hv, hm, hbuf, hinp, hacc, hbusy, heq, hout, hver, hsch, hpend, hstore, hmarks, hread]
  · intro h
    have field : ∀ {α : Type} (f : State → α), f (commandView t) = f (commandView s) := fun f => congrArg f h
    exact ⟨field State.v, field State.m, field State.buf, field State.inp, field State.acc, field State.busy,
      field State.eqFlag, field State.outPresent, field State.version, field State.scheme, field State.pend,
      field State.store, field State.marks, field State.unwrittenRead⟩

theorem sameForCommands_trans {s t u : State} (h : SameForCommands s t) (h' : SameForCommands t u) : SameForCommands s u :=
  sameForCommands_iff.mpr ((sameForCommands_iff.mp h').trans (sameForCommands_iff.mp h))

/-- What is left of an outcome when the state is forgotten but for what commands observe. -/
def resultView : Result → Result
  | .next t => .next (commandView t)
  | .fault f => .fault f
  | .refused r => .refused r

/-- The error record is no part of what commands observe, so neither is which error ended a command. -/
theorem resultView_raise (c : Cause) (s : State) : resultView (raise c s) = resultView (raise c (commandView s)) := by
  simp only [raise, resultView, recordError]
  split <;> rfl

theorem resultView_requireLegal {ok : Bool} {s : State} {k k' : Result} (h : resultView k = resultView k') :
    resultView (requireLegal ok s k) = resultView (requireLegal ok (commandView s) k') := by
  cases ok with
  | true => exact h
  | false => exact resultView_raise .illegal s

/-- A stage that commutes with the view gives a command that does. -/
theorem resultView_stage {f : State → Except Fault State} {s : State}
    (h : f (commandView s) = (f s).map commandView) :
    resultView (operand (f s) finish) = resultView (operand (f (commandView s)) finish) := by
  rw [h]
  cases f s <;> rfl

theorem encodeBuf_commandView (l c : Nat) (s : State) :
    encodeBuf l c (commandView s) = (encodeBuf l c s).map commandView := by
  unfold encodeBuf
  rw [commandView_store]
  cases readEncoding s.store l c <;> rfl

theorem finStage_commandView (s : State) : finStage (commandView s) = (finStage s).map commandView :=
  encodeBuf_commandView ..

theorem roundStage_commandView (r : Nat) (s : State) :
    roundStage r (commandView s) = (roundStage r s).map commandView := by
  unfold roundStage
  rw [commandView_store, commandView_buf]
  cases xorEntries (memVec s.store) (roundAddrs r s.buf) 0 <;> rfl

theorem foutStage_commandView (s : State) : foutStage (commandView s) = (foutStage s).map commandView := by
  unfold foutStage
  rw [commandView_outPresent]
  cases s.outPresent with
  | true => exact encodeBuf_commandView ..
  | false => rfl

/-- Stages that commute with the view do so one after the other. -/
theorem bind_commandView {f g : State → Except Fault State} {s : State}
    (hf : f (commandView s) = (f s).map commandView) (hg : ∀ t, g (commandView t) = (g t).map commandView) :
    (f (commandView s) >>= g) = (f s >>= g).map commandView := by
  rw [hf]
  cases f s with
  | error e => rfl
  | ok t => exact hg t

theorem roundStages_commandView (k : Nat) (s : State) :
    roundStages k (commandView s) = (roundStages k s).map commandView := by
  induction k with
  | zero => rfl
  | succ k ih => exact bind_commandView ih (roundStage_commandView (k + 1))

theorem roundsThenFout_commandView (k : Nat) (s : State) :
    (roundStages k (commandView s) >>= foutStage) = (roundStages k s >>= foutStage).map commandView :=
  bind_commandView (roundStages_commandView k s) foutStage_commandView

theorem evalStages_commandView (s : State) : evalStages (commandView s) = (evalStages s).map commandView :=
  bind_commandView (finStage_commandView s) (roundsThenFout_commandView 10)

/-- A command's result is determined by what commands observe. -/
theorem resultView_exec (i : Instr) (s : State) : resultView (exec i s) = resultView (exec i (commandView s)) := by
  cases i with
  | nop => rfl
  | mident n d => rfl
  | mmul n d s1 s2 => rfl
  | minv n d src =>
    simp only [exec, execMinv, readM_commandView]
    cases matInverse (dimSize n) (readM n src s) with
    | none => exact resultView_raise .domain _
    | some y => rfl
  | mapply n d m src => rfl
  | meq n s1 s2 => rfl
  | aapply n d a src =>
    refine resultView_requireLegal ?_
    rfl
  | acomp n d s1 s2 =>
    refine resultView_requireLegal ?_
    rfl
  | ainv n d src =>
    refine resultView_requireLegal ?_
    rw [readA_commandView]
    cases matInverse (dimSize n) (readA n src s).1 with
    | none => exact resultView_raise .domain _
    | some y => rfl
  | eval =>
    simp only [exec, execEval]
    exact resultView_stage (evalStages_commandView s)
  | evalFin =>
    simp only [exec, execEvalFin]
    exact resultView_stage (finStage_commandView s)
  | evalRound r => exact resultView_requireLegal (resultView_stage (roundStage_commandView r.toNat s))
  | evalFout => exact resultView_stage (foutStage_commandView s)

theorem resultView_completeCommand (s : State) :
    resultView (completeCommand s) = resultView (completeCommand (commandView s)) := by
  unfold completeCommand
  rw [commandView_pend]
  cases decode s.pend with
  | ok i => exact resultView_exec i s
  | error e => exact resultView_raise .illegal s

/-- Two states that commands cannot tell apart complete alike. -/
theorem resultView_completeCommand_congr {s s' : State} (h : SameForCommands s s') :
    resultView (completeCommand s') = resultView (completeCommand s) := by
  rw [resultView_completeCommand s', resultView_completeCommand s, sameForCommands_iff.mp h]

theorem resultView_next {r : Result} {t : State} (h : resultView r = .next (commandView t)) :
    ∃ t', r = .next t' ∧ SameForCommands t t' := by
  cases r with
  | next u => exact ⟨u, rfl, sameForCommands_iff.mpr (Host.Outcome.next.inj h)⟩
  | fault f => cases h
  | refused e => cases h

theorem resultView_fault {r : Result} {f : Fault} (h : resultView r = .fault f) : r = .fault f := by
  cases r with
  | next u => cases h
  | fault g => exact h
  | refused e => cases h

/-! Host accesses while a command is in flight. -/

/-- A host write while busy is dropped, or acts on STATUS or CTRL: no command observes what it changes (20_memory.md R47). -/
theorem hostWrite32_busy_view {a d : Word32} {s t : State} (h : hostWrite32 a d s = .next t) (hb : s.busy = true) :
    SameForCommands s t ∧ t.inputs = s.inputs := by
  obtain ⟨u, rfl, hu⟩ := hostWrite32_next h
  rw [sameForCommands_iff]
  have idle : ∀ {p : Prop}, s.busy = false → p := fun h => absurd hb (by simp [h])
  cases hu with
  | ignored => exact ⟨rfl, rfl⟩
  | overrun _ => exact ⟨rfl, rfl⟩
  | status _ => rw [writeStatus_eq]; exact ⟨rfl, rfl⟩
  | ctrl _ => exact ⟨rfl, rfl⟩
  | accepted hi _ => exact idle hi
  | instFlags hi => exact idle hi
  | instVersion hi => exact idle hi
  | instScheme hi => exact idle hi
  | vector _ _ hi => exact idle hi
  | buffer _ hi => exact idle hi
  | matrix _ _ _ hi => exact idle hi
  | store _ hi _ _ => exact idle hi

theorem hostRead32_busy_view {a : Word32} {s t : State} (h : hostRead32 a s = .next t) (hb : s.busy = true) :
    SameForCommands s t ∧ t.inputs = s.inputs := by
  obtain ⟨d, n, rfl⟩ := hostRead32_busy_next h hb
  exact ⟨sameForCommands_iff.mpr rfl, rfl⟩

/-- A host access while busy takes itself off the inputs and changes nothing that a command observes. -/
theorem step_hostAccess_busy {s t : State} {i : Input} {rest : List Input} (hi : isHostAccess i = true)
    (hb : s.busy = true) (h : step { s with inputs := i :: rest } = .next t) :
    SameForCommands s t ∧ t.inputs = rest := by
  have view : ∀ u, SameForCommands { s with inputs := rest } u → SameForCommands s u := fun u hu =>
    sameForCommands_trans (t := { s with inputs := rest }) (sameForCommands_iff.mpr rfl) hu
  cases i with
  | read32 a => exact (hostRead32_busy_view (s := { s with inputs := rest }) h hb).imp_left (view t)
  | write32 a d => exact (hostWrite32_busy_view (s := { s with inputs := rest }) h hb).imp_left (view t)
  | otherWidth wr width a => cases hi
  | engineTurn => cases hi
  | reset => cases hi

/-- A run that ends without a stop is a step and then a run. -/
theorem core_run_succ_next {c : Host.Core} {k : Nat} {s u : c.State} (h : c.run (k + 1) s = .next u) :
    ∃ t, c.step s = .next t ∧ c.run k t = .next u := by
  rw [Host.Core.run] at h
  split at h
  · next t ht => exact ⟨t, ht, h⟩
  · cases h
  · cases h

/-- Any number of host accesses while busy change nothing that a command observes. -/
theorem runFrom_hostAccesses_busy {hs rest : List Input} {s s' : State} (hb : s.busy = true)
    (hh : ∀ h ∈ hs, isHostAccess h = true) (h : runFrom hs.length { s with inputs := hs ++ rest } = .next s') :
    SameForCommands s s' ∧ s'.inputs = rest := by
  induction hs generalizing s with
  | nil =>
    obtain rfl := Host.Outcome.next.inj h
    exact ⟨sameForCommands_iff.mpr rfl, rfl⟩
  | cons i is ih =>
    obtain ⟨t, hstep, hrun⟩ := core_run_succ_next (c := core) h
    obtain ⟨hst, hin⟩ := step_hostAccess_busy (rest := is ++ rest) (hh i List.mem_cons_self) hb hstep
    have hmore : ∀ j ∈ is, isHostAccess j = true := fun j hj => hh j (List.mem_cons_of_mem i hj)
    obtain ⟨hkept, hrest⟩ := ih (s := t) (hst.busy.trans hb) hmore (by rw [← hin]; exact hrun)
    exact ⟨sameForCommands_trans hst hkept, hrest⟩

/-- Settles O16: the host's accesses while busy change nothing that a command observes, and the command's result is determined by
what it observes. -/
theorem resultIndependentOfLatency : Obligations.ResultIndependentOfLatency := by
  intro s s' hs rest hb hh hrun
  obtain ⟨hsame, hrest⟩ := runFrom_hostAccesses_busy hb hh hrun
  have hview := resultView_completeCommand_congr hsame
  refine ⟨hsame, hrest, fun t ht => ?_, fun f hf => ?_⟩
  · rw [ht] at hview
    exact resultView_next hview
  · rw [hf] at hview
    exact resultView_fault hview

end Sys2Proof.Machine
end

section
/-! SUPPORT. The invariant: the reset state meets it and every step keeps it. It speaks of the instance store and the error record
only, so an operation is asked only what it does to these (20_memory.md R38, 60_exceptions.md R98). -/

namespace Sys2Proof.Machine

open Sys2Proof.Claims

theorem State.Inv.congr {s t : State} (h : State.Inv s) (hstore : t.store = s.store) (herr : t.err = s.err)
    (hcode : t.errcode = s.errcode) (hinfo : t.errinfo = s.errinfo) : State.Inv t := by
  obtain ⟨hsorted, hin, hno, hrec⟩ := h
  exact ⟨hstore ▸ hsorted, hstore ▸ hin, herr ▸ hcode ▸ hinfo ▸ hno, herr ▸ hcode ▸ hrec⟩

/-- A state with an empty instance store and a clear error record meets the invariant. -/
theorem inv_of_clear {s : State} (hstore : s.store = []) (herr : s.err = false) (hcode : s.errcode = 0)
    (hinfo : s.errinfo = 0) : State.Inv s where
  sorted := by simp [Memory.wf, hstore]
  inStore := by simp [Memory.inStore, hstore]
  noRecord _ := ⟨hcode, hinfo⟩
  record h := absurd h (by simp [herr])

/-- Settles O53: nothing is stored and no error is recorded. -/
theorem resetMeetsInvariant : Obligations.ResetMeetsInvariant := inv_of_clear rfl rfl rfl rfl

theorem recordError_inv (c : Cause) {s : State} (h : State.Inv s) : State.Inv (recordError c s) := by
  obtain ⟨hsorted, hin, -, hrec⟩ := h
  refine ⟨by simpa using hsorted, by simpa using hin, by simp, fun _ => ?_⟩
  rw [recordError_errcode]
  split
  · next herr => exact hrec herr
  · cases c with
    | illegal => exact .inl rfl
    | domain => exact .inr rfl

/-- No command writes the instance store, and only a failing one touches the error record. -/
theorem commandEffect_inv {i : Instr} {s u : State} (h : State.Inv s) (hu : CommandEffect s i u) : State.Inv u := by
  cases hu with
  | minvDomain n d src => exact recordError_inv .domain h
  | ainvDomain n d src _ => exact recordError_inv .domain h
  | illegal i _ => exact recordError_inv .illegal h
  | _ => exact h.congr rfl rfl rfl rfl

theorem completeCommand_inv {s t : State} (h : State.Inv s) (ht : completeCommand s = .next t) : State.Inv t := by
  unfold completeCommand at ht
  split at ht
  · obtain ⟨hole, u, rfl, hu, -⟩ := exec_next ht
    have hrecorded : State.Inv (recordUnwritten hole s) := h.congr rfl rfl rfl rfl
    exact (commandEffect_inv hrecorded hu).congr rfl rfl rfl rfl
  · obtain rfl := (raise_next ..).mp ht
    exact (recordError_inv .illegal h).congr rfl rfl rfl rfl

theorem engineStep_inv {s t : State} (h : State.Inv s) (ht : engineStep s = .next t) : State.Inv t := by
  unfold engineStep at ht
  split at ht
  · exact completeCommand_inv h ht
  · obtain rfl := Host.Outcome.next.inj ht
    exact h

/-- A STATUS write leaves the error record or clears it whole (60_exceptions.md R100). -/
theorem writeStatus_inv (d : Word32) {s : State} (h : State.Inv s) : State.Inv (writeStatus d s) := by
  obtain ⟨hsorted, hin, hno, hrec⟩ := h
  refine ⟨by simpa using hsorted, by simpa using hin, ?_, ?_⟩
  · rw [writeStatus_err, writeStatus_errcode, writeStatus_errinfo]
    cases d.getLsbD 2 with
    | true => exact fun _ => ⟨rfl, rfl⟩
    | false => exact hno
  · rw [writeStatus_err, writeStatus_errcode]
    cases d.getLsbD 2 with
    | true => intro h; cases h
    | false => exact hrec

theorem hostEffect_inv {a d : Word32} {s u : State} (h : State.Inv s) (hu : HostEffect a d s u) : State.Inv u := by
  cases hu with
  | status _ => exact writeStatus_inv d h
  | store b hb hs h4 =>
    exact ⟨memWriteWord_wf b d _ h.sorted, memWriteWord_inStore b d _ hs h4 h.inStore, h.noRecord, h.record⟩
  | _ => exact h.congr rfl rfl rfl rfl

/-- Settles O54: each of the four kinds of step keeps it. -/
theorem stepKeepsInvariant : Obligations.StepKeepsInvariant := by
  intro s t h hstep
  cases step_next hstep with
  | engine _ ht =>
    have hrest : State.Inv { s with inputs := s.inputs.tail } := h.congr rfl rfl rfl rfl
    exact engineStep_inv hrest ht
  | reset _ ht =>
    subst ht
    exact inv_of_clear rfl rfl rfl rfl
  | read a rest _ ht =>
    obtain ⟨_, _, _, rfl⟩ := hostRead32_next ht
    exact h.congr rfl rfl rfl rfl
  | write a d rest _ ht =>
    obtain ⟨u, rfl, hu⟩ := hostWrite32_next ht
    have hrest : State.Inv { s with inputs := rest } := h.congr rfl rfl rfl rfl
    exact (hostEffect_inv hrest hu).congr rfl rfl rfl rfl

end Sys2Proof.Machine
end

section
/-! SUPPORT. Bus errors, read-only locations and host writes: which accesses are answered, and what a write to a busy-locked
location does while idle (20_memory.md R35 to R49). -/

namespace Sys2Proof.Machine

open Sys2Proof.Claims

theorem toNat_wordAddress {n : Nat} (hn : n < 2 ^ 32) : (BitVec.ofNat 32 n).toNat = n := by
  rw [BitVec.toNat_ofNat, Nat.mod_eq_of_lt hn]

/-- The address map agrees with the list of mapped addresses of 20_memory.md R38. -/
theorem mapped_iff {a : Nat} (h4 : a % 4 = 0) : Mapped a ↔ locate a ≠ .reserved := by
  rw [Ne, locate_reserved_iff h4, not_not, isStore_iff]
  unfold Mapped
  omega

theorem isStore_of_storeAddress {a : Nat} (h : StoreAddress a) : isStore a = true := by
  rw [isStore_iff]
  unfold StoreAddress at h
  omega

/-! Writes. -/

/-- The state that a write of `d` to a location leaves while idle, if the location is busy-locked and not CMD
(20_memory.md R47 (a)). -/
def lockedEffect (d : Word32) (s : State) : Loc → Option State
  | .instFlags => some (writeInstFlags d s)
  | .instVersion => some (writeInstVersion d s)
  | .instScheme => some (writeInstScheme d s)
  | .v k w => some (writeVWord k w d s)
  | .buf w => some (writeBufWord w d s)
  | .m k i w => some (writeMWord k i w d s)
  | .store b => some (writeStoreWord b d s)
  | _ => none

theorem hostWrite32_locked {a d : Word32} {s u : State} (h4 : a.toNat % 4 = 0)
    (hl : lockedEffect d s (locate a.toNat) = some u) : hostWrite32 a d s = lockedWrite s u := by
  unfold hostWrite32
  rw [if_neg (not_not.mpr h4)]
  cases hloc : locate a.toNat <;> rw [hloc] at hl <;> cases hl <;> rfl

/-- A write to a busy-locked location while idle takes effect (20_memory.md R48). -/
theorem hostWrite32_idle {a d : Word32} {s u : State} (hb : s.busy = false) (h4 : a.toNat % 4 = 0)
    (hl : lockedEffect d s (locate a.toNat) = some u) : hostWrite32 a d s = .next { u with response := some .okay } := by
  rw [hostWrite32_locked h4 hl, lockedWrite, hb]
  rfl

/-- A write to a mapped word is answered, busy or idle. -/
theorem hostWrite32_answered {a : Word32} (d : Word32) (s : State) (h4 : a.toNat % 4 = 0)
    (hl : locate a.toNat ≠ .reserved) : ∃ t, hostWrite32 a d s = .next t := by
  cases he : lockedEffect d s (locate a.toNat) with
  | some u =>
    rw [hostWrite32_locked h4 he, lockedWrite]
    split
    · exact ⟨_, rfl⟩
    · exact ⟨_, rfl⟩
  | none =>
    unfold hostWrite32
    rw [if_neg (not_not.mpr h4)]
    cases hloc : locate a.toNat with
    | reserved => exact absurd hloc hl
    | cmd =>
      dsimp only
      split
      · exact ⟨_, rfl⟩
      · exact ⟨_, rfl⟩
    | id => exact ⟨_, rfl⟩
    | hwver => exact ⟨_, rfl⟩
    | errinfo => exact ⟨_, rfl⟩
    | inp w => exact ⟨_, rfl⟩
    | acc w => exact ⟨_, rfl⟩
    | status => exact ⟨_, rfl⟩
    | ctrl => exact ⟨_, rfl⟩
    | _ => rw [hloc] at he; cases he

/-! Reads. -/

/-- A read of a mapped word that faults is one of the instance store that met an unwritten byte. -/
theorem hostRead32_fault {a : Word32} {s : State} {f : Fault} (h4 : a.toNat % 4 = 0) (hl : locate a.toNat ≠ .reserved)
    (h : hostRead32 a s = .fault f) : ∃ b, f = .unwrittenStore b := by
  obtain ⟨d, hread⟩ | ⟨r, w, -, hread⟩ | hread := hostRead32_kinds s h4 hl
  · rw [hread] at h
    cases h
  · rw [hread, readOperand] at h
    split at h
    · cases h
    · cases h
  · rw [hread] at h
    obtain herr | ⟨v, -, hv⟩ := operand_fault.mp h
    · obtain ⟨j, -, rfl, -⟩ := memBytes_error herr
      exact ⟨_, rfl⟩
    · cases hv

/-- Settles O36: the map has no reserved word among the mapped addresses, and what it maps answers a write and faults on a read
only for an unwritten byte. -/
theorem busErrorsExactly : Obligations.BusErrorsExactly := by
  refine ⟨?_, ?_, ?_, fun _ _ _ _ _ => rfl⟩
  · rintro a d s ⟨h4, hm⟩
    exact hostWrite32_answered d s h4 ((mapped_iff h4).mp hm)
  · intro a d s h
    exact hostAccess_busError d s fun ⟨h4, hl⟩ => h ⟨h4, (mapped_iff h4).mpr hl⟩
  · rintro a s b ⟨h4, hm⟩ h
    obtain ⟨c, hc⟩ := hostRead32_fault h4 ((mapped_iff h4).mp hm) h
    cases hc

/-- Settles O38: every such address names a word of a register, whose busy read is the free value. -/
theorem busyReadsAreFree : Obligations.BusyReadsAreFree := by
  intro a s hb h4 ha
  obtain ⟨r, w, hr⟩ := regWord_of_registerAddress ha
  rw [hostRead32_regWord s h4 hr, readOperand_busy hb]

theorem recordUnwritten_keptOrMade (s : State) (r : RegName) {w : Nat} (hw : w < 8) :
    RecordKeptOrMade s (recordUnwritten (wordHole s r w) s) := by
  unfold RecordKeptOrMade
  rw [recordUnwritten_unwrittenRead]
  cases hs : s.unwrittenRead with
  | some p => exact .inl rfl
  | none =>
    cases hh : wordHole s r w with
    | none => exact .inl rfl
    | some p =>
      obtain ⟨⟨-, -, hlt⟩, hunwritten⟩ := (wordHole_first s r w).named p.1 p.2 hh
      exact .inr ⟨rfl, p.1, p.2, rfl, by omega, hunwritten⟩

/-- Settles O39: a read leaves its response; one of a register word also draws a value while busy, and makes the record while
idle. -/
theorem readsHaveNoSideEffect : Obligations.ReadsHaveNoSideEffect := by
  intro a s t h
  obtain ⟨d, rfl⟩ | ⟨r, w, hw, h⟩ := hostRead32_cases h
  · exact ⟨⟨d, rfl⟩, fun _ => rfl, fun _ => rfl, .inl rfl⟩
  · by_cases hb : s.busy = true
    · rw [readOperand_busy hb] at h
      obtain rfl := Host.Outcome.next.inj h
      exact ⟨⟨_, rfl⟩, fun hidle => absurd hb (by simp [hidle]), fun _ => rfl, .inl rfl⟩
    · rw [readOperand_idle (by simpa using hb)] at h
      obtain rfl := Host.Outcome.next.inj h
      exact ⟨⟨_, rfl⟩, fun _ => rfl, fun hbusy => absurd hbusy hb, recordUnwritten_keptOrMade s r hw⟩

/-! Read-only locations (20_memory.md R46). -/

/-- A write to the words of IN and ACC is answered and dropped. -/
theorem hostWrite32_snapshot {a : Word32} (d : Word32) (s : State) (h4 : a.toNat % 4 = 0)
    (ha : 0x1120 ≤ a.toNat ∧ a.toNat ≤ 0x115F) : hostWrite32 a d s = okay s := by
  unfold hostWrite32
  rw [if_neg (not_not.mpr h4)]
  by_cases hin : a.toNat < 0x1140
  · rw [show a.toNat = 0x1120 + 4 * ((a.toNat - 0x1120) / 4) by omega, locate_snapshot (by omega)]
  · rw [show a.toNat = 0x1140 + 4 * ((a.toNat - 0x1140) / 4) by omega, locate_accumulator (by omega)]

theorem hostWrite32_errinfo (d : Word32) (s : State) : hostWrite32 0x014 d s = okay s := rfl

theorem hostWrite32_ctrl (d : Word32) (s : State) : hostWrite32 0x008 d s = okay (writeCtrl d s) := rfl

theorem hostRead32_cmd (s : State) : hostRead32 0x010 s = answer 0 s := rfl

/-- Settles O40, location by location. -/
theorem readOnlyLocationsIgnoreWrites : Obligations.ReadOnlyLocationsIgnoreWrites := by
  refine ⟨?_, hostWrite32_ctrl, ?_, ?_, hostRead32_cmd⟩
  · rintro a d s h4 (ha | ha | ha | ha)
    · rw [word_eq_of_toNat ha (by decide)]
      exact hostWrite32_id d s
    · rw [word_eq_of_toNat ha (by decide)]
      exact hostWrite32_hwver d s
    · rw [word_eq_of_toNat ha (by decide)]
      exact hostWrite32_errinfo d s
    · exact hostWrite32_snapshot d s h4 ha
  · intro d s hb
    exact ⟨hostWrite32_idle (u := writeInstFlags d s) hb rfl rfl, hostWrite32_idle (u := writeInstVersion d s) hb rfl rfl,
      hostWrite32_idle (u := writeInstScheme d s) hb rfl rfl⟩
  · intro d s t h
    rw [hostWrite32_status] at h
    obtain rfl := Host.Outcome.next.inj h
    refine ⟨writeStatus_busy d s, writeStatus_eqFlag d s, fun h2 => ?_, fun hovr => ?_⟩
    · exact (writeStatus_errcode d s).trans (by rw [h2]; rfl)
    · refine (writeStatus_ovr d s).trans ?_
      rw [hovr, ite_self]

end Sys2Proof.Machine
end

section
/-! SUPPORT. The words of the registers on the bus: where a write lands and what a read returns (20_memory.md R36, R37, R40 to
R42, R48, R49; 70_reset_and_hazards.md R113). -/

namespace Sys2Proof.Machine

open Sys2Proof.Claims

theorem writeVWord_same (k : VReg) (w : Nat) (d : Word32) (s : State) :
    (writeVWord k w d s).v[k] = setWord s.v[k] w d ∧ (writeVWord k w d s).marks.v[k] = markWord s.marks.v[k] w := by
  simp [writeVWord]

theorem writeVWord_vectorsKept (k : VReg) (w : Nat) (d : Word32) (s : State) :
    VectorsKept s (writeVWord k w d s) fun q => q = k := by
  intro q hq
  have hne : k.val ≠ q.val := fun h => hq (Fin.ext h.symm)
  simp [writeVWord, Vector.getElem_set_ne _ _ hne]

theorem writeMWord_matricesKept (k : MReg) (i w : Nat) (d : Word32) (s : State) :
    MatricesKept s (writeMWord k i w d s) fun q => q = k := by
  intro q hq
  have hne : k.val ≠ q.val := fun h => hq (Fin.ext h.symm)
  simp [writeMWord, Vector.getElem_set_ne _ _ hne]

theorem markRow_tabulate256 (f : Nat → ByteMarks) {q : Nat} (hq : q < 256) : markRow (tabulate256 f) q = f q := by
  simp [markRow, tabulate256, hq]

/-- The entries of M[k] after a write of one of its words (20_memory.md R42). -/
theorem writeMWord_entry (k : MReg) (i w : Nat) (d : Word32) (s : State) {q j : Nat} (hq : q < 256) (hj : j < 256) :
    entry (writeMWord k i w d s).m[k] q j =
      if q = i ∧ j / 32 = w then d.getLsbD (j % 32) else entry s.m[k] q j := by
  have hrow : row (writeMWord k i w d s).m[k] q = if q = i then setWord (row s.m[k] i) w d else row s.m[k] q := by
    simp [writeMWord, hq]
  rw [entry, hrow]
  by_cases hqi : q = i
  · rw [if_pos hqi, setWord_getLsbD, decide_eq_true hj, Bool.true_and]
    simp only [hqi, true_and, entry]
  · simp only [hqi, if_false, false_and, entry]

/-- The marks of M[k] after a write of one of its words (70_reset_and_hazards.md R113). -/
theorem writeMWord_registerWritten (k : MReg) (i : Nat) {w : Nat} (hw : w < 8) (d : Word32) (s : State) {q j : Nat}
    (hq : q < 256) (hj : j < 32) :
    registerWritten (writeMWord k i w d s).marks (.m k q) j =
      (decide (q = i ∧ j / 4 = w) || registerWritten s.marks (.m k q) j) := by
  have hmarks : markRow (writeMWord k i w d s).marks.m[k] q =
      if q = i then markWord (markRow s.marks.m[k] i) w else markRow s.marks.m[k] q := by
    simp [writeMWord, markRow_tabulate256 _ hq]
  rw [registerWritten, hmarks]
  by_cases hqi : q = i
  · rw [if_pos hqi, markWord_getLsbD _ hw hj]
    simp only [hqi, true_and, registerWritten]
  · simp only [hqi, if_false, false_and, decide_false, Bool.false_or, registerWritten]

/-- Settles O45: each write is one word of one register, whose bytes and marks `byteOf_setWord` and `markWord_getLsbD` give. -/
theorem registerWritesLandAtTheirBytes : Obligations.RegisterWritesLandAtTheirBytes := by
  refine ⟨fun k w d s hw hb => ?_, fun w d s hw hb => ?_, fun k i w d s hi hw hb => ?_⟩
  · have haddr : (BitVec.ofNat 32 (0x1000 + 0x20 * k.val + 4 * w)).toNat = 0x1000 + 0x20 * k.val + 4 * w :=
      toNat_wordAddress (by omega)
    obtain ⟨hval, hmark⟩ := writeVWord_same k w d s
    refine ⟨_, hostWrite32_idle (u := writeVWord k w d s) hb (by omega) (by rw [haddr, locate_vector k hw]; rfl), rfl,
      fun j hj => ?_, fun j hj => ?_, writeVWord_vectorsKept k w d s⟩
    · exact (congrArg (byteOf · j) hval).trans (byteOf_setWord _ w d hj)
    · exact (congrArg (BitVec.getLsbD · j) hmark).trans (markWord_getLsbD _ hw hj)
  · have haddr : (BitVec.ofNat 32 (0x1100 + 4 * w)).toNat = 0x1100 + 4 * w := toNat_wordAddress (by omega)
    exact ⟨_, hostWrite32_idle (u := writeBufWord w d s) hb (by omega) (by rw [haddr, locate_buffer hw]; rfl), rfl,
      fun j hj => byteOf_setWord s.buf w d hj, fun j hj => markWord_getLsbD s.marks.buf hw hj⟩
  · have haddr : (BitVec.ofNat 32 (0x8000 + 0x2000 * k.val + 0x20 * i + 4 * w)).toNat =
        0x8000 + 0x2000 * k.val + 0x20 * i + 4 * w := toNat_wordAddress (by omega)
    exact ⟨_, hostWrite32_idle (u := writeMWord k i w d s) hb (by omega) (by rw [haddr, locate_matrix k hi hw]; rfl), rfl,
      fun q j hq hj => writeMWord_entry k i w d s hq hj, fun q j hq hj => writeMWord_registerWritten k i hw d s hq hj,
      writeMWord_matricesKept k i w d s⟩

/-- A read while idle of an address that names word `w` of a register. -/
theorem readsWord_of_regWord {s : State} {n w : Nat} {r : RegName} (hb : s.busy = false) (hn : n < 2 ^ 32)
    (h4 : n % 4 = 0) (hl : (locate n).regWord = some (r, w)) : ReadsWord s n r w (regValue s r) := by
  have haddr := toNat_wordAddress hn
  rw [← haddr] at h4 hl
  refine ⟨_, (hostRead32_regWord s h4 hl).trans (readOperand_idle hb), rfl, ?_⟩
  exact recordsReads_of_first (wordHole_first s r w)

/-- Settles O47: each address names its word. -/
theorem registerReadsReturnStoredWords : Obligations.RegisterReadsReturnStoredWords := by
  intro s w hb hw
  refine ⟨fun k => ?_, ?_, ?_, ?_, fun k i hi => ?_⟩
  · exact readsWord_of_regWord hb (by omega) (by omega) (by rw [locate_vector k hw]; rfl)
  · exact readsWord_of_regWord hb (by omega) (by omega) (by rw [locate_buffer hw]; rfl)
  · exact readsWord_of_regWord hb (by omega) (by omega) (by rw [locate_snapshot hw]; rfl)
  · exact readsWord_of_regWord hb (by omega) (by omega) (by rw [locate_accumulator hw]; rfl)
  · exact readsWord_of_regWord hb (by omega) (by omega) (by rw [locate_matrix k hi hw]; rfl)

end Sys2Proof.Machine
end

section
/-! SUPPORT. The words of the instance store on the bus, the engine's 32-byte reads of it, and the place of the round tables
(20_memory.md R36, R37, R43 to R45, R47 to R49). -/

namespace Sys2Proof.Machine

open Sys2Proof.Claims

/-- Four bytes that are those of a word, little-endian, are read as that word (20_memory.md R36). -/
theorem memBytes_word {mem : Memory} {a : Nat} {d : Word32}
    (h : ∀ k, k < 4 → memRead mem (a + k) = some (d.extractLsb' (8 * k) 8)) :
    ∃ v, memBytes mem a 4 = .ok v ∧ v.setWidth 32 = d := by
  obtain ⟨v, hv, hbits⟩ := memBytes_of_written mem a 4 (by decide) fun k hk => by rw [written, h k hk]; rfl
  refine ⟨v, hv, BitVec.eq_of_getLsbD_eq fun i hi => ?_⟩
  have hbyte : storeByte mem (a + i / 8) = d.extractLsb' (8 * (i / 8)) 8 := by
    rw [storeByte, h (i / 8) (by omega), Option.getD_some]
  rw [BitVec.getLsbD_setWidth, hbits, hbyte, BitVec.getLsbD_extractLsb', Nat.div_add_mod]
  simp [hi, Nat.mod_lt]

/-- A word of the instance store with an unwritten byte is not read: the read stops on such a byte. -/
theorem memBytes_unwritten {mem : Memory} {a k n : Nat} (hk : k < n) (h : memRead mem (a + k) = none) :
    ∃ j, j < n ∧ memBytes mem a n = .error (.unwrittenStore (a + j)) ∧ memRead mem (a + j) = none := by
  cases hr : memBytes mem a n with
  | ok v =>
    have hw := written_of_memBytes hr k hk
    rw [written, h] at hw
    cases hw
  | error f =>
    obtain ⟨j, hj, rfl, hnone⟩ := memBytes_error hr
    exact ⟨j, hj, rfl, hnone⟩

/-- A read of the instance store, busy or idle (20_memory.md R47 (c), R49). -/
theorem hostRead32_store {a : Word32} (s : State) (h4 : a.toNat % 4 = 0) (hs : isStore a.toNat = true) :
    hostRead32 a s = operand (memBytes s.store a.toNat 4) fun v => answer (v.setWidth 32) s := by
  unfold hostRead32
  rw [if_neg (not_not.mpr h4), locate_isStore hs]

/-- Settles O46: `memRead_memWriteWord` gives every byte after the write, and a read puts the four bytes together again. -/
theorem storeWordReadsBack : Obligations.StoreWordReadsBack := by
  constructor
  · intro a d s h4 ha hb
    have hs := isStore_of_storeAddress ha
    refine ⟨_, hostWrite32_idle (u := writeStoreWord a.toNat d s) hb h4 (by rw [locate_isStore hs]; rfl), rfl,
      fun b => memRead_memWriteWord a.toNat b d s.store, fun u => ?_⟩
    obtain ⟨v, hv, hd⟩ := memBytes_word (mem := memWriteWord a.toNat d s.store) (a := a.toNat) (d := d) fun k hk => by
      rw [memRead_memWriteWord, if_pos (by omega), Nat.add_sub_cancel_left]
    rw [hostRead32_store _ h4 hs, writeStoreWord_store, hv, operand_ok, hd]
    rfl
  · rintro a s h4 ha ⟨k, hk, hnone⟩
    obtain ⟨j, hj, herr, hjnone⟩ := memBytes_unwritten hk hnone
    refine ⟨a.toNat + j, by omega, by omega, hjnone, ?_⟩
    rw [hostRead32_store s h4 (isStore_of_storeAddress ha), herr, operand_error]

theorem memRead_of_written {mem : Memory} {a : Nat} (h : written mem a) : memRead mem a = some (storeByte mem a) := by
  obtain ⟨b, hb⟩ := Option.isSome_iff_exists.mp h
  rw [storeByte, hb, Option.getD_some]

theorem byteOf_storeVec (mem : Memory) (a : Nat) {k : Nat} (hk : k < 32) :
    byteOf (storeVec mem a) k = storeByte mem (a + k) := by
  apply BitVec.eq_of_getLsbD_eq
  intro b hb
  have hdiv : (8 * k + b) / 8 = k := by omega
  have hmod : (8 * k + b) % 8 = b := by omega
  rw [byteOf_getLsbD, storeVec, vecOfBits_getLsbD _ _ _ (le_refl _), hdiv, hmod]
  simp [hb, show 8 * k + b < 256 by omega]

/-- Settles O48: the value read is `storeVec`, whose bytes are those of the store. -/
theorem engineReadsBytesInOrder : Obligations.EngineReadsBytesInOrder := by
  intro mem a h
  refine ⟨storeVec mem a, memVec_of_written h, fun k hk => ?_⟩
  rw [byteOf_storeVec mem a hk, memRead_of_written (h k hk)]

theorem tableAddr_eq (r i x y : Nat) :
    tableAddr r i x y = 0x40000000 + ((r - 1) * 32 + i) * 0x200000 + (x * 256 + y) * 32 := rfl

/-- Settles O49: an entry's number is written in mixed radix (rounds, 32, 256, 256), so it is below the size of TBL and names its
digits. -/
theorem tableEntriesAreDisjoint : Obligations.TableEntriesAreDisjoint := by
  refine ⟨fun r i x y _ _ _ _ _ => ⟨rfl, ?_⟩, fun r i x y r' i' x' y' _ _ _ _ _ _ _ _ _ _ h h' => ?_, rfl,
    fun r v => ?_⟩
  · rw [tableAddr_eq]
    omega
  · rw [tableAddr_eq, tableAddr_eq] at h h'
    omega
  · rw [roundAddrs, List.length_map, List.length_range]

end Sys2Proof.Machine
end

section
/-! SUPPORT. The command words: what each operand decoder accepts, the words that the decoder and `Legal(w)` accept, and
their number (30_encoding.md R56 to R62). -/

namespace Sys2Proof

/-! The operand decoders, each the inverse of its code (30_encoding.md R57). -/

theorem zeroField_eq_ok {k : Nat} {f : BitVec k} {u : Unit} : zeroField f = .ok u ↔ f = 0 := by
  simp [zeroField]

theorem noDim_eq_ok {f : BitVec 2} {u : Unit} : noDim f = .ok u ↔ f = 0 := by
  simp [noDim]

theorem eq_regCode_iff {k : Nat} (hk : k ≤ 8) {f : BitVec 3} {r : Fin k} : f = regCode r ↔ f.toNat = r.val := by
  rw [← BitVec.toNat_inj, regCode_toNat r hk]

theorem quadField_eq_ok {f : BitVec 3} {r : Fin 4} : quadField f = .ok r ↔ f = regCode r := by
  rw [eq_regCode_iff (by decide), quadField]
  split
  · simp [Fin.ext_iff]
  · simp only [reduceCtorEq, false_iff]
    omega

theorem vecField_eq_ok {f : BitVec 3} {r : VReg} : vecField f = .ok r ↔ f = regCode r := by
  rw [eq_regCode_iff (by decide), vecField]
  simp [Fin.ext_iff]

theorem matrixDim_eq_ok {f : BitVec 2} {n : Dim} : matrixDim f = .ok n ↔ f = n.code := by
  cases n <;> revert f <;> decide

theorem affineDim_eq_ok {f : BitVec 2} {n : Dim} : affineDim f = .ok n ↔ f = n.code ∧ n.affine = true := by
  cases n <;> revert f <;> decide

theorem bind_eq_ok {α β : Type} {x : Except Reject α} {f : α → Except Reject β} {b : β} :
    (x >>= f) = .ok b ↔ ∃ a, x = .ok a ∧ f a = .ok b := by
  cases x with
  | error e => simp [bind, Except.bind]
  | ok a => simp [bind, Except.bind]

theorem pure_eq_ok {α : Type} {a b : α} : (pure a : Except Reject α) = .ok b ↔ a = b := by
  simp [pure, Except.pure]

theorem bareWord_eq_ok {w : Word32} {i j : Instr} :
    bareWord w i = .ok j ↔
      dimField w = 0 ∧ rdField w = 0 ∧ rs1Field w = 0 ∧ rs2Field w = 0 ∧ rndField w = 0 ∧ i = j := by
  simp only [bareWord, bind_eq_ok, noDim_eq_ok, zeroField_eq_ok, exists_const, pure_eq_ok]

theorem evalRound_eq_ok {r : BitVec 4} {i : Instr} :
    (if roundLegal r then return .evalRound r else throw .roundNumber : Except Reject Instr) = .ok i ↔
      roundLegal r = true ∧ .evalRound r = i := by
  cases roundLegal r <;> simp [pure_eq_ok, throw, throwThe, MonadExceptOf.throw]

@[simp] theorem zeroField_zero (k : Nat) : zeroField 0#k = .ok () := zeroField_eq_ok.mpr rfl
@[simp] theorem noDim_zero : noDim 0#2 = .ok () := noDim_eq_ok.mpr rfl
@[simp] theorem quadField_regCode (r : Fin 4) : quadField (regCode r) = .ok r := quadField_eq_ok.mpr rfl
@[simp] theorem vecField_regCode (r : VReg) : vecField (regCode r) = .ok r := vecField_eq_ok.mpr rfl
@[simp] theorem matrixDim_code (n : Dim) : matrixDim n.code = .ok n := matrixDim_eq_ok.mpr rfl

@[simp] theorem ok_bind {α β : Type} (a : α) (f : α → Except Reject β) : (Except.ok a >>= f) = f a := rfl
@[simp] theorem ok_map {α β : Type} (a : α) (f : α → β) : f <$> (Except.ok a : Except Reject α) = .ok (f a) := rfl

/-! A word and its fields (30_encoding.md R56). -/

section
variable (op : BitVec 8) (dim : BitVec 2) (rd rs1 rs2 : BitVec 3) (rnd : BitVec 4)

@[simp] theorem opField_assembleWord : opField (assembleWord op dim rd rs1 rs2 rnd) = op :=
  (assembleWord_fields ..).1

@[simp] theorem dimField_assembleWord : dimField (assembleWord op dim rd rs1 rs2 rnd) = dim :=
  (assembleWord_fields ..).2.1

@[simp] theorem rdField_assembleWord : rdField (assembleWord op dim rd rs1 rs2 rnd) = rd :=
  (assembleWord_fields ..).2.2.1

@[simp] theorem rs1Field_assembleWord : rs1Field (assembleWord op dim rd rs1 rs2 rnd) = rs1 :=
  (assembleWord_fields ..).2.2.2.1

@[simp] theorem rs2Field_assembleWord : rs2Field (assembleWord op dim rd rs1 rs2 rnd) = rs2 :=
  (assembleWord_fields ..).2.2.2.2.1

@[simp] theorem rndField_assembleWord : rndField (assembleWord op dim rd rs1 rs2 rnd) = rnd :=
  (assembleWord_fields ..).2.2.2.2.2.1

@[simp] theorem rsvField_assembleWord : rsvField (assembleWord op dim rd rs1 rs2 rnd) = 0 :=
  (assembleWord_fields ..).2.2.2.2.2.2

end

/-- A word whose RSV is 0 is the one assembled from its fields. -/
theorem assembleWord_eq {w : Word32} {op : BitVec 8} {dim : BitVec 2} {rd rs1 rs2 : BitVec 3} {rnd : BitVec 4}
    (hrsv : rsvField w = 0) (hop : (opField w).toNat = op.toNat) (hdim : dimField w = dim) (hrd : rdField w = rd)
    (hrs1 : rs1Field w = rs1) (hrs2 : rs2Field w = rs2) (hrnd : rndField w = rnd) :
    assembleWord op dim rd rs1 rs2 rnd = w := by
  rw [← BitVec.eq_of_toNat_eq hop, ← hdim, ← hrd, ← hrs1, ← hrs2, ← hrnd, assembleWord_of_fields w hrsv]

/-! The two round trips. -/

theorem decode_encode {i : Instr} (h : i.wellFormed = true) : decode (encode i) = .ok i := by
  cases i with
  | nop | eval | evalFin | evalFout => simp [decode, encode, decodeFields, bareWord_eq_ok]
  | evalRound r => simp [decode, encode, decodeFields, evalRound_eq_ok.mpr ⟨h, rfl⟩]
  | aapply n | acomp n | ainv n => simp [decode, encode, decodeFields, affineDim_eq_ok.mpr ⟨rfl, h⟩]
  | mident | mmul | minv | mapply | meq => simp [decode, encode, decodeFields]

/-- What the decoder accepts. The rows of the opcode map with operands of the same kinds in the same fields are taken
together. -/
theorem decode_eq_ok {w : Word32} {i : Instr} (h : decode w = .ok i) : encode i = w ∧ i.wellFormed = true := by
  unfold decode at h
  split at h
  case isFalse => cases h
  case isTrue hrsv =>
    unfold decodeFields at h
    split at h <;>
      simp only [bareWord_eq_ok, bind_eq_ok, noDim_eq_ok, matrixDim_eq_ok, affineDim_eq_ok, quadField_eq_ok,
        vecField_eq_ok, zeroField_eq_ok, evalRound_eq_ok, exists_const, pure_eq_ok, reduceCtorEq] at h
    case h_1 hop | h_10 hop | h_11 hop | h_13 hop =>
      obtain ⟨hdim, hrd, hrs1, hrs2, hrnd, rfl⟩ := h
      exact ⟨assembleWord_eq hrsv hop hdim hrd hrs1 hrs2 hrnd, rfl⟩
    case h_2 hop =>
      obtain ⟨n, hdim, d, hrd, hrs1, hrs2, hrnd, rfl⟩ := h
      exact ⟨assembleWord_eq hrsv hop hdim hrd hrs1 hrs2 hrnd, rfl⟩
    case h_3 hop | h_5 hop =>
      obtain ⟨n, hdim, d, hrd, s1, hrs1, s2, hrs2, hrnd, rfl⟩ := h
      exact ⟨assembleWord_eq hrsv hop hdim hrd hrs1 hrs2 hrnd, rfl⟩
    case h_4 hop =>
      obtain ⟨n, hdim, d, hrd, src, hrs1, hrs2, hrnd, rfl⟩ := h
      exact ⟨assembleWord_eq hrsv hop hdim hrd hrs1 hrs2 hrnd, rfl⟩
    case h_6 hop =>
      obtain ⟨n, hdim, hrd, s1, hrs1, s2, hrs2, hrnd, rfl⟩ := h
      exact ⟨assembleWord_eq hrsv hop hdim hrd hrs1 hrs2 hrnd, rfl⟩
    case h_7 hop | h_8 hop =>
      obtain ⟨n, ⟨hdim, hn⟩, d, hrd, s1, hrs1, s2, hrs2, hrnd, rfl⟩ := h
      exact ⟨assembleWord_eq hrsv hop hdim hrd hrs1 hrs2 hrnd, hn⟩
    case h_9 hop =>
      obtain ⟨n, ⟨hdim, hn⟩, d, hrd, src, hrs1, hrs2, hrnd, rfl⟩ := h
      exact ⟨assembleWord_eq hrsv hop hdim hrd hrs1 hrs2 hrnd, hn⟩
    case h_12 hop =>
      obtain ⟨hdim, hrd, hrs1, hrs2, hr, rfl⟩ := h
      exact ⟨assembleWord_eq hrsv hop hdim hrd hrs1 hrs2 rfl, hr⟩

/-- Settles O2, command by command: each operand decoder gives back the operand whose code it reads. -/
theorem decodeInvertsEncode : Obligations.DecodeInvertsEncode := fun _ h => decode_encode h

/-- Settles O3, row by row of the opcode map: the fields that a row's decoders accept are the codes of its operands. -/
theorem encodeInvertsDecode : Obligations.EncodeInvertsDecode := fun _ _ h => decode_eq_ok h

/-- Settles O1: the decoder runs on each of the words. -/
theorem specWordsDecode : Obligations.SpecWordsDecode :=
  ⟨rfl, rfl, rfl, rfl, rfl, rfl, rfl, rfl, rfl, rfl, rfl, rfl, rfl⟩

/-! `Legal(w)`: a row's condition on a field says that the field is the code of an operand (30_encoding.md R57, R59). -/

theorem legal_z {f : BitVec 3} : FieldClass.z.legal f = true ↔ f = 0 := beq_iff_eq

theorem legal_m {f : BitVec 3} : FieldClass.m.legal f = true ↔ ∃ r : MReg, f = regCode r := by
  revert f; decide

theorem legal_a {f : BitVec 3} : FieldClass.a.legal f = true ↔ ∃ r : AReg, f = regCode r := legal_m

theorem legal_v {f : BitVec 3} : FieldClass.v.legal f = true ↔ ∃ r : VReg, f = regCode r := by
  revert f; decide

theorem noDims_contains {f : BitVec 2} : [0].contains f = true ↔ f = 0 := by
  revert f; decide

theorem matrixDims_contains {f : BitVec 2} : [0, 1, 2].contains f = true ↔ ∃ n : Dim, f = n.code := by
  constructor
  · intro h
    obtain rfl | rfl | rfl : f = 0 ∨ f = 1 ∨ f = 2 := by simpa using h
    exacts [⟨.d8, rfl⟩, ⟨.d128, rfl⟩, ⟨.d256, rfl⟩]
  · rintro ⟨n, rfl⟩
    cases n <;> rfl

theorem affineDims_contains {f : BitVec 2} : [0, 2].contains f = true ↔ ∃ n : Dim, n.affine = true ∧ f = n.code := by
  constructor
  · intro h
    obtain rfl | rfl : f = 0 ∨ f = 2 := by simpa using h
    exacts [⟨.d8, rfl, rfl⟩, ⟨.d256, rfl, rfl⟩]
  · rintro ⟨n, hn, rfl⟩
    cases n with
    | d8 | d256 => rfl
    | d128 => cases hn

/-- The rows of the opcode map with the same set of dimensions are taken together. -/
theorem legalWord_encode {i : Instr} (h : i.wellFormed = true) : legalWord (encode i) = true := by
  cases i with
  | nop | eval | evalFin | evalFout => rfl
  | evalRound r => simpa [legalWord, encode, opMap, OpRow.legal, legal_z, Instr.wellFormed] using h
  | aapply n | acomp n | ainv n =>
    have hdim := affineDims_contains.mpr ⟨n, h, rfl⟩
    simpa [legalWord, encode, opMap, OpRow.legal, legal_z, legal_m, legal_v, legal_a] using hdim
  | mident n | mmul n | minv n | mapply n | meq n => 
    have hdim := matrixDims_contains.mpr ⟨n, rfl⟩
    simpa [legalWord, encode, opMap, OpRow.legal, legal_z, legal_m, legal_v, legal_a] using hdim

theorem encode_of_legalWord {w : Word32} (h : legalWord w = true) : ∃ i : Instr, i.wellFormed = true ∧ encode i = w := by
  unfold legalWord at h
  split at h
  case h_2 => cases h
  case h_1 row hrow =>
    have hmem := List.mem_of_find?_eq_some hrow
    have hfound := List.find?_some hrow
    have hop := congrArg BitVec.toNat (beq_iff_eq.mp hfound).symm
    simp only [OpRow.legal, Bool.and_eq_true, beq_iff_eq, and_assoc] at h
    simp only [opMap, List.mem_cons, List.not_mem_nil, or_false] at hmem
    obtain rfl | rfl | rfl | rfl | rfl | rfl | rfl | rfl | rfl | rfl | rfl | rfl | rfl := hmem <;>
      simp only [noDims_contains, matrixDims_contains, affineDims_contains, legal_z, legal_m, legal_v, legal_a,
        Bool.false_eq_true, if_true, if_false, beq_iff_eq] at h
    · obtain ⟨hrsv, hdim, hrd, hrs1, hrs2, hrnd⟩ := h
      exact ⟨.nop, rfl, assembleWord_eq hrsv hop hdim hrd hrs1 hrs2 hrnd⟩
    · obtain ⟨hrsv, ⟨n, hdim⟩, ⟨d, hrd⟩, hrs1, hrs2, hrnd⟩ := h
      exact ⟨.mident n d, rfl, assembleWord_eq hrsv hop hdim hrd hrs1 hrs2 hrnd⟩
    · obtain ⟨hrsv, ⟨n, hdim⟩, ⟨d, hrd⟩, ⟨s1, hrs1⟩, ⟨s2, hrs2⟩, hrnd⟩ := h
      exact ⟨.mmul n d s1 s2, rfl, assembleWord_eq hrsv hop hdim hrd hrs1 hrs2 hrnd⟩
    · obtain ⟨hrsv, ⟨n, hdim⟩, ⟨d, hrd⟩, ⟨src, hrs1⟩, hrs2, hrnd⟩ := h
      exact ⟨.minv n d src, rfl, assembleWord_eq hrsv hop hdim hrd hrs1 hrs2 hrnd⟩
    · obtain ⟨hrsv, ⟨n, hdim⟩, ⟨d, hrd⟩, ⟨m, hrs1⟩, ⟨src, hrs2⟩, hrnd⟩ := h
      exact ⟨.mapply n d m src, rfl, assembleWord_eq hrsv hop hdim hrd hrs1 hrs2 hrnd⟩
    · obtain ⟨hrsv, ⟨n, hdim⟩, hrd, ⟨s1, hrs1⟩, ⟨s2, hrs2⟩, hrnd⟩ := h
      exact ⟨.meq n s1 s2, rfl, assembleWord_eq hrsv hop hdim hrd hrs1 hrs2 hrnd⟩
    · obtain ⟨hrsv, ⟨n, hn, hdim⟩, ⟨d, hrd⟩, ⟨a, hrs1⟩, ⟨src, hrs2⟩, hrnd⟩ := h
      exact ⟨.aapply n d a src, hn, assembleWord_eq hrsv hop hdim hrd hrs1 hrs2 hrnd⟩
    · obtain ⟨hrsv, ⟨n, hn, hdim⟩, ⟨d, hrd⟩, ⟨s1, hrs1⟩, ⟨s2, hrs2⟩, hrnd⟩ := h
      exact ⟨.acomp n d s1 s2, hn, assembleWord_eq hrsv hop hdim hrd hrs1 hrs2 hrnd⟩
    · obtain ⟨hrsv, ⟨n, hn, hdim⟩, ⟨d, hrd⟩, ⟨src, hrs1⟩, hrs2, hrnd⟩ := h
      exact ⟨.ainv n d src, hn, assembleWord_eq hrsv hop hdim hrd hrs1 hrs2 hrnd⟩
    · obtain ⟨hrsv, hdim, hrd, hrs1, hrs2, hrnd⟩ := h
      exact ⟨.eval, rfl, assembleWord_eq hrsv hop hdim hrd hrs1 hrs2 hrnd⟩
    · obtain ⟨hrsv, hdim, hrd, hrs1, hrs2, hrnd⟩ := h
      exact ⟨.evalFin, rfl, assembleWord_eq hrsv hop hdim hrd hrs1 hrs2 hrnd⟩
    · obtain ⟨hrsv, hdim, hrd, hrs1, hrs2, hr⟩ := h
      exact ⟨.evalRound (rndField w), hr, assembleWord_eq hrsv hop hdim hrd hrs1 hrs2 rfl⟩
    · obtain ⟨hrsv, hdim, hrd, hrs1, hrs2, hrnd⟩ := h
      exact ⟨.evalFout, rfl, assembleWord_eq hrsv hop hdim hrd hrs1 hrs2 hrnd⟩

/-- The legal words are the words of the well-formed commands. -/
theorem legalWord_iff {w : Word32} : legalWord w = true ↔ ∃ i : Instr, i.wellFormed = true ∧ encode i = w :=
  ⟨encode_of_legalWord, fun ⟨_, hi, hw⟩ => hw ▸ legalWord_encode hi⟩

/-- The decoder accepts exactly the legal words. -/
theorem legalWord_iff_decode {w : Word32} : legalWord w = true ↔ ∃ i, decode w = .ok i := by
  rw [legalWord_iff]
  constructor
  · rintro ⟨i, hi, rfl⟩
    exact ⟨i, decode_encode hi⟩
  · rintro ⟨i, hi⟩
    obtain ⟨hw, hwf⟩ := decode_eq_ok hi
    exact ⟨i, hwf, hw⟩

/-! The list of the well-formed commands. -/

theorem mem_allDims (n : Dim) : n ∈ allDims := by
  cases n <;> decide

theorem mem_affineDims {n : Dim} : n ∈ affineDims ↔ n.affine = true := by
  cases n <;> decide

theorem mem_allInstrs {i : Instr} : i ∈ allInstrs ↔ i.wellFormed = true := by
  cases i with
  | evalRound r =>
    have hround : (∃ k < 10, BitVec.ofNat 4 (k + 1) = r) ↔ roundLegal r = true := by
      revert r
      decide
    simpa [allInstrs, Instr.wellFormed] using hround
  | _ => simp [allInstrs, Instr.wellFormed, mem_allDims, mem_affineDims]

theorem length_allInstrs : allInstrs.length = 1754 := by
  simp [allInstrs, allDims, affineDims]

/-! No command is listed twice. A family of commands is a grid of operands under one constructor, and the families stand in
the order of their opcodes. -/

section
variable {α β γ δ ε : Type} {k : List α} {l : List β} {m : List γ} {n : List δ}

theorem nodup_flatMap {f : α → List ε} (hk : k.Nodup) (hf : ∀ a, (f a).Nodup)
    (hd : ∀ {a a' b}, b ∈ f a → b ∈ f a' → a = a') : (k.flatMap f).Nodup :=
  List.nodup_flatMap.mpr ⟨fun a _ => hf a, hk.imp fun hne _ hb hb' => hne (hd hb hb')⟩

theorem nodup_grid2 {f : α → β → ε} (hf : ∀ {a b a' b'}, f a b = f a' b' → a = a' ∧ b = b') (hk : k.Nodup)
    (hl : l.Nodup) : (k.flatMap fun a => l.map (f a)).Nodup := by
  refine nodup_flatMap hk (fun a => hl.map fun b b' h => (hf h).2) ?_
  simp only [List.mem_map]
  rintro a a' _ ⟨b, -, rfl⟩ ⟨b', -, h⟩
  exact (hf h).1.symm

theorem nodup_grid3 {f : α → β → γ → ε}
    (hf : ∀ {a b c a' b' c'}, f a b c = f a' b' c' → a = a' ∧ b = b' ∧ c = c')
    (hk : k.Nodup) (hl : l.Nodup) (hm : m.Nodup) : (k.flatMap fun a => l.flatMap fun b => m.map (f a b)).Nodup := by
  refine nodup_flatMap hk (fun a => nodup_grid2 (fun h => (hf h).2) hl hm) ?_
  simp only [List.mem_flatMap, List.mem_map]
  rintro a a' _ ⟨b, -, c, -, rfl⟩ ⟨b', -, c', -, h⟩
  exact (hf h).1.symm

theorem nodup_grid4 {f : α → β → γ → δ → ε}
    (hf : ∀ {a b c d a' b' c' d'}, f a b c d = f a' b' c' d' → a = a' ∧ b = b' ∧ c = c' ∧ d = d') (hk : k.Nodup)
    (hl : l.Nodup) (hm : m.Nodup) (hn : n.Nodup) :
    (k.flatMap fun a => l.flatMap fun b => m.flatMap fun c => n.map (f a b c)).Nodup := by
  refine nodup_flatMap hk (fun a => nodup_grid3 (fun h => (hf h).2) hl hm hn) ?_
  simp only [List.mem_flatMap, List.mem_map]
  rintro a a' _ ⟨b, -, c, -, d, -, rfl⟩ ⟨b', -, c', -, d', -, h⟩
  exact (hf h).1.symm

end

/-- The list has no repeats, and the opcodes of its commands are below `op`. -/
structure NodupBelow (op : Nat) (l : List Instr) : Prop where
  nodup : l.Nodup
  below : ∀ i ∈ l, (opField (encode i)).toNat < op

theorem NodupBelow.append {lo hi : Nat} {l l' : List Instr} (h : NodupBelow lo l) (hl' : l'.Nodup)
    (hop : lo ≤ hi ∧ ∀ i ∈ l', lo ≤ (opField (encode i)).toNat ∧ (opField (encode i)).toNat < hi) :
    NodupBelow hi (l ++ l') where
  nodup := h.nodup.append hl' fun i hi hi' => absurd (h.below i hi) (not_lt.mpr (hop.2 i hi').1)
  below i hi := by
    obtain hi | hi := List.mem_append.mp hi
    · exact lt_of_lt_of_le (h.below i hi) hop.1
    · exact (hop.2 i hi).2

theorem nodup_allInstrs : allInstrs.Nodup := by
  have hdims : allDims.Nodup := by decide
  have haffine : affineDims.Nodup := by decide
  have h4 := List.nodup_finRange 4
  have h8 := List.nodup_finRange 8
  have hrounds : ((List.range 10).map fun k => Instr.evalRound (BitVec.ofNat 4 (k + 1))).Nodup := by decide
  have hnop : NodupBelow 0x10 [.nop] := ⟨List.nodup_singleton _, by simp [encode]⟩
  refine NodupBelow.nodup (op := 0x34) ?_
  refine hnop.append (hi := 0x11) (nodup_grid2 Instr.mident.inj hdims h4) ?_
    |>.append (hi := 0x12) (nodup_grid4 Instr.mmul.inj hdims h4 h4 h4) ?_
    |>.append (hi := 0x13) (nodup_grid3 Instr.minv.inj hdims h4 h4) ?_
    |>.append (hi := 0x14) (nodup_grid4 Instr.mapply.inj hdims h8 h4 h8) ?_
    |>.append (hi := 0x15) (nodup_grid3 Instr.meq.inj hdims h4 h4) ?_
    |>.append (hi := 0x21) (nodup_grid4 Instr.aapply.inj haffine h8 h4 h8) ?_
    |>.append (hi := 0x22) (nodup_grid4 Instr.acomp.inj haffine h4 h4 h4) ?_
    |>.append (hi := 0x23) (nodup_grid3 Instr.ainv.inj haffine h4 h4) ?_
    |>.append (hi := 0x32) (l' := [.eval, .evalFin]) (by decide) ?_
    |>.append (hi := 0x33) hrounds ?_
    |>.append (hi := 0x34) (List.nodup_singleton _) ?_
  all_goals
    simp only [List.forall_mem_flatMap, List.forall_mem_map, List.forall_mem_cons, encode, opField_assembleWord]
    simp

/-- Different well-formed commands have different words. -/
theorem encode_inj {i j : Instr} (hi : i.wellFormed = true) (hj : j.wellFormed = true) (h : encode i = encode j) :
    i = j :=
  Except.ok.inj ((decode_encode hi).symm.trans (h ▸ decode_encode hj))

/-- Settles O4: the words that the decoder accepts, the legal words and the words of the list are all the words of the
well-formed commands, of which the list names each once. -/
theorem legalWordsAreDecodable : Obligations.LegalWordsAreDecodable := by
  refine ⟨fun _ => legalWord_iff_decode, ?_, ?_, fun w => ?_⟩
  · exact nodup_allInstrs.map_on fun i hi j hj => encode_inj (mem_allInstrs.mp hi) (mem_allInstrs.mp hj)
  · rw [List.length_map, length_allInstrs]
  · simp only [legalWord_iff, List.mem_map, mem_allInstrs]

end Sys2Proof
end

section
/-! SUPPORT. The end of an illegal word, the assembler and the pseudo-instruction mmov (30_encoding.md R59 to R63,
60_exceptions.md R98, R99). -/

namespace Sys2Proof.Machine

open Sys2Proof.Claims

/-- The error record, field by field (60_exceptions.md R99). -/
theorem raise_eq (c : Cause) (s : State) :
    raise c s = .next
      { s with
        busy := false
        done := true
        err := true
        errcode := if s.err then s.errcode else causeCode c
        errinfo := if s.err then s.errinfo else s.pend } := by
  unfold raise recordError complete
  cases h : s.err with
  | true => simp [h]
  | false => simp

theorem completeCommand_illegal {s : State} (h : legalWord s.pend = false) : completeCommand s = raise .illegal s := by
  unfold completeCommand
  split
  · next i hi =>
    have hlegal := legalWord_iff_decode.mpr ⟨i, hi⟩
    simp [h] at hlegal
  · rfl

/-- Settles O11: the decoder accepts no illegal word, so the command raises ILLEGAL. -/
theorem illegalWordRaisesIllegal : Obligations.IllegalWordRaisesIllegal := fun s h => by
  rw [completeCommand_illegal h, raise_eq]
  rfl

/-! What a command that writes a matrix register leaves (40_gf2_matrix.md R65, R66). -/

/-- Recording the first unwritten byte of what was read leaves the record or makes it. -/
theorem FirstHole.keptOrMade {s : State} {reads : RegName → Nat → Prop} {hole : Option (RegName × Nat)}
    (h : FirstHole s reads hole) (hbyte : ∀ r j, reads r j → j < 32) : RecordKeptOrMade s (recordUnwritten hole s) := by
  unfold RecordKeptOrMade
  rw [recordUnwritten_unwrittenRead]
  cases hs : s.unwrittenRead with
  | some p => exact .inl rfl
  | none =>
    cases hh : hole with
    | none => exact .inl rfl
    | some p =>
      obtain ⟨hr, hw⟩ := h.named p.1 p.2 hh
      exact .inr ⟨rfl, p.1, p.2, rfl, hbyte _ _ hr, hw⟩

theorem inViewM_byte {n : Dim} {k : MReg} {r : RegName} {j : Nat} (h : InViewM n k r j) : j < 32 :=
  lt_of_lt_of_le h.2 (dimBytes_le n)

theorem writeM_frame (d : MReg) (x : BitMatrix) {s : State} {hole : Option (RegName × Nat)}
    (h : RecordKeptOrMade s (recordUnwritten hole s)) :
    RegisterFrame s (complete (writeM d x (recordUnwritten hole s))) (fun _ => False) fun k => k = d where
  completed := ⟨rfl, rfl⟩
  error := ⟨rfl, rfl, rfl⟩
  vectors _ _ := ⟨rfl, rfl⟩
  matrices k hk := by
    have hne : d.val ≠ k.val := fun e => hk (Fin.ext e.symm)
    simp [hne]
  wide := ⟨rfl, rfl, rfl, rfl, rfl, rfl⟩
  flag := rfl
  rest := ⟨rfl, rfl, rfl, rfl, rfl, rfl, fun _ => rfl, h, rfl, rfl, rfl⟩

theorem writeM_marked (d : MReg) (x : BitMatrix) (s : State) {i j : Nat} (hi : i < 256) (hj : j < 32) :
    registerWritten (writeM d x s).marks (.m d i) j = true := by
  simp [registerWritten, markRow, hi, hj]

theorem readM_writeM_same (n : Dim) (d : MReg) (x : BitMatrix) (s : State) :
    readM n d (complete (writeM d x s)) = leadMat (dimSize n) x := by
  simp [readM]

theorem readM_writeM_other (n : Dim) {d k : MReg} (x : BitMatrix) (s : State) (h : d ≠ k) :
    readM n k (complete (writeM d x s)) = readM n k s := by
  have hne : d.val ≠ k.val := fun e => h (Fin.ext e)
  simp [readM, hne]

theorem writeM_holds (d : MReg) {x : BitMatrix} (s : State) {n : Nat} {f : Nat → Nat → Bool}
    (h : ∀ i j, i < 256 → j < 256 → entry x i j = (decide (i < n ∧ j < n) && f i j)) :
    MatrixHolds (complete (writeM d x s)) d n f :=
  ⟨by simpa using h, fun _ _ hi hj => writeM_marked d x s hi hj⟩

/-- A write of a matrix register leaves no byte unwritten that was written. -/
theorem unwritten_of_writeM {d : MReg} {x : BitMatrix} {s : State} {r : RegName} {j : Nat} (hj : j < 32)
    (h : registerWritten (writeM d x s).marks r j = false) : registerWritten s.marks r j = false := by
  cases r with
  | m k i =>
    by_cases hk : d = k
    · subst hk
      by_cases hi : i < 256
      · rw [writeM_marked d x s hi hj] at h
        cases h
      · simp [registerWritten, markRow, hi]
    · have hne : d.val ≠ k.val := fun e => hk (Fin.ext e)
      simpa [registerWritten, hne] using h
  | v | buf | inp | acc => exact h

theorem recordKeptOrMade_trans {s t u : State} (h : RecordKeptOrMade s t) (h' : RecordKeptOrMade t u)
    (hmarks : ∀ r j, j < 32 → registerWritten t.marks r j = false → registerWritten s.marks r j = false) :
    RecordKeptOrMade s u := by
  obtain hkept | ⟨hnone, r, j, hu, hj, hw⟩ := h'
  · unfold RecordKeptOrMade
    rwa [hkept]
  · obtain hkept | ⟨-, r', j', hmade, -⟩ := h
    · exact .inr ⟨hkept ▸ hnone, r, j, hu, hj, hmarks r j hj hw⟩
    · rw [hmade] at hnone
      cases hnone

theorem neverWritten_trans {s t u : State} (h : NeverWritten s t) (h' : NeverWritten t u)
    (hmarks : ∀ r j, j < 32 → registerWritten t.marks r j = false → registerWritten s.marks r j = false) :
    NeverWritten s u where
  irqEn := h'.irqEn.trans h.irqEn
  ovr := h'.ovr.trans h.ovr
  outPresent := h'.outPresent.trans h.outPresent
  version := h'.version.trans h.version
  scheme := h'.scheme.trans h.scheme
  pend := h'.pend.trans h.pend
  store a := (h'.store a).trans (h.store a)
  record := recordKeptOrMade_trans h.record h'.record hmarks
  draws := h'.draws.trans h.draws
  inputs := h'.inputs.trans h.inputs
  response := h'.response.trans h.response

/-- The frames of two commands, one after the other, if the first leaves no byte unwritten that was written. -/
theorem registerFrame_trans {s t u : State} {dv : VReg → Prop} {dm : MReg → Prop} (h : RegisterFrame s t dv dm)
    (h' : RegisterFrame t u dv dm)
    (hmarks : ∀ r j, j < 32 → registerWritten t.marks r j = false → registerWritten s.marks r j = false) :
    RegisterFrame s u dv dm where
  completed := h'.completed
  error := by
    obtain ⟨herr, hcode, hinfo⟩ := h.error
    obtain ⟨herr', hcode', hinfo'⟩ := h'.error
    exact ⟨herr'.trans herr, hcode'.trans hcode, hinfo'.trans hinfo⟩
  vectors k hk := by
    obtain ⟨hv, hmarks⟩ := h.vectors k hk
    obtain ⟨hv', hmarks'⟩ := h'.vectors k hk
    exact ⟨hv'.trans hv, hmarks'.trans hmarks⟩
  matrices k hk := by
    obtain ⟨hm, hmarks⟩ := h.matrices k hk
    obtain ⟨hm', hmarks'⟩ := h'.matrices k hk
    exact ⟨hm'.trans hm, hmarks'.trans hmarks⟩
  wide := by
    obtain ⟨hbuf, hinp, hacc, hmbuf, hminp, hmacc⟩ := h.wide
    obtain ⟨hbuf', hinp', hacc', hmbuf', hminp', hmacc'⟩ := h'.wide
    exact ⟨hbuf'.trans hbuf, hinp'.trans hinp, hacc'.trans hacc, hmbuf'.trans hmbuf, hminp'.trans hminp,
      hmacc'.trans hmacc⟩
  flag := h'.flag.trans h.flag
  rest := neverWritten_trans h.rest h'.rest hmarks

/-! mmov (30_encoding.md R63). -/

theorem leadMat_identity {n : Nat} (hn : n ≤ 256) : leadMat n (identity n) = identity n := by
  apply mat_ext_entries
  intro i j _ _
  rw [entry_leadMat _ _ _ _ hn, entry_identity _ _ _ hn, ← Bool.decide_and, decide_eq_decide]
  omega

theorem productEntry_identity {n : Nat} (x : BitMatrix) (i j : Nat) (hn : n ≤ 256) :
    productEntry n x (identity n) i j = (decide (j < n) && entry x i j) := by
  unfold productEntry
  by_cases hj : j < n
  · rw [xorBelow_single _ hj]
    · simp [hn, hj]
    · intro k hk hne
      simp [hn, hne]
  · rw [xorBelow_congr (g := fun _ => false), xorBelow_false]
    · simp [hj]
    · intro k hk
      have hne : k ≠ j := by omega
      simp [hn, hne]

theorem exec_mident (n : Dim) (d : MReg) (s : State) :
    exec (.mident n d) s = .next (complete (writeM d (identity (dimSize n)) s)) := rfl

theorem exec_mmul (n : Dim) (d s1 s2 : MReg) (s : State) :
    exec (.mmul n d s1 s2) s = .next (complete (writeM d (matMul (dimSize n) (readM n s1 s) (readM n s2 s))
      (recordUnwritten ((holeM n s1 s).or (holeM n s2 s)) s))) := rfl

theorem mident_frame (n : Dim) (d : MReg) (s : State) :
    RegisterFrame s (complete (writeM d (identity (dimSize n)) s)) (fun _ => False) fun k => k = d := by
  have h := writeM_frame d (identity (dimSize n)) ((firstHole_none s).keptOrMade fun _ _ => False.elim)
  rwa [recordUnwritten_none] at h

theorem mmul_frame (n : Dim) (d s1 s2 : MReg) (x : BitMatrix) (s : State) :
    RegisterFrame s (complete (writeM d x (recordUnwritten ((holeM n s1 s).or (holeM n s2 s)) s))) (fun _ => False)
      fun k => k = d :=
  writeM_frame d x (((holeM_first n s1 s).or (holeM_first n s2 s)).keptOrMade fun _ _ => Or.rec inViewM_byte inViewM_byte)

/-- MIDENT and then MMUL by the identity it left copies the leading view (30_encoding.md R63). -/
theorem runCommands_mmov (n : Dim) {d src : MReg} (s : State) (hne : d ≠ src) :
    ∃ t, runCommands [.mident n d, .mmul n d src d] s = .next t ∧ MatrixHolds t d (dimSize n) (entry s.m[src]) ∧
      RegisterFrame s t (fun _ => False) fun k => k = d := by
  have hn := dimSize_le n
  refine ⟨_, rfl, writeM_holds d _ fun i j _ _ => ?_,
    registerFrame_trans (mident_frame n d s) (mmul_frame n d src d _ _)
      fun r j hj h => unwritten_of_writeM (x := identity (dimSize n)) hj h⟩
  rw [readM_writeM_same, leadMat_identity hn, readM_writeM_other _ _ _ hne, readM, entry_matMul _ _ _ _ _ hn,
    productEntry_identity _ _ _ hn, entry_leadMat _ _ _ _ hn]
  by_cases hi : i < dimSize n
  · by_cases hj : j < dimSize n
    · simp [hi, hj]
    · simp [hj]
  · simp [hi]

/-- Settles O5: the assembler emits the words of the well-formed commands only, and mmov multiplies by the identity it wrote
to its destination. -/
theorem assemblerAndMmov : Obligations.AssemblerAndMmov := by
  refine ⟨fun i => ?_, fun i w h => ?_, fun n d => if_pos rfl, fun n d src s hne => ?_⟩
  · cases hi : i.wellFormed <;> simp [assemble, hi]
  · unfold assemble at h
    split at h
    · next hi => exact Option.some.inj h ▸ legalWord_encode hi
    · cases h
  · obtain ⟨t, hrun, hholds, hframe⟩ := runCommands_mmov n s hne
    exact ⟨_, t, if_neg hne, hrun, hholds, hframe⟩

end Sys2Proof.Machine
end

section
/-! SUPPORT. The algebra of the matrix operations at a dimension: products and inverses are those of Mathlib's matrices over
the field of two elements, a matrix that is zero outside its leading view being given by its entries there (40_gf2_matrix.md
R68, R69, R72, R73). -/

namespace Sys2Proof.Machine

/-- Every entry outside rows and columns below `n` is 0 (40_gf2_matrix.md R65). -/
def ZeroOutside (n : Nat) (x : BitMatrix) : Prop := ∀ i j, entry x i j = true → i < n ∧ j < n

theorem ZeroOutside.entry_eq {n : Nat} {x : BitMatrix} (h : ZeroOutside n x) (i j : Nat) :
    entry x i j = (decide (i < n ∧ j < n) && entry x i j) := by
  cases he : entry x i j with
  | false => simp
  | true => simp [h i j he]

theorem zeroOutside_leadMat {n : Nat} (hn : n ≤ 256) (x : BitMatrix) : ZeroOutside n (leadMat n x) := by
  intro i j h
  rw [entry_leadMat _ _ _ _ hn, Bool.and_eq_true, decide_eq_true_eq] at h
  exact h.1

theorem zeroOutside_identity {n : Nat} (hn : n ≤ 256) : ZeroOutside n (identity n) := by
  intro i j h
  rw [entry_identity _ _ _ hn, decide_eq_true_eq] at h
  omega

/-- A row outside the view is 0 by the product's definition, a column by that of the right factor. -/
theorem zeroOutside_matMul {n : Nat} (hn : n ≤ 256) (x : BitMatrix) {y : BitMatrix} (hy : ZeroOutside n y) :
    ZeroOutside n (matMul n x y) := by
  intro i j h
  rw [entry_matMul _ _ _ _ _ hn, Bool.and_eq_true, decide_eq_true_eq] at h
  refine ⟨h.1, not_le.mp fun hj => ?_⟩
  have hcol : ∀ k, entry y k j = false := fun k => by
    rw [Bool.eq_false_iff]
    exact fun hk => absurd (hy k j hk).2 (not_lt.mpr hj)
  have hzero : productEntry n x y i j = false := by simp [productEntry, hcol]
  exact absurd h.2 (by simp [hzero])

theorem bit_inj {a b : Bool} : (if a then 1 else 0 : ZMod 2) = (if b then 1 else 0) → a = b := by
  revert a b
  decide

/-- Matrices that are zero outside the leading view are equal if the leading views are. -/
theorem eq_of_toMatrix_eq {n : Nat} {x y : BitMatrix} (hx : ZeroOutside n x) (hy : ZeroOutside n y)
    (h : toMatrix n x = toMatrix n y) : x = y := by
  refine mat_ext_entries fun i j _ _ => ?_
  rw [hx.entry_eq, hy.entry_eq]
  by_cases hij : i < n ∧ j < n
  · have hentry : entry x i j = entry y i j := bit_inj (congrFun (congrFun h ⟨i, hij.1⟩) ⟨j, hij.2⟩)
    rw [hentry]
  · simp [hij]

theorem toMatrix_matMul {n : Nat} (hn : n ≤ 256) (x y : BitMatrix) :
    toMatrix n (matMul n x y) = toMatrix n x * toMatrix n y := by
  ext i j
  rw [toMatrix_mul, toMatrix, entry_matMul _ _ _ _ _ hn, decide_eq_true i.isLt, Bool.true_and]

theorem toMatrix_identity {n : Nat} (hn : n ≤ 256) : toMatrix n (identity n) = 1 := by
  ext i j
  rw [toMatrix, entry_identity _ _ _ hn, Matrix.one_apply]
  simp [Fin.ext_iff]

/-! Products (40_gf2_matrix.md R73 (a) to (c)). -/

theorem entry_matMul_lead {n : Nat} (hn : n ≤ 256) (x y : BitMatrix) (i j : Nat) :
    entry (matMul n (leadMat n x) (leadMat n y)) i j = (decide (i < n ∧ j < n) && productEntry n x y i j) := by
  by_cases hij : i < n ∧ j < n
  · rw [entry_matMul _ _ _ _ _ hn, productEntry_lead n x y hn hij.1 hij.2, decide_eq_true hij, decide_eq_true hij.1]
  · rw [decide_eq_false hij, Bool.false_and, Bool.eq_false_iff]
    exact fun h => hij (zeroOutside_matMul hn _ (zeroOutside_leadMat hn y) i j h)

theorem matMul_assoc {n : Nat} (hn : n ≤ 256) (x y : BitMatrix) {z : BitMatrix} (hz : ZeroOutside n z) :
    matMul n (matMul n x y) z = matMul n x (matMul n y z) := by
  refine eq_of_toMatrix_eq (zeroOutside_matMul hn _ hz) (zeroOutside_matMul hn _ (zeroOutside_matMul hn _ hz)) ?_
  simp only [toMatrix_matMul hn, mul_assoc]

theorem identity_matMul {n : Nat} (hn : n ≤ 256) {x : BitMatrix} (hx : ZeroOutside n x) :
    matMul n (identity n) x = x := by
  refine eq_of_toMatrix_eq (zeroOutside_matMul hn _ hx) hx ?_
  rw [toMatrix_matMul hn, toMatrix_identity hn, one_mul]

theorem matMul_identity {n : Nat} (hn : n ≤ 256) {x : BitMatrix} (hx : ZeroOutside n x) :
    matMul n x (identity n) = x := by
  refine eq_of_toMatrix_eq (zeroOutside_matMul hn _ (zeroOutside_identity hn)) hx ?_
  rw [toMatrix_matMul hn, toMatrix_identity hn, mul_one]

/-- A vector of dimension `n` is applied to at dimension `n`: its bits from `n` up are 0. -/
theorem applyBit_leadVec {n : Nat} (hn : n ≤ 256) (x : BitMatrix) (v : Vec) (i : Nat) :
    applyBit 256 x (leadVec n v) i = applyBit n x v i := by
  rw [applyBit, xorBelow_cut _ hn fun j hj _ => by simp [Nat.not_lt.mpr hj]]
  exact xorBelow_congr fun j hj => by simp [hj]

theorem matVec_leadVec_getLsbD {n : Nat} (hn : n ≤ 256) (x : BitMatrix) (v : Vec) (i : Nat) :
    (matVec n x (leadVec n v)).getLsbD i = (decide (i < n) && applyBit n x v i) := by
  rw [matVec_getLsbD _ _ _ _ hn, applyBit_leadVec hn]

theorem leadVec_matVec {n : Nat} (hn : n ≤ 256) (x : BitMatrix) (v : Vec) : leadVec n (matVec n x v) = matVec n x v := by
  refine vec_ext fun i _ => ?_
  rw [leadVec_getLsbD, matVec_getLsbD _ _ _ _ hn, ← Bool.and_assoc, Bool.and_self]

/-- Application of a product is application twice. -/
theorem matVec_matMul {n : Nat} (hn : n ≤ 256) (x y : BitMatrix) (v : Vec) :
    matVec n (matMul n x y) (leadVec n v) = matVec n x (matVec n y (leadVec n v)) := by
  refine vec_ext fun i _ => ?_
  rw [← leadVec_matVec hn y, matVec_leadVec_getLsbD hn, matVec_leadVec_getLsbD hn]
  by_cases hi : i < n
  · have hproduct : applyBit n (matMul n x y) v i = xorBelow (fun k => productEntry n x y i k && v.getLsbD k) n :=
      xorBelow_congr fun k _ => by simp [hn, hi]
    have htwice : applyBit n x (matVec n y (leadVec n v)) i =
        xorBelow (fun k => entry x i k && rowDot n (row y k) fun j => v.getLsbD j) n :=
      xorBelow_congr fun k hk => by
        rw [matVec_leadVec_getLsbD hn, decide_eq_true hk, Bool.true_and]
        rfl
    rw [hproduct, htwice, productEntry_apply]
  · simp [hi]

/-- The matrix whose one entry that is 1 is `(i, j)`. -/
def unitMatrix (i j : Nat) : BitMatrix := matOfRows fun k => if k = i then BitVec.twoPow 256 j else 0

theorem entry_unitMatrix {i j : Nat} (hi : i < 256) (hj : j < 256) (k l : Nat) :
    entry (unitMatrix i j) k l = decide (k = i ∧ l = j) := by
  rw [unitMatrix, entry_matOfRows]
  by_cases hk : k = i
  · simp [hk, hi, hj, BitVec.getLsbD_twoPow, eq_comm]
  · simp [hk]

/-- The product of the unit matrices of `(0, 1)` and `(1, 0)` has the entry `(0, 0)`, and in the other order it has not. -/
theorem matMul_not_commutative {n : Nat} (hn : n ≤ 256) (h2 : 2 ≤ n) :
    ∃ x y : BitMatrix, matMul n (leadMat n x) (leadMat n y) ≠ matMul n (leadMat n y) (leadMat n x) := by
  refine ⟨unitMatrix 0 1, unitMatrix 1 0, fun h => ?_⟩
  have hxy : productEntry n (unitMatrix 0 1) (unitMatrix 1 0) 0 0 = true := by
    rw [productEntry, xorBelow_single (i := 1) _ (by omega)]
    · simp [entry_unitMatrix]
    · intro k _ hk
      simp [entry_unitMatrix, hk]
  have hyx : productEntry n (unitMatrix 1 0) (unitMatrix 0 1) 0 0 = false := by
    simp [productEntry, entry_unitMatrix]
  have hentry := congrArg (fun m => entry m 0 0) h
  simp only [entry_matMul_lead hn, hxy, hyx, Bool.and_true, Bool.and_false, decide_eq_false_iff_not] at hentry
  omega

/-- Settles O55: the products are those of the matrices over the field of two elements, and two unit matrices do not
commute. -/
theorem matrixProductLaws : Obligations.MatrixProductLaws := by
  refine ⟨fun n x y z v => ⟨?_, ?_, ?_, ?_⟩, fun n => ?_⟩
  · exact matVec_matMul (dimSize_le n) _ _ v
  · exact matMul_assoc (dimSize_le n) _ _ (zeroOutside_leadMat (dimSize_le n) z)
  · exact identity_matMul (dimSize_le n) (zeroOutside_leadMat (dimSize_le n) x)
  · exact matMul_identity (dimSize_le n) (zeroOutside_leadMat (dimSize_le n) x)
  · exact matMul_not_commutative (dimSize_le n) (by cases n <;> decide)

/-! Inverses (40_gf2_matrix.md R69, R73 (d) to (f)). -/

theorem exists_bit_of_leadVec_ne_zero {n : Nat} {v : Vec} (h : leadVec n v ≠ 0) : ∃ j, j < n ∧ v.getLsbD j = true := by
  by_contra hne
  push Not at hne
  refine h (vec_ext fun j _ => ?_)
  by_cases hj : j < n
  · simp [hj, hne j hj]
  · simp [hj]

theorem not_invertible_of_matVec_zero {n : Nat} (hn : n ≤ 256) {x : BitMatrix} {v : Vec} (h0 : leadVec n v ≠ 0)
    (h : matVec n x (leadVec n v) = 0) : ¬ Invertible n x := by
  refine not_invertible_of_kernel (v := fun j => v.getLsbD j) (exists_bit_of_leadVec_ne_zero h0) fun i hi => ?_
  have hbit : applyBit n x v i = false := by
    simpa [matVec_leadVec_getLsbD hn, hi] using congrArg (fun w : Vec => w.getLsbD i) h
  exact hbit

theorem matInverse_eq_none_iff {n : Nat} (hn : n ≤ 256) {x : BitMatrix} :
    matInverse n x = none ↔ ∃ v, leadVec n v ≠ 0 ∧ matVec n x (leadVec n v) = 0 := by
  obtain ⟨y, hsome, hinv, -⟩ | ⟨hnone, v, h0, hlead, hzero⟩ := matInverse_cases n x hn
  · simp only [hsome, reduceCtorEq, false_iff]
    rintro ⟨v, h0, hv⟩
    exact not_invertible_of_matVec_zero hn h0 hv ⟨y, hinv⟩
  · refine iff_of_true hnone ⟨v, by rwa [hlead], vec_ext fun i _ => ?_⟩
    rw [matVec_leadVec_getLsbD hn]
    by_cases hi : i < n
    · simp [hzero i hi]
    · simp [hi]

theorem matInverse_some {n : Nat} (hn : n ≤ 256) {x y : BitMatrix} (h : matInverse n x = some y) :
    ZeroOutside n y ∧ toMatrix n x * toMatrix n y = 1 := by
  obtain ⟨z, hsome, hinv, hz⟩ | ⟨hnone, -⟩ := matInverse_cases n x hn
  · obtain rfl : z = y := Option.some.inj (hsome.symm.trans h)
    exact ⟨hz, (toMatrix_one n x z).mpr fun i j hi hj => (hinv i j hi hj).1⟩
  · rw [hnone] at h
    cases h

/-- Inversion gives the one matrix that is zero outside the leading view and whose product with `x` is the unit. -/
theorem matInverse_eq_some_iff {n : Nat} (hn : n ≤ 256) {x y : BitMatrix} :
    matInverse n x = some y ↔ ZeroOutside n y ∧ toMatrix n x * toMatrix n y = 1 := by
  refine ⟨matInverse_some hn, fun ⟨hy, hxy⟩ => ?_⟩
  cases hs : matInverse n x with
  | none =>
    obtain ⟨v, h0, hv⟩ := (matInverse_eq_none_iff hn).mp hs
    have hinv : IsInverse n x y := isInverse_of_left ((toMatrix_one n y x).mp (mul_eq_one_comm.mp hxy))
    exact absurd ⟨y, hinv⟩ (not_invertible_of_matVec_zero hn h0 hv)
  | some z =>
    obtain ⟨hz, hxz⟩ := matInverse_some hn hs
    rw [eq_of_toMatrix_eq hz hy (left_inv_eq_right_inv (mul_eq_one_comm.mp hxz) hxy)]

theorem matMul_eq_identity {n : Nat} (hn : n ≤ 256) {x y : BitMatrix} (hy : ZeroOutside n y)
    (h : toMatrix n x * toMatrix n y = 1) : matMul n x y = identity n := by
  refine eq_of_toMatrix_eq (zeroOutside_matMul hn _ hy) (zeroOutside_identity hn) ?_
  rw [toMatrix_matMul hn, toMatrix_identity hn, h]

/-- The inverse of a product is the product of the inverses in reverse. -/
theorem matInverse_matMul {n : Nat} (hn : n ≤ 256) {x y x' y' : BitMatrix} (hx : matInverse n x = some x')
    (hy : matInverse n y = some y') : matInverse n (matMul n x y) = some (matMul n y' x') := by
  obtain ⟨hzero, hxx⟩ := matInverse_some hn hx
  obtain ⟨-, hyy⟩ := matInverse_some hn hy
  refine (matInverse_eq_some_iff hn).mpr ⟨zeroOutside_matMul hn _ hzero, ?_⟩
  calc toMatrix n (matMul n x y) * toMatrix n (matMul n y' x')
      = toMatrix n x * (toMatrix n y * toMatrix n y') * toMatrix n x' := by
        simp only [toMatrix_matMul hn, mul_assoc]
    _ = 1 := by rw [hyy, mul_one, hxx]

/-- Settles O56: the inverse is characterised by its product with the matrix, in a ring where a one-sided inverse is
two-sided. -/
theorem matrixInverseLaws : Obligations.MatrixInverseLaws := by
  intro n x y
  have hn := dimSize_le n
  refine ⟨fun z hz => ?_, matInverse_eq_none_iff hn, fun x' y' => matInverse_matMul hn⟩
  have hx := zeroOutside_leadMat hn x
  obtain ⟨hzero, hright⟩ := matInverse_some hn hz
  have hleft := mul_eq_one_comm.mp hright
  exact ⟨matMul_eq_identity hn hzero hright, matMul_eq_identity hn hx hleft,
    (matInverse_eq_some_iff hn).mpr ⟨hx, hleft⟩⟩

/-! The lifting convention (40_gf2_matrix.md R72). -/

theorem leadVec_zero (v : Vec) : leadVec 0 v = 0 := vec_ext fun j _ => by simp

theorem leadVec_succ (k : Nat) (v : Vec) :
    leadVec (k + 1) v = leadVec k v ^^^ (if v.getLsbD k then BitVec.twoPow 256 k else 0) := by
  refine vec_ext fun j hj => ?_
  rw [BitVec.getLsbD_xor, leadVec_getLsbD, leadVec_getLsbD]
  by_cases hjk : j = k
  · subst hjk
    cases hv : v.getLsbD j <;> simp [hj]
  · have hlt : j < k + 1 ↔ j < k := by omega
    cases hv : v.getLsbD k <;> simp [BitVec.getLsbD_twoPow, hlt, Ne.symm hjk]

/-- A linear function of a vector is the XOR of the images of the basis vectors whose bits are 1. -/
theorem linear_leadVec_getLsbD {f : Vec → Vec} (hf : ∀ x y, f (x ^^^ y) = f x ^^^ f y) (v : Vec) (i k : Nat) :
    (f (leadVec k v)).getLsbD i = xorBelow (fun j => (f (BitVec.twoPow 256 j)).getLsbD i && v.getLsbD j) k := by
  have h0 : f 0#256 = 0#256 := by simpa using hf 0#256 0#256
  induction k with
  | zero => simp [leadVec_zero, h0, xorBelow]
  | succ k ih =>
    rw [leadVec_succ, hf, BitVec.getLsbD_xor, ih, xorBelow]
    cases hv : v.getLsbD k <;> simp [h0]

theorem entry_liftMatrix {n : Nat} (hn : n ≤ 256) (f : Vec → Vec) (i j : Nat) :
    entry (liftMatrix n f) i j = (decide (i < n ∧ j < n) && (f (BitVec.twoPow 256 j)).getLsbD i) := by
  rw [liftMatrix, entry_matOfRows]
  by_cases hi : i < n
  · simp [hi, hn, show i < 256 by omega]
  · simp [hi]

/-- Settles O59: bit `i` of both sides is the XOR of the bits `i` of the columns that the vector selects. -/
theorem liftedMatrixAppliesTheFunction : Obligations.LiftedMatrixAppliesTheFunction := by
  intro n f hf v
  have hn := dimSize_le n
  refine vec_ext fun i _ => ?_
  rw [matVec_leadVec_getLsbD hn, leadVec_getLsbD, linear_leadVec_getLsbD hf]
  by_cases hi : i < dimSize n
  · congr 1
    exact xorBelow_congr fun j hj => by simp [entry_liftMatrix hn, hi, hj]
  · simp [hi]

end Sys2Proof.Machine
end

section
/-! SUPPORT. The matrix commands: what each leaves in its destination, its frame and its command word (40_gf2_matrix.md R65 to
R71). -/

namespace Sys2Proof.Machine

open Sys2Proof.Claims

/-! The words of the commands (30_encoding.md R56 to R60). -/

theorem dimCode_eq (n : Dim) : dimCode n = n.code := by
  cases n <;> rfl

theorem mregCode_toNat (r : MReg) : (regCode r).toNat = r.val := regCode_toNat r (by decide)

theorem vregCode_toNat (r : VReg) : (regCode r).toNat = r.val := regCode_toNat r (by decide)

/-- The fields of a command's word, from the row of the encoder for it. -/
theorem fieldsOf_encode {i : Instr} {op : BitVec 8} {n : Dim} {rd rs1 rs2 : BitVec 3} {rnd : BitVec 4} {d s1 s2 : Nat}
    (h : encode i = assembleWord op n.code rd rs1 rs2 rnd) (hd : rd.toNat = d) (h1 : rs1.toNat = s1)
    (h2 : rs2.toNat = s2) : FieldsOf i op (dimCode n) d s1 s2 rnd := by
  obtain ⟨hop, hdim, hrd, hrs1, hrs2, hrnd, hrsv⟩ := assembleWord_fields op n.code rd rs1 rs2 rnd
  rw [← h] at hop hdim hrd hrs1 hrs2 hrnd hrsv
  exact ⟨hop, by rw [hdim, dimCode_eq], by rw [hrd, hd], by rw [hrs1, h1], by rw [hrs2, h2], hrnd, hrsv⟩

theorem illegalWordsRaise (op : BitVec 8) : IllegalWordsRaise op := fun _ _ h => completeCommand_illegal h

/-! Commands with a vector register as their destination (40_gf2_matrix.md R65). -/

theorem inViewV_byte {n : Dim} {k : VReg} {r : RegName} {j : Nat} (h : InViewV n k r j) : j < 32 :=
  lt_of_lt_of_le h.2 (dimBytes_le n)

theorem writeV_frame (d : VReg) (x : Vec) {s : State} {hole : Option (RegName × Nat)}
    (h : RecordKeptOrMade s (recordUnwritten hole s)) :
    RegisterFrame s (complete (writeV d x (recordUnwritten hole s))) (fun k => k = d) fun _ => False where
  completed := ⟨rfl, rfl⟩
  error := ⟨rfl, rfl, rfl⟩
  vectors k hk := by
    have hne : d.val ≠ k.val := fun e => hk (Fin.ext e.symm)
    simp [hne]
  matrices _ _ := ⟨rfl, rfl⟩
  wide := ⟨rfl, rfl, rfl, rfl, rfl, rfl⟩
  flag := rfl
  rest := ⟨rfl, rfl, rfl, rfl, rfl, rfl, fun _ => rfl, h, rfl, rfl, rfl⟩

theorem writeV_holds (d : VReg) {x : Vec} (s : State) {n : Nat} {f : Nat → Bool}
    (h : ∀ i, i < 256 → x.getLsbD i = (decide (i < n) && f i)) : VectorHolds (complete (writeV d x s)) d n f :=
  ⟨by simpa using h, fun j hj => by simp [registerWritten, hj]⟩

/-! What the operations give on the leading views. -/

theorem matVec_lead_getLsbD {n : Nat} (hn : n ≤ 256) (x : BitMatrix) (v : Vec) (i : Nat) :
    (matVec n (leadMat n x) (leadVec n v)).getLsbD i = (decide (i < n) && applyBit n x v i) := by
  rw [matVec_getLsbD _ _ _ _ hn]
  by_cases hi : i < n
  · rw [applyBit_lead n x v hn hi]
  · simp [hi]

theorem leadEqual_readM_iff (n : Dim) (s1 s2 : MReg) (s : State) :
    leadEqual (dimSize n) (readM n s1 s) (readM n s2 s) = true ↔
      ∀ i j, i < dimSize n → j < dimSize n → entry s.m[s1] i j = entry s.m[s2] i j := by
  rw [leadEqual_iff]
  refine forall₄_congr fun i j hi hj => ?_
  simp [readM, dimSize_le n, hi, hj]

/-! The commands. -/

theorem exec_minv_domain {n : Dim} {src : MReg} {s : State} (d : MReg) (h : matInverse (dimSize n) (readM n src s) = none) :
    exec (.minv n d src) s = raise .domain (recordUnwritten (holeM n src s) s) := by
  simp only [exec, execMinv, h]

theorem exec_minv {n : Dim} {src : MReg} {s : State} {y : BitMatrix} (d : MReg)
    (h : matInverse (dimSize n) (readM n src s) = some y) :
    exec (.minv n d src) s = .next (complete (writeM d y (recordUnwritten (holeM n src s) s))) := by
  simp only [exec, execMinv, h, finish]

theorem exec_mapply (n : Dim) (d : VReg) (m : MReg) (src : VReg) (s : State) :
    exec (.mapply n d m src) s = .next (complete (writeV d (matVec (dimSize n) (readM n m s) (readV n src s))
      (recordUnwritten ((holeM n m s).or (holeV n src s)) s))) := rfl

theorem exec_meq (n : Dim) (s1 s2 : MReg) (s : State) :
    exec (.meq n s1 s2) s = .next (complete (setEq (leadEqual (dimSize n) (readM n s1 s) (readM n s2 s))
      (recordUnwritten ((holeM n s1 s).or (holeM n s2 s)) s))) := rfl

/-- MINV of an invertible view (40_gf2_matrix.md R69). -/
theorem exec_minv_invertible {n : Dim} (d : MReg) {src : MReg} {s : State} (h : Invertible (dimSize n) s.m[src]) :
    ∃ t, exec (.minv n d src) s = .next t ∧ IsInverse (dimSize n) s.m[src] t.m[d] ∧
      MatrixHolds t d (dimSize n) (entry t.m[d]) ∧ RegisterFrame s t (fun _ => False) fun k => k = d := by
  obtain ⟨y, hy, hinv, hzero, -⟩ | ⟨-, hnot⟩ := matInverse_lead (dimSize n) s.m[src] (dimSize_le n)
  · have hd : (complete (writeM d y (recordUnwritten (holeM n src s) s))).m[d] = y := by simp
    refine ⟨_, exec_minv d hy, ?_, ?_, writeM_frame d y ((holeM_first n src s).keptOrMade fun _ _ => inViewM_byte)⟩
    · rwa [hd]
    · rw [hd]
      exact writeM_holds d _ fun i j _ _ => ZeroOutside.entry_eq hzero i j
  · exact absurd h hnot

/-- Settles O17: MIDENT writes the identity of its dimension, whose entries `entry_identity` gives. -/
theorem midentLoadsIdentity : Obligations.MidentLoadsIdentity := by
  refine ⟨fun n d s => ⟨_, exec_mident n d s, writeM_holds d s fun i j _ _ => ?_, mident_frame n d s⟩,
    fun n d => fieldsOf_encode rfl (mregCode_toNat d) rfl rfl, illegalWordsRaise _⟩
  rw [entry_identity _ _ _ (dimSize_le n), ← Bool.decide_and, decide_eq_decide]
  omega

/-- Settles O18: the product of the leading views has the entries of R68. -/
theorem mmulMultiplies : Obligations.MmulMultiplies :=
  ⟨fun n d s1 s2 s => ⟨_, exec_mmul n d s1 s2 s,
      writeM_holds d _ fun i j _ _ => entry_matMul_lead (dimSize_le n) s.m[s1] s.m[s2] i j, mmul_frame n d s1 s2 _ s⟩,
    fun n d s1 s2 => fieldsOf_encode rfl (mregCode_toNat d) (mregCode_toNat s1) (mregCode_toNat s2),
    illegalWordsRaise _⟩

/-- Settles O19: inversion of the leading view finds its inverse exactly if there is one. -/
theorem minvInverts : Obligations.MinvInverts := by
  refine ⟨fun n d src s => ⟨exec_minv_invertible d, fun hnot => ?_⟩,
    fun n d src => fieldsOf_encode rfl (mregCode_toNat d) (mregCode_toNat src) rfl, illegalWordsRaise _⟩
  obtain ⟨-, -, -, -, hinv⟩ | ⟨hnone, -⟩ := matInverse_lead (dimSize n) s.m[src] (dimSize_le n)
  · exact absurd hinv hnot
  · exact ⟨_, exec_minv_domain d hnone⟩

/-- Settles O20: the bits of the application to the leading views are those of R70. -/
theorem mapplyApplies : Obligations.MapplyApplies := by
  refine ⟨fun n d m src s => ⟨_, exec_mapply n d m src s, ?_, ?_⟩,
    fun n d m src => fieldsOf_encode rfl (vregCode_toNat d) (mregCode_toNat m) (vregCode_toNat src), illegalWordsRaise _⟩
  · exact writeV_holds d _ fun i _ => matVec_lead_getLsbD (dimSize_le n) s.m[m] s.v[src] i
  · exact writeV_frame d _
      (((holeM_first n m s).or (holeV_first n src s)).keptOrMade fun _ _ => Or.rec inViewM_byte inViewV_byte)

/-- Settles O21: EQ is the comparison of the leading views, and neither MEQ nor the end of an illegal word writes more than
R71 says. -/
theorem meqCompares : Obligations.MeqCompares := by
  refine ⟨fun n s1 s2 s => ⟨_, exec_meq n s1 s2 s, leadEqual_readM_iff n s1 s2 s, ⟨rfl, rfl⟩, ⟨rfl, rfl, rfl⟩,
      fun _ _ => ⟨rfl, rfl⟩, fun _ _ => ⟨rfl, rfl⟩, ⟨rfl, rfl, rfl, rfl, rfl, rfl⟩, ?_⟩,
    fun n s1 s2 => fieldsOf_encode rfl rfl (mregCode_toNat s1) (mregCode_toNat s2), illegalWordsRaise _, fun s t h => ?_⟩
  · have hrecord := ((holeM_first n s1 s).or (holeM_first n s2 s)).keptOrMade fun _ _ => Or.rec inViewM_byte inViewM_byte
    exact ⟨rfl, rfl, rfl, rfl, rfl, rfl, fun _ => rfl, hrecord, rfl, rfl, rfl⟩
  · rw [raise_eq] at h
    obtain rfl := Host.Outcome.next.inj h
    rfl

end Sys2Proof.Machine
end

section
/-! SUPPORT. The affine commands: what each leaves in its destinations, its frame and its command word, and what applying a
composition, an inverse and a banded map gives (41_affine.md). -/

namespace Sys2Proof.Machine

open Sys2Proof.Claims

/-! The words of the commands: they have no form of dimension 128 (30_encoding.md R58, R59). -/

/-- An opcode whose row of the opcode map lists the dimensions 8 and 256 only has no legal word of dimension 128. -/
theorem completeCommand_affine_d128 {row : OpRow} {s : State}
    (hrow : opMap.find? (fun r => r.op == opField s.pend) = some row)
    (hdims : row.dims = [0b00, 0b10]) (hdim : dimField s.pend = 0b01) : completeCommand s = raise .illegal s := by
  refine completeCommand_illegal ?_
  simp [legalWord, hrow, OpRow.legal, hdims, hdim]

/-! Commands with an affine register as their destination (10_state.md R17, 40_gf2_matrix.md R65). -/

theorem inViewA_byte {n : Dim} {k : AReg} {r : RegName} {j : Nat} (h : InViewA n k r j) : j < 32 :=
  Or.elim h inViewM_byte inViewV_byte

@[simp] theorem writeA_m (d : AReg) (l : BitMatrix) (c : Vec) (s : State) : (writeA d l c s).m[d] = l := by
  simp [writeA]

@[simp] theorem writeA_bias (d : AReg) (l : BitMatrix) (c : Vec) (s : State) : (writeA d l c s).v[biasReg d] = c := by
  simp [writeA]

theorem writeA_frame (d : AReg) (l : BitMatrix) (c : Vec) {s : State} {hole : Option (RegName × Nat)}
    (h : RecordKeptOrMade s (recordUnwritten hole s)) :
    RegisterFrame s (complete (writeA d l c (recordUnwritten hole s))) (fun k => k = biasReg d) fun k => k = d where
  completed := ⟨rfl, rfl⟩
  error := ⟨rfl, rfl, rfl⟩
  vectors := (writeV_frame (biasReg d) c h).vectors
  matrices := (writeM_frame d l h).matrices
  wide := ⟨rfl, rfl, rfl, rfl, rfl, rfl⟩
  flag := rfl
  rest := ⟨rfl, rfl, rfl, rfl, rfl, rfl, fun _ => rfl, h, rfl, rfl, rfl⟩

/-- The bias is not a byte of the matrix register, so what `writeM_holds` says of the matrix stays. -/
theorem writeA_matrixHolds (d : AReg) {l : BitMatrix} (c : Vec) (s : State) {n : Nat} {f : Nat → Nat → Bool}
    (h : ∀ i j, i < 256 → j < 256 → entry l i j = (decide (i < n ∧ j < n) && f i j)) :
    MatrixHolds (complete (writeA d l c s)) d n f :=
  writeM_holds d s h

theorem writeA_vectorHolds (d : AReg) (l : BitMatrix) {c : Vec} (s : State) {n : Nat} {f : Nat → Bool}
    (h : ∀ i, i < 256 → c.getLsbD i = (decide (i < n) && f i)) :
    VectorHolds (complete (writeA d l c s)) (biasReg d) n f :=
  writeV_holds (biasReg d) (writeM d l s) h

/-! What the operations give on the leading views (00_scope.md R10). -/

theorem affineApply_lead_getLsbD {n : Nat} (hn : n ≤ 256) (l : BitMatrix) (c x : Vec) (i : Nat) :
    (affineApply n (leadMat n l) (leadVec n c) (leadVec n x)).getLsbD i =
      (decide (i < n) && (applyBit n l x i ^^ c.getLsbD i)) := by
  rw [affineApply, BitVec.getLsbD_xor, matVec_lead_getLsbD hn, leadVec_getLsbD, Bool.and_xor_distrib_left]

/-! The commands. -/

theorem exec_aapply {n : Dim} (d : VReg) (a : AReg) (src : VReg) (s : State) (hn : n.affine = true) :
    exec (.aapply n d a src) s = .next (complete (writeV d
      (affineApply (dimSize n) (readM n a s) (readV n (biasReg a) s) (readV n src s))
      (recordUnwritten ((holeA n a s).or (holeV n src s)) s))) := by
  simp only [exec, execAapply, readA, hn, requireLegal_true, finish]

theorem exec_acomp {n : Dim} (d s1 s2 : AReg) (s : State) (hn : n.affine = true) :
    exec (.acomp n d s1 s2) s = .next (complete (writeA d (matMul (dimSize n) (readM n s1 s) (readM n s2 s))
      (affineApply (dimSize n) (readM n s1 s) (readV n (biasReg s1) s) (readV n (biasReg s2) s))
      (recordUnwritten ((holeA n s1 s).or (holeA n s2 s)) s))) := by
  simp only [exec, execAcomp, readA, hn, requireLegal_true, finish]

theorem exec_ainv {n : Dim} (d : AReg) {src : AReg} {s : State} {li : BitMatrix} (hn : n.affine = true)
    (h : matInverse (dimSize n) (readM n src s) = some li) :
    exec (.ainv n d src) s = .next (complete (writeA d li (matVec (dimSize n) li (readV n (biasReg src) s))
      (recordUnwritten (holeA n src s) s))) := by
  simp only [exec, execAinv, readA, hn, requireLegal_true, h, finish]

theorem exec_ainv_domain {n : Dim} (d : AReg) {src : AReg} {s : State} (hn : n.affine = true)
    (h : matInverse (dimSize n) (readM n src s) = none) :
    exec (.ainv n d src) s = raise .domain (recordUnwritten (holeA n src s) s) := by
  simp only [exec, execAinv, readA, hn, requireLegal_true, h]

/-- AINV of an invertible view (41_affine.md R76). -/
theorem exec_ainv_invertible {n : Dim} (d : AReg) {src : AReg} {s : State} (hn : n.affine = true)
    (h : Invertible (dimSize n) s.m[src]) :
    ∃ t, exec (.ainv n d src) s = .next t ∧ IsInverse (dimSize n) s.m[src] t.m[d] ∧
      MatrixHolds t d (dimSize n) (entry t.m[d]) ∧
      VectorHolds t (biasReg d) (dimSize n) (applyBit (dimSize n) t.m[d] s.v[biasReg src]) ∧
      RegisterFrame s t (fun k => k = biasReg d) fun k => k = d := by
  obtain ⟨li, hli, hinv, hzero, -⟩ | ⟨-, hnot⟩ := matInverse_lead (dimSize n) s.m[src] (dimSize_le n)
  · refine ⟨_, exec_ainv d hn hli, ?_, ?_, ?_,
      writeA_frame d _ _ ((holeA_first n src s).keptOrMade fun _ _ => inViewA_byte)⟩ <;>
      rw [complete_m, writeA_m]
    · exact hinv
    · exact writeA_matrixHolds d _ _ fun i j _ _ => ZeroOutside.entry_eq hzero i j
    · exact writeA_vectorHolds d _ _ fun i _ => matVec_leadVec_getLsbD (dimSize_le n) li s.v[biasReg src] i
  · exact absurd h hnot

/-- Settles O22: the bits of the affine map of the leading views are those of R74. -/
theorem aapplyApplies : Obligations.AapplyApplies := by
  refine ⟨fun n d a src s hn => ⟨_, exec_aapply d a src s hn, ?_, ?_⟩,
    fun n d a src => fieldsOf_encode rfl (vregCode_toNat d) (mregCode_toNat a) (vregCode_toNat src), illegalWordsRaise _,
    fun s hop => completeCommand_affine_d128 (by rw [hop]; rfl) rfl⟩
  · exact writeV_holds d _ fun i _ => affineApply_lead_getLsbD (dimSize_le n) s.m[a] s.v[biasReg a] s.v[src] i
  · exact writeV_frame d _
      (((holeA_first n a s).or (holeV_first n src s)).keptOrMade fun _ _ => Or.rec inViewA_byte inViewV_byte)

/-- Settles O23: the product of the linear parts, and the outer map applied to the inner bias. -/
theorem acompComposes : Obligations.AcompComposes := by
  refine ⟨fun n d s1 s2 s hn => ⟨_, exec_acomp d s1 s2 s hn, ?_, ?_, ?_⟩,
    fun n d s1 s2 => fieldsOf_encode rfl (mregCode_toNat d) (mregCode_toNat s1) (mregCode_toNat s2), illegalWordsRaise _,
    fun s hop => completeCommand_affine_d128 (by rw [hop]; rfl) rfl⟩
  · exact writeA_matrixHolds d _ _ fun i j _ _ => entry_matMul_lead (dimSize_le n) s.m[s1] s.m[s2] i j
  · exact writeA_vectorHolds d _ _ fun i _ =>
      affineApply_lead_getLsbD (dimSize_le n) s.m[s1] s.v[biasReg s1] s.v[biasReg s2] i
  · exact writeA_frame d _ _
      (((holeA_first n s1 s).or (holeA_first n s2 s)).keptOrMade fun _ _ => Or.rec inViewA_byte inViewA_byte)

/-- Settles O24: inversion of the leading view finds its inverse exactly if there is one. -/
theorem ainvInverts : Obligations.AinvInverts := by
  refine ⟨fun n d src s hn => ⟨exec_ainv_invertible d hn, fun hnot => ?_⟩,
    fun n d src => fieldsOf_encode rfl (mregCode_toNat d) (mregCode_toNat src) rfl, illegalWordsRaise _,
    fun s hop => completeCommand_affine_d128 (by rw [hop]; rfl) rfl⟩
  obtain ⟨-, -, -, -, hinv⟩ | ⟨hnone, -⟩ := matInverse_lead (dimSize n) s.m[src] (dimSize_le n)
  · exact absurd hinv hnot
  · exact ⟨_, exec_ainv_domain d hn hnone⟩

/-! Composition and inversion of affine maps (41_affine.md R75, R79). -/

theorem matVec_xor {n : Nat} (hn : n ≤ 256) (x : BitMatrix) (v w : Vec) :
    matVec n x (v ^^^ w) = matVec n x v ^^^ matVec n x w := by
  refine vec_ext fun i _ => ?_
  have hbit : applyBit 256 x (v ^^^ w) i = (applyBit 256 x v i ^^ applyBit 256 x w i) := by
    simp only [applyBit, BitVec.getLsbD_xor, Bool.and_xor_distrib_left, xorBelow_xor]
  simp only [BitVec.getLsbD_xor, matVec_getLsbD _ _ _ _ hn, hbit, Bool.and_xor_distrib_left]

theorem matVec_identity {n : Nat} (hn : n ≤ 256) (v : Vec) : matVec n (identity n) (leadVec n v) = leadVec n v := by
  refine vec_ext fun i _ => ?_
  rw [matVec_leadVec_getLsbD hn, leadVec_getLsbD]
  by_cases hi : i < n
  · rw [applyBit, xorBelow_single _ hi]
    · simp [hn, hi]
    · intro j _ hne
      simp [hn, hne.symm]
  · simp [hi]

/-- The composition of two affine maps applies the inner one first. -/
theorem affineApply_matMul {n : Nat} (hn : n ≤ 256) (l l' : BitMatrix) (c c' x : Vec) :
    affineApply n (matMul n l l') (affineApply n l c c') (leadVec n x) =
      affineApply n l c (affineApply n l' c' (leadVec n x)) := by
  simp only [affineApply, matVec_matMul hn, matVec_xor hn, BitVec.xor_assoc]

/-- If the composition of two maps has the linear part `I_n` and the bias 0, the outer undoes the inner. -/
theorem affineApply_undoes {n : Nat} (hn : n ≤ 256) {l l' : BitMatrix} {c c' : Vec} (hl : matMul n l l' = identity n)
    (hc : affineApply n l c c' = 0) (x : Vec) : affineApply n l c (affineApply n l' c' (leadVec n x)) = leadVec n x := by
  rw [← affineApply_matMul hn, hl, hc, affineApply, matVec_identity hn]
  exact BitVec.xor_zero

/-- Settles O58: ACOMP leaves the composition. -/
theorem compositionAppliesInnerFirst : Obligations.CompositionAppliesInnerFirst := by
  intro n d s1 s2 s hn
  refine ⟨_, exec_acomp d s1 s2 s hn, fun x => ?_⟩
  rw [complete_m, complete_v, writeA_m, writeA_bias]
  exact affineApply_matMul (dimSize_le n) _ _ _ _ x

/-- Settles O57: both compositions of the map with the one AINV leaves have the linear part `I_n` and the bias 0. -/
theorem affineInverseUndoes : Obligations.AffineInverseUndoes := by
  intro n d src s hn h
  have hle := dimSize_le n
  obtain ⟨li, hli, -⟩ | ⟨-, hnot⟩ := matInverse_lead (dimSize n) s.m[src] hle
  · obtain ⟨hzero, hone⟩ := matInverse_some hle hli
    have hleft := matMul_eq_identity hle (zeroOutside_leadMat hle _) (mul_eq_one_comm.mp hone)
    have hright := matMul_eq_identity hle hzero hone
    refine ⟨_, exec_ainv d hn hli, fun x => ?_⟩
    rw [complete_m, complete_v, writeA_m, writeA_bias]
    refine ⟨affineApply_undoes hle hleft BitVec.xor_self x, affineApply_undoes hle hright ?_ x⟩
    rw [affineApply, readV, ← matVec_matMul hle, hright, matVec_identity hle]
    exact BitVec.xor_self
  · exact absurd h hnot

/-! The sparse unsplit form (41_affine.md R77). -/

theorem xorBelow_add (f : Nat → Bool) (a b : Nat) :
    xorBelow f (a + b) = (xorBelow f a ^^ xorBelow (fun i => f (a + i)) b) := by
  induction b with
  | zero => simp [xorBelow]
  | succ b ih => rw [← Nat.add_assoc, xorBelow, xorBelow, ih, Bool.xor_assoc]

/-- A sum over bits, byte by byte. -/
theorem xorBelow_bytes (f : Nat → Bool) (k : Nat) :
    xorBelow f (8 * k) = xorBelow (fun q => xorBelow (fun b => f (8 * q + b)) 8) k := by
  induction k with
  | zero => rfl
  | succ k ih =>
    rw [Nat.mul_succ, xorBelow_add, ih]
    rfl

/-- A sum whose only possibly non-zero terms are the terms `i` and `j`. -/
theorem xorBelow_pair (f : Nat → Bool) {i j k : Nat} (hi : i < k) (hj : j < k) (hij : i ≠ j)
    (h : ∀ m, m < k → m ≠ i → m ≠ j → f m = false) : xorBelow f k = (f i ^^ f j) := by
  have hsplit : ∀ m, m < k → f m = ((decide (m = i) && f m) ^^ (decide (m = j) && f m)) := fun m hm => by
    by_cases hmi : m = i
    · simp [hmi, hij]
    · by_cases hmj : m = j
      · simp [hmj, hij.symm]
      · simp [hmi, hmj, h m hm hmi hmj]
  rw [xorBelow_congr hsplit, xorBelow_xor, xorBelow_single _ hi fun m _ hm => by simp [hm],
    xorBelow_single _ hj fun m _ hm => by simp [hm]]
  simp

theorem entry_blockOf (l : BitMatrix) (p q : Nat) {a : Nat} (b : Nat) (ha : a < 8) :
    entry (blockOf l p q) a b = (decide (b < 8) && entry l (8 * p + a) (8 * q + b)) := by
  rw [blockOf, entry_matOfRows, if_pos ha, BitVec.getLsbD_setWidth, byteOf_getLsbD, decide_eq_true (by omega : a < 256),
    entry]
  by_cases hb : b < 8
  · simp [hb, show b < 256 by omega]
  · simp [hb]

/-- Bit `a` of block `(p, q)` applied to byte `q` of `x`. -/
def blockBit (l : BitMatrix) (x : Vec) (p q a : Nat) : Bool :=
  applyBit 8 (blockOf l p q) ((byteOf x q).setWidth 256) a

theorem byteOf_matVec_blockOf (l : BitMatrix) (x : Vec) (p q : Nat) {a : Nat} (ha : a < 8) :
    (byteOf (matVec 8 (blockOf l p q) ((byteOf x q).setWidth 256)) 0).getLsbD a = blockBit l x p q a := by
  have hlead : leadVec 8 ((byteOf x q).setWidth 256) = (byteOf x q).setWidth 256 := vec_ext fun j _ => by
    by_cases hj : j < 8 <;> simp [hj]
  rw [byteOf_getLsbD, Nat.mul_zero, Nat.zero_add, ← hlead, matVec_leadVec_getLsbD (by omega), decide_eq_true ha]
  simp [blockBit]

/-- Bit `a` of byte `p` of `L·x` is the XOR over the blocks of row `p`. -/
theorem applyBit_eq_blocks (l : BitMatrix) (x : Vec) (p : Nat) {a : Nat} (ha : a < 8) :
    applyBit 256 l x (8 * p + a) = xorBelow (fun q => blockBit l x p q a) 32 := by
  refine (xorBelow_bytes _ 32).trans (xorBelow_congr fun q _ => xorBelow_congr fun b hb => ?_)
  rw [entry_blockOf l p q b ha, BitVec.getLsbD_setWidth, byteOf_getLsbD, decide_eq_true hb,
    decide_eq_true (by omega : b < 256), Bool.true_and, Bool.true_and, Bool.true_and]

theorem Banded.blockBit_eq_false {l : BitMatrix} (h : Banded l) (x : Vec) {p q a : Nat} (hp : p < 32) (hq : q < 32)
    (hdiag : q ≠ p) (hsuper : q ≠ (p + 1) % 32) (ha : a < 8) : blockBit l x p q a = false := by
  rw [blockBit, applyBit, xorBelow_congr (g := fun _ => false), xorBelow_false]
  intro b hb
  rw [h p q hp hq hdiag hsuper a b ha hb, Bool.false_and]

/-- Byte `p` under a banded linear part (41_affine.md R77). -/
theorem Banded.byteOf_affineApply {l : BitMatrix} (h : Banded l) (c x : Vec) {p : Nat} (hp : p < 32) :
    byteOf (affineApply 256 l c x) p =
      byteOf (matVec 8 (blockOf l p p) ((byteOf x p).setWidth 256)) 0 ^^^
      byteOf (matVec 8 (blockOf l p ((p + 1) % 32)) ((byteOf x ((p + 1) % 32)).setWidth 256)) 0 ^^^ byteOf c p := by
  refine BitVec.eq_of_getLsbD_eq fun a ha => ?_
  have hband : applyBit 256 l x (8 * p + a) = (blockBit l x p p a ^^ blockBit l x p ((p + 1) % 32) a) := by
    rw [applyBit_eq_blocks l x p ha]
    exact xorBelow_pair _ hp (Nat.mod_lt _ (by omega)) (by omega) fun q hq hdiag hsuper =>
      h.blockBit_eq_false x hp hq hdiag hsuper ha
  rw [BitVec.getLsbD_xor, BitVec.getLsbD_xor, byteOf_matVec_blockOf l x p p ha, byteOf_matVec_blockOf l x p _ ha, ← hband,
    byteOf_getLsbD, byteOf_getLsbD, affineApply_getLsbD _ _ _ _ _ (le_refl _), decide_eq_true ha,
    decide_eq_true (by omega : 8 * p + a < 256), Bool.true_and, Bool.true_and, Bool.true_and]

/-- Settles O60: the dependence on two bytes is read off the formula. -/
theorem sparseByteDependsOnTwoBytes : Obligations.SparseByteDependsOnTwoBytes := by
  intro l c p h hp
  refine ⟨fun x => h.byteOf_affineApply c x hp, fun x y hxy hxy' => ?_⟩
  rw [h.byteOf_affineApply c x hp, h.byteOf_affineApply c y hp, hxy, hxy']

end Sys2Proof.Machine
end

section
/-! SUPPORT. NOP and the evaluator commands: their words, what each leaves where the bytes it reads were written, and the
stage commands one after another (42_evaluator.md R82 to R87). -/

namespace Sys2Proof.Machine

open Sys2Proof.Claims

/-! The words of the commands (30_encoding.md R58, R59). -/

/-- A command that has its opcode to itself is the only command of it. -/
theorem eq_of_opField_eq {i j : Instr} (hi : i ∈ [Instr.nop, .eval, .evalFin, .evalFout])
    (h : opField (encode j) = opField (encode i)) : j = i := by
  simp only [List.mem_cons, List.not_mem_nil, or_false] at hi
  obtain rfl | rfl | rfl | rfl := hi
  all_goals cases j <;> simp [encode] at h ⊢

/-- Under such an opcode every word but the command's own is illegal. -/
theorem completeCommand_otherWord {i : Instr} {s : State} (hi : i ∈ [Instr.nop, .eval, .evalFin, .evalFout])
    (hop : opField s.pend = opField (encode i)) (hne : s.pend ≠ encode i) : completeCommand s = raise .illegal s := by
  refine completeCommand_illegal (Bool.eq_false_iff.mpr fun hlegal => ?_)
  obtain ⟨j, -, hj⟩ := legalWord_iff.mp hlegal
  rw [← hj] at hop hne
  exact hne (congrArg encode (eq_of_opField_eq hi hop))

theorem encode_evalRound (r : BitVec 4) : encode (.evalRound r) = 0x32000000 ||| (r.setWidth 32 <<< 9) := by
  revert r
  decide

theorem roundLegal_iff {r : BitVec 4} : roundLegal r = true ↔ 1 ≤ r.toNat ∧ r.toNat ≤ 10 := decide_eq_true_iff

theorem completeCommand_evalRound_illegal {s : State} (hop : opField s.pend = 0x32)
    (hr : roundLegal (rndField s.pend) = false) : completeCommand s = raise .illegal s := by
  refine completeCommand_illegal ?_
  simp [legalWord, opMap, hop, OpRow.legal, hr]

/-! What the commands leave unchanged. -/

/-- The frame lets BUF, IN, ACC and their marks be anything. -/
theorem evaluatorFrame (s : State) (x b a : Vec) (mx mb ma : ByteMarks) :
    EvaluatorFrame s (complete { recordUnwritten (holeBuf s) s with
      buf := x, inp := b, acc := a, marks := { s.marks with buf := mx, inp := mb, acc := ma } }) where
  completed := ⟨rfl, rfl⟩
  error := ⟨rfl, rfl, rfl⟩
  vectors _ _ := ⟨rfl, rfl⟩
  matrices _ _ := ⟨rfl, rfl⟩
  flag := rfl
  rest := ⟨rfl, rfl, rfl, rfl, rfl, rfl, fun _ => rfl, (holeBuf_first s).keptOrMade fun _ _ h => h.2, rfl, rfl, rfl⟩

theorem bufWritten_writeBuf (x : Vec) (s : State) : BufWritten (complete (writeBuf x s)) := fun j hj => by
  simp [registerWritten, hj]

theorem snapshotWritten (x a b : Vec) (s : State) :
    SnapshotWritten (complete (writeBuf x (writeAcc a (writeIn b s)))) := fun j hj => by
  simp [registerWritten, hj]

/-! The stages. -/

/-- The state after the rounds `1..k`, with BUF written whole before them. -/
def afterRounds : Nat → State → State
  | 0, s => s
  | k + 1, s =>
    writeBuf (roundsXor (tableEntry s.store) (k + 1) s.buf) (writeAcc (roundsXor (tableEntry s.store) (k + 1) s.buf)
      (writeIn (roundsXor (tableEntry s.store) k s.buf) s))

@[simp] theorem afterRounds_buf (k : Nat) (s : State) :
    (afterRounds k s).buf = roundsXor (tableEntry s.store) k s.buf := by
  cases k <;> rfl

@[simp] theorem afterRounds_store (k : Nat) (s : State) : (afterRounds k s).store = s.store := by
  cases k <;> rfl

theorem holeBuf_afterRounds (k : Nat) {s : State} (h : holeBuf s = none) : holeBuf (afterRounds k s) = none := by
  cases k with
  | zero => exact h
  | succ k => exact holeBuf_writeBuf _ _

/-- A round overwrites what the round before it left in BUF, IN and ACC. -/
theorem roundStages_of_written {s : State} {k : Nat} (hs : holeBuf s = none)
    (h : ∀ r, r < k → RoundWritten s.store (r + 1) (roundsXor (tableEntry s.store) r s.buf)) :
    roundStages k s = .ok (afterRounds k s) := by
  induction k with
  | zero => rfl
  | succ k ih =>
    have hround : RoundWritten (afterRounds k s).store (k + 1) (afterRounds k s).buf := by simpa using h k (by omega)
    rw [roundStages_succ, ih fun r hr => h r (by omega)]
    simp only [roundStage_of_written hround, holeBuf_afterRounds k hs, recordUnwritten_none, afterRounds_buf,
      afterRounds_store]
    cases k <;> rfl

/-- The state after `F_in`. -/
def afterFin (s : State) : State :=
  writeBuf (applyEncoding s.store Config.finL Config.finC s.buf) (recordUnwritten (holeBuf s) s)

theorem finStage_of_written {s : State} (h : EncodingWritten s.store Config.finL Config.finC) :
    finStage s = .ok (afterFin s) := encodeBuf_of_written h

/-- `F_in` and then the rounds `1..k`. -/
def finRounds (k : Nat) (s : State) : Except Fault State := finStage s >>= roundStages k

theorem finRounds_of_written {s : State} {k : Nat} (hfin : EncodingWritten s.store Config.finL Config.finC)
    (h : ∀ r, r < k → RoundWritten s.store (r + 1)
      (roundsXor (tableEntry s.store) r (applyEncoding s.store Config.finL Config.finC s.buf))) :
    finRounds k s = .ok (afterRounds k (afterFin s)) := by
  rw [finRounds, finStage_of_written hfin]
  exact roundStages_of_written (holeBuf_writeBuf _ _) h

theorem evalStages_eq (s : State) : evalStages s = finRounds 10 s >>= foutStage := (bind_assoc ..).symm

theorem foutStage_of_written {s : State} (hp : s.outPresent = true)
    (h : EncodingWritten s.store Config.foutL Config.foutC) :
    foutStage s = .ok (writeBuf (applyEncoding s.store Config.foutL Config.foutC s.buf)
      (recordUnwritten (holeBuf s) s)) := by
  rw [foutStage, if_pos hp, encodeBuf_of_written h]

theorem foutStage_absent {s : State} (hp : s.outPresent = false) : foutStage s = .ok s := by
  rw [foutStage, if_neg (by simp [hp])]

/-! The commands. -/

theorem exec_evalFin {s : State} (h : EncodingWritten s.store Config.finL Config.finC) :
    exec .evalFin s = .next (complete (afterFin s)) := by
  simp only [exec, execEvalFin, finStage_of_written h, operand_ok, finish]

theorem exec_evalRound {r : BitVec 4} {s : State} (hr : roundLegal r = true) (h : RoundWritten s.store r.toNat s.buf) :
    exec (.evalRound r) s = .next (complete (writeBuf (roundXor (tableEntry s.store) r.toNat s.buf)
      (writeAcc (roundXor (tableEntry s.store) r.toNat s.buf) (writeIn s.buf (recordUnwritten (holeBuf s) s))))) := by
  simp only [exec, execEvalRound, hr, requireLegal_true, roundStage_of_written h, operand_ok, finish]

theorem exec_evalFout {s : State} (hp : s.outPresent = true) (h : EncodingWritten s.store Config.foutL Config.foutC) :
    exec .evalFout s = .next (complete (writeBuf (applyEncoding s.store Config.foutL Config.foutC s.buf)
      (recordUnwritten (holeBuf s) s))) := by
  simp only [exec, execEvalFout, foutStage_of_written hp h, operand_ok, finish]

theorem exec_evalFout_absent {s : State} (hp : s.outPresent = false) : exec .evalFout s = .next (complete s) := by
  simp only [exec, execEvalFout, foutStage_absent hp, operand_ok, finish]

/-- What EVAL gives after the rounds `1..k` (42_evaluator.md R86). -/
def evalValue (s : State) (k : Nat) : Vec :=
  roundsXor (tableEntry s.store) k (applyEncoding s.store Config.finL Config.finC s.buf)

/-- What EVAL leaves in BUF (42_evaluator.md R86). -/
def evalResult (s : State) : Vec :=
  if s.outPresent then applyEncoding s.store Config.foutL Config.foutC (evalValue s 10) else evalValue s 10

theorem exec_eval {s : State} (h : StoreReadsWritten .eval s) :
    exec .eval s = .next (complete (writeBuf (evalResult s) (writeAcc (evalValue s 10)
      (writeIn (evalValue s 9) (recordUnwritten (holeBuf s) s))))) := by
  obtain ⟨hfin, hrounds, hfout⟩ := h
  simp only [exec, execEval, evalStages_eq, finRounds_of_written hfin hrounds, evalResult]
  cases hp : s.outPresent with
  | true =>
    have hbuf : holeBuf (afterRounds 10 (afterFin s)) = none := holeBuf_afterRounds 10 (holeBuf_writeBuf _ _)
    have hout := foutStage_of_written (s := afterRounds 10 (afterFin s)) hp (hfout hp)
    rw [hbuf, recordUnwritten_none] at hout
    exact congrArg (operand · finish) hout
  | false => exact congrArg (operand · finish) (foutStage_absent (s := afterRounds 10 (afterFin s)) hp)

/-- Settles O25: NOP is the completion alone, and has opcode 0x00 to itself. -/
theorem nopOnlyCompletes : Obligations.NopOnlyCompletes :=
  ⟨fun _ => rfl, rfl, fun _ hop hne => completeCommand_otherWord (i := .nop) (by simp) hop hne⟩

/-- Settles O26: the stage of `F_in` writes BUF only. -/
theorem evalFinAppliesInputEncoding : Obligations.EvalFinAppliesInputEncoding :=
  ⟨fun s h => ⟨_, exec_evalFin h, rfl, bufWritten_writeBuf _ _, rfl, rfl, rfl, rfl, evaluatorFrame s ..⟩, rfl,
    fun _ hop hne => completeCommand_otherWord (i := .evalFin) (by simp) hop hne⟩

/-- Settles O27: the 32 lookups are folded into the XOR of their entries, and the decoder refuses the other round numbers. -/
theorem evalRoundXorsItsTables : Obligations.EvalRoundXorsItsTables := by
  refine ⟨fun r s h1 h10 h => ⟨_, exec_evalRound (roundLegal_iff.mpr ⟨h1, h10⟩) h, rfl, rfl, rfl,
      bufWritten_writeBuf _ _, snapshotWritten _ _ _ _, evaluatorFrame s ..⟩,
    encode_evalRound, illegalWordsRaise _, fun s hop hr => completeCommand_evalRound_illegal hop ?_⟩
  rw [Bool.eq_false_iff, ne_eq, roundLegal_iff]
  obtain hr | hr := hr
  · simp [hr]
  · omega

/-- Settles O28: the stage of `F_out` writes BUF only, and is no stage at all without an output encoding. -/
theorem evalFoutAppliesOutputEncoding : Obligations.EvalFoutAppliesOutputEncoding :=
  ⟨fun s hp h => ⟨_, exec_evalFout hp h, rfl, bufWritten_writeBuf _ _, rfl, rfl, rfl, rfl, evaluatorFrame s ..⟩,
    fun _ hp => exec_evalFout_absent hp, rfl,
    fun _ hop hne => completeCommand_otherWord (i := .evalFout) (by simp) hop hne⟩

/-- Settles O29: round by round, each stage reads the BUF that the stage before it wrote. -/
theorem evalRunsTheProcedure : Obligations.EvalRunsTheProcedure :=
  ⟨fun s hfin hfout hrounds => ⟨_, exec_eval ⟨hfin, hrounds, hfout⟩, rfl, rfl, rfl, bufWritten_writeBuf _ _,
      snapshotWritten _ _ _ _, evaluatorFrame s ..⟩, rfl,
    fun _ hop hne => completeCommand_otherWord (i := .eval) (by simp) hop hne⟩

/-! The stage commands one after another (42_evaluator.md R87). -/

/-- The stage neither reads nor writes BUSY and DONE, which a completion before it sets. -/
def CommutesWithCompletion (f : State → Except Fault State) : Prop := ∀ s, f (complete s) = (f s).map complete

theorem encodeBuf_complete (l c : Nat) : CommutesWithCompletion (encodeBuf l c) := fun s => by
  unfold encodeBuf
  rw [complete_store]
  cases readEncoding s.store l c <;> rfl

theorem finStage_complete : CommutesWithCompletion finStage := encodeBuf_complete _ _

theorem roundStage_complete (r : Nat) : CommutesWithCompletion (roundStage r) := fun s => by
  unfold roundStage
  rw [complete_store, complete_buf]
  cases xorEntries (memVec s.store) (roundAddrs r s.buf) 0 <;> rfl

theorem foutStage_complete : CommutesWithCompletion foutStage := fun s => by
  unfold foutStage
  rw [complete_outPresent]
  cases s.outPresent with
  | true => exact encodeBuf_complete _ _ s
  | false => rfl

/-- The commands run the stage `f`, with a completion only after it. -/
def RunsStage (is : List Instr) (f : State → Except Fault State) : Prop := ∀ s, runCommands is s = operand (f s) finish

theorem runsStage_single {i : Instr} {f : State → Except Fault State}
    (h : ∀ s, exec i s = operand (f s) finish) : RunsStage [i] f := by
  intro s
  simp only [runCommands, h]
  cases f s <;> rfl

theorem runCommands_append (is js : List Instr) (s : State) :
    runCommands (is ++ js) s =
      match runCommands is s with
      | .next t => runCommands js t
      | .fault f => .fault f
      | .refused r => .refused r := by
  induction is generalizing s with
  | nil => rfl
  | cons i is ih =>
    simp only [List.cons_append, runCommands]
    cases exec i s with
    | next t => exact ih t
    | fault f => rfl
    | refused r => rfl

/-- Two stages one after the other: the completion between them is overwritten by the one at the end. -/
theorem RunsStage.append {is js : List Instr} {f g : State → Except Fault State} (hf : RunsStage is f)
    (hg : RunsStage js g) (hc : CommutesWithCompletion g) : RunsStage (is ++ js) fun s => f s >>= g := by
  intro s
  rw [runCommands_append, hf s]
  cases hs : f s with
  | error e => simp only [hs, operand_error, bind, Except.bind]
  | ok t =>
    simp only [hs, operand_ok, finish, hg (complete t), hc t, bind, Except.bind]
    cases g t <;> rfl

/-- The stage commands of the rounds `1..k`. -/
def roundCommands (k : Nat) : List Instr := (List.range k).map fun r => .evalRound (BitVec.ofNat 4 (r + 1))

theorem roundCommands_succ (k : Nat) : roundCommands (k + 1) = roundCommands k ++ [.evalRound (BitVec.ofNat 4 (k + 1))] := by
  simp [roundCommands, List.range_succ]

theorem runsStage_evalRound {k : Nat} (hk : k < 10) :
    RunsStage [.evalRound (BitVec.ofNat 4 (k + 1))] (roundStage (k + 1)) := by
  refine runsStage_single fun s => ?_
  have hnum : (BitVec.ofNat 4 (k + 1)).toNat = k + 1 := by
    rw [BitVec.toNat_ofNat]
    omega
  have hlegal : roundLegal (BitVec.ofNat 4 (k + 1)) = true := roundLegal_iff.mpr (by omega)
  simp only [exec, execEvalRound, hlegal, requireLegal_true, hnum]

theorem runsStage_finRounds {k : Nat} (hk : k ≤ 10) : RunsStage (.evalFin :: roundCommands k) (finRounds k) := by
  induction k with
  | zero =>
    refine runsStage_single fun s => ?_
    have hfin : finRounds 0 s = finStage s := bind_pure (finStage s)
    rw [hfin]
    rfl
  | succ k ih =>
    have hrun := (ih (by omega)).append (runsStage_evalRound hk) (roundStage_complete (k + 1))
    have hstage : finRounds (k + 1) = fun s => finRounds k s >>= roundStage (k + 1) :=
      funext fun s => (bind_assoc (finStage s) (roundStages k) (roundStage (k + 1))).symm
    rwa [roundCommands_succ, hstage]

theorem stageCommands_eq : stageCommands = (.evalFin :: roundCommands 10) ++ [.evalFout] := rfl

/-- Settles O31: the stage commands run the stages of EVAL. -/
theorem stageCommandsEqualEval : Obligations.StageCommandsEqualEval := by
  intro s
  have hfout : RunsStage [.evalFout] foutStage := runsStage_single fun _ => rfl
  rw [stageCommands_eq, (runsStage_finRounds (le_refl 10)).append hfout foutStage_complete s]
  simp only [exec, execEval, evalStages_eq]

end Sys2Proof.Machine
end

section
/-! SUPPORT. Instances: masks that cancel within a round, and AES on both halves of the wide state (42_evaluator.md R90 to
R92). -/

namespace Sys2Proof.Machine

open Sys2Proof.Claims

/-! XOR sums of vectors, and the cancellation of masks (42_evaluator.md R92). -/

theorem xorVecs_congr {f g : Nat → Vec} {k : Nat} (h : ∀ i, i < k → f i = g i) : xorVecs f k = xorVecs g k := by
  induction k with
  | zero => rfl
  | succ k ih => rw [xorVecs, xorVecs, ih fun i hi => h i (by omega), h k (by omega)]

theorem xorVecs_xor (f g : Nat → Vec) (k : Nat) : xorVecs (fun i => f i ^^^ g i) k = xorVecs f k ^^^ xorVecs g k := by
  induction k with
  | zero => exact BitVec.xor_self.symm
  | succ k ih =>
    simp only [xorVecs, ih]
    ac_rfl

theorem xorVecs_succ_left (g : Nat → Vec) (k : Nat) : xorVecs g (k + 1) = xorVecs (fun i => g (i + 1)) k ^^^ g 0 := by
  induction k with
  | zero => rfl
  | succ k ih =>
    rw [xorVecs, ih, xorVecs]
    ac_rfl

/-- A sum over all positions of a ring may start at the next one. -/
theorem xorVecs_rotate (g : Nat → Vec) (k : Nat) : xorVecs (fun i => g ((i + 1) % (k + 1))) (k + 1) = xorVecs g (k + 1) := by
  have hlow : xorVecs (fun i => g ((i + 1) % (k + 1))) k = xorVecs (fun i => g (i + 1)) k :=
    xorVecs_congr fun i hi => by rw [Nat.mod_eq_of_lt (by omega)]
  rw [xorVecs, hlow, Nat.mod_self, xorVecs_succ_left]

/-- A mask that enters the sum twice, at its own position and at the one before, cancels. -/
theorem xorVecs_masked {f f' m : Nat → Vec} {k : Nat}
    (h : ∀ i, i < k + 1 → f' i = f i ^^^ m i ^^^ m ((i + 1) % (k + 1))) : xorVecs f' (k + 1) = xorVecs f (k + 1) := by
  rw [xorVecs_congr h, xorVecs_xor, xorVecs_xor, xorVecs_rotate, BitVec.xor_assoc, BitVec.xor_self, BitVec.xor_zero]

/-- The mask of position `i` comes in through the `x` index of table `i` and the `y` index of the table before. -/
theorem roundXor_masked {t t' : Nat → Nat → Nat → Nat → Vec} {h : Nat → Nat → Vec} {r : Nat} (s : Vec)
    (hmask : ∀ i x y, i < 32 → x < 256 → y < 256 → t' r i x y = t r i x y ^^^ h i x ^^^ h ((i + 1) % 32) y) :
    roundXor t' r s = roundXor t r s :=
  xorVecs_masked (m := fun i => h i (byteOf s i).toNat) fun i hi =>
    hmask i _ _ hi (byteOf s i).isLt (byteOf s ((i + 1) % 32)).isLt

/-- Settles O32: BUF and ACC are the XOR of the entries, in which the masks cancel. -/
theorem masksCancelInARound : Obligations.MasksCancelInARound := by
  intro r s s' h h1 h10 hbuf hw hw' hmask
  have hlegal := roundLegal_iff.mpr ⟨h1, h10⟩
  have hround : roundXor (tableEntry s'.store) r.toNat s'.buf = roundXor (tableEntry s.store) r.toNat s.buf := by
    rw [hbuf, roundXor_masked s.buf hmask]
  exact ⟨_, _, exec_evalRound hlegal hw, exec_evalRound hlegal (hbuf ▸ hw'), hround, hround⟩

/-! The halves of a wide state (42_evaluator.md R90). -/

theorem upperBlock_getLsbD (s : Vec) {j : Nat} (hj : j < 128) : (upperBlock s).getLsbD j = s.getLsbD j := by
  rw [upperBlock, BitVec.getLsbD_extractLsb', decide_eq_true hj, Bool.true_and, Nat.zero_add]

theorem lowerBlock_getLsbD (s : Vec) {j : Nat} (hj : j < 128) : (lowerBlock s).getLsbD j = s.getLsbD (128 + j) := by
  rw [lowerBlock, BitVec.getLsbD_extractLsb', decide_eq_true hj, Bool.true_and]

@[simp] theorem upperBlock_packBlocks (x y : BitVec 128) : upperBlock (packBlocks x y) = x :=
  BitVec.eq_of_getLsbD_eq fun j hj => by rw [upperBlock_getLsbD _ hj, packBlocks_getLsbD, if_pos hj]

@[simp] theorem lowerBlock_packBlocks (x y : BitVec 128) : lowerBlock (packBlocks x y) = y :=
  BitVec.eq_of_getLsbD_eq fun j hj => by
    rw [lowerBlock_getLsbD _ hj, packBlocks_getLsbD, if_neg (by omega), Nat.add_sub_cancel_left]

theorem packBlocks_upper_lower (s : Vec) : packBlocks (upperBlock s) (lowerBlock s) = s := vec_ext fun j hj => by
  rw [packBlocks_getLsbD]
  by_cases hlow : j < 128
  · rw [if_pos hlow, upperBlock_getLsbD s hlow]
  · rw [if_neg hlow, lowerBlock_getLsbD s (by omega), Nat.add_sub_cancel' (by omega)]

theorem packBlocks_xor (x y x' y' : BitVec 128) :
    packBlocks x y ^^^ packBlocks x' y' = packBlocks (x ^^^ x') (y ^^^ y') := vec_ext fun j _ => by
  simp only [BitVec.getLsbD_xor, packBlocks_getLsbD]
  split <;> rfl

@[simp] theorem onHalves_packBlocks (g : BitVec 128 → BitVec 128) (x y : BitVec 128) :
    onHalves g (packBlocks x y) = packBlocks (g x) (g y) := by
  rw [onHalves, upperBlock_packBlocks, lowerBlock_packBlocks]

theorem byteOf_packBlocks (x y : BitVec 128) (k : Nat) :
    byteOf (packBlocks x y) k = if k < 16 then x.extractLsb' (8 * k) 8 else y.extractLsb' (8 * (k - 16)) 8 := by
  refine BitVec.eq_of_getLsbD_eq fun b hb => ?_
  rw [byteOf_getLsbD, packBlocks_getLsbD]
  by_cases hk : k < 16
  · simp [hk, hb, show 8 * k + b < 128 by omega]
  · simp [hk, hb, show ¬ 8 * k + b < 128 by omega, show 8 * k + b - 128 = 8 * (k - 16) + b by omega]

/-! AES on both halves (42_evaluator.md R91). -/

theorem AesCore.subBlock_getLsbD (f : AesCore) (b : BitVec 128) {j : Nat} (hj : j < 128) :
    (f.subBlock b).getLsbD j = (f.sbox (b.extractLsb' (8 * (j / 8)) 8)).getLsbD (j % 8) := by
  rw [AesCore.subBlock, BitVec.getLsbD_setWidth, vecOfBits_getLsbD _ _ _ (by omega)]
  simp [hj]

/-- SubBytes of a wide state is SubBytes of each half: a half begins at a byte. -/
@[simp] theorem AesCore.wideSub_packBlocks (f : AesCore) (x y : BitVec 128) :
    f.wideSub (packBlocks x y) = packBlocks (f.subBlock x) (f.subBlock y) := vec_ext fun j hj => by
  rw [AesCore.wideSub, vecOfBits_getLsbD _ _ _ (le_refl _), byteOf_packBlocks, packBlocks_getLsbD, decide_eq_true hj,
    Bool.true_and]
  by_cases hlow : j < 128
  · rw [if_pos hlow, if_pos (by omega), f.subBlock_getLsbD x hlow]
  · rw [if_neg hlow, if_neg (by omega), f.subBlock_getLsbD y (by omega), show (j - 128) / 8 = j / 8 - 16 by omega,
      show (j - 128) % 8 = j % 8 by omega]

/-- The AES states of the two halves after round `r`. -/
def AesCore.wideAfter (f : AesCore) (r : Nat) (s : Vec) : Vec := onHalves (fun b => f.after b r) s

theorem AesCore.wideAfter_zero (f : AesCore) (s : Vec) : f.wideAfter 0 s = s ^^^ f.wideKey 0 := by
  conv_rhs => rw [← packBlocks_upper_lower s]
  exact (packBlocks_xor ..).symm

theorem AesCore.wideAfter_succ (f : AesCore) (r : Nat) (s : Vec) :
    f.wideAfter (r + 1) s = onHalves (f.linearBlock (r + 1)) (f.wideSub (f.wideAfter r s)) ^^^ f.wideKey (r + 1) := by
  have hprev : f.wideAfter r s = packBlocks (f.after (upperBlock s) r) (f.after (lowerBlock s) r) := rfl
  rw [hprev, wideSub_packBlocks, onHalves_packBlocks, wideKey, packBlocks_xor]
  rfl

/-! A correct instance (42_evaluator.md R91). -/

theorem AffineMap.inverse_undoes {a : AffineMap} (h : a.IsInvertible) :
    ∃ ai, a.inverse = some ai ∧ ∀ x, ai.apply (a.apply x) = x := by
  obtain ⟨ai, hai, -, hundo, -⟩ | ⟨-, hnot⟩ := a.inverse_cases
  · exact ⟨ai, hai, hundo⟩
  · exact absurd h hnot

/-- The round invariant: after round `r` the value is `A^(r+1)` of the AES states. -/
theorem CorrectInstance.evalValue_eq {s : State} {f : AesCore} {a : Nat → AffineMap} (h : CorrectInstance s f a) {r : Nat}
    (hr : r ≤ 10) : evalValue s r = (a (r + 1)).apply (f.wideAfter r s.buf) := by
  induction r with
  | zero => rw [f.wideAfter_zero, ← h.input]; rfl
  | succ r ih =>
    obtain ⟨ai, hai, hundo⟩ := AffineMap.inverse_undoes (h.invertible (r + 1) (by omega) (by omega))
    calc evalValue s (r + 1)
        = roundXor (tableEntry s.store) (r + 1) ((a (r + 1)).apply (f.wideAfter r s.buf)) := by rw [← ih (by omega)]; rfl
      _ = (a (r + 2)).apply (f.wideAfter (r + 1) s.buf) := by
        rw [h.rounds (r + 1) ai _ (by omega) hr hai, hundo, f.wideAfter_succ]

/-- The tables of a loaded instance are written, so a round finds every entry it looks up. -/
theorem InstanceLoaded.roundWritten {s : State} (h : InstanceLoaded s) {r : Nat} (h1 : 1 ≤ r) (h10 : r ≤ 10) (v : Vec) :
    RoundWritten s.store r v := by
  intro i k hi hk
  obtain ⟨-, hlow, hhigh⟩ := tableEntriesAreDisjoint.1 r i _ _ h1 h10 hi (byteOf v i).isLt (byteOf v ((i + 1) % 32)).isLt
  refine h.tables _ ?_ ?_
  · rw [Config.tblBase]; omega
  · rw [Config.tblBase, Config.tblSize]; omega

theorem InstanceLoaded.evalReadsWritten {s : State} (h : InstanceLoaded s) : StoreReadsWritten .eval s :=
  ⟨h.input, fun _ hr => h.roundWritten (by omega) (by omega) _, h.output⟩

/-- The stage commands up to round `r` leave in BUF what EVAL has after round `r`. -/
theorem runCommands_finRounds {s : State} (h : InstanceLoaded s) {r : Nat} (hr : r ≤ 10) :
    ∃ t, runCommands (.evalFin :: roundCommands r) s = .next t ∧ t.buf = evalValue s r := by
  have hstage : finRounds r s = .ok (afterRounds r (afterFin s)) :=
    finRounds_of_written h.input fun q hq => h.roundWritten (by omega) (by omega) _
  refine ⟨complete (afterRounds r (afterFin s)), ?_, afterRounds_buf r (afterFin s)⟩
  rw [runsStage_finRounds hr s, hstage]
  rfl

theorem stageCommands_take {r : Nat} (hr : r ≤ 10) : stageCommands.take (r + 1) = .evalFin :: roundCommands r := by
  have hlen : r ≤ (roundCommands 10).length := hr
  rw [stageCommands_eq, List.cons_append, List.take_succ_cons, List.take_append_of_le_length hlen, roundCommands,
    ← List.map_take, List.take_range, min_eq_left hr, roundCommands]

/-- Settles O33: the values follow the AES states round by round, and EVAL and the stage commands leave these values. -/
theorem correctInstanceComputesAes : Obligations.CorrectInstanceComputesAes := by
  intro s f a h
  have heval := exec_eval h.loaded.evalReadsWritten
  have hacc : evalValue s 10 = (a 11).apply (onHalves f.encrypt s.buf) := h.evalValue_eq (le_refl 10)
  refine ⟨fun r hr => h.evalValue_eq hr, fun r hr => ?_, fun hp => ⟨_, heval, ?_, ?_⟩, fun hp => ⟨_, heval, hacc, ?_⟩⟩
  · obtain ⟨t, hrun, hbuf⟩ := runCommands_finRounds h.loaded hr
    exact ⟨t, by rw [stageCommands_take hr, hrun], hbuf.trans (h.evalValue_eq hr)⟩
  · obtain ⟨hid, -⟩ | hp' := h.output
    · change evalResult s = onHalves f.encrypt s.buf
      rw [evalResult, hp, if_neg Bool.false_ne_true, hacc, hid]
    · rw [hp] at hp'
      cases hp'
  · change evalValue s 10 = evalResult s
    rw [evalResult, hp, if_neg Bool.false_ne_true]
  · change evalResult s = applyEncoding s.store Config.foutL Config.foutC (evalValue s 10)
    rw [evalResult, if_pos hp]

end Sys2Proof.Machine
end

section
/-! SUPPORT. A step as its next input, and the acceptance of a command (60_exceptions.md R94 to R98). -/

namespace Sys2Proof.Machine

open Sys2Proof.Claims

/-! The step and the engine's turn, case by case (60_exceptions.md R94). -/

theorem step_of_noInputs {s : State} (h : s.inputs = []) : step s = engineStep s := by
  unfold step
  rw [h]

theorem step_of_input {s : State} {i : Input} {rest : List Input} (h : s.inputs = i :: rest) :
    step s = inputStep i { s with inputs := rest } := by
  unfold step
  rw [h]

theorem engineStep_busy {s : State} (h : s.busy = true) : engineStep s = completeCommand s := if_pos h

theorem engineStep_idle {s : State} (h : s.busy = false) : engineStep s = .next s := if_neg (by simp [h])

theorem completeCommand_of_decoded {s : State} {i : Instr} (h : decode s.pend = .ok i) : completeCommand s = exec i s := by
  unfold completeCommand
  rw [h]

theorem completeCommand_of_rejected {s : State} {e : Reject} (h : decode s.pend = .error e) :
    completeCommand s = raise .illegal s := by
  unfold completeCommand
  rw [h]

/-- Settles O6: the engine's turn while busy is `completeCommand`, whether it is the next input or none is left. -/
theorem stepRunsDecodedCommand : Obligations.StepRunsDecodedCommand := by
  intro s hb
  have last : s.inputs = [] → step s = completeCommand s := fun h => by
    rw [step_of_noInputs h, engineStep_busy hb]
  have turn : ∀ rest, s.inputs = .engineTurn :: rest → step s = completeCommand { s with inputs := rest } :=
    fun rest h => (step_of_input h).trans (engineStep_busy hb)
  refine ⟨fun i hi => ⟨fun h => ?_, fun rest h => ?_⟩, fun e he => ⟨fun h => ?_, fun rest h => ?_⟩, last, turn⟩
  · rw [last h, completeCommand_of_decoded hi]
  · exact (turn rest h).trans (completeCommand_of_decoded hi)
  · rw [last h, completeCommand_of_rejected he]
  · exact (turn rest h).trans (completeCommand_of_rejected he)

/-- Settles O7: `inputStep` says what each input does, and an idle engine does nothing. -/
theorem stepTakesItsNextInput : Obligations.StepTakesItsNextInput := by
  refine fun s rest => ⟨fun _ h => step_of_input h, fun _ _ h => step_of_input h, fun h => step_of_input h,
    fun hb h => ?_, fun hb h => ?_⟩
  · exact (step_of_input h).trans (engineStep_idle hb)
  · rw [step_of_noInputs h, engineStep_idle hb]

/-! Acceptance (60_exceptions.md R95). -/

theorem hostWrite32_cmd (d : Word32) (s : State) :
    hostWrite32 0x010 d s = if s.busy then okay (overrun s) else okay (accept d s) := rfl

/-- Settles O8: an idle machine accepts the word whatever it is. -/
theorem acceptanceStoresTheWord : Obligations.AcceptanceStoresTheWord := by
  intro w s hb
  exact (hostWrite32_cmd w s).trans (if_neg (by simp [hb]))

/-- A host write that leaves an idle machine busy is the acceptance of a command. -/
theorem hostEffect_accepts {a d : Word32} {s u : State} (h : HostEffect a d s u) (hs : s.busy = false)
    (hu : u.busy = true) : a = 0x010 ∧ u = accept d s := by
  cases h with
  | accepted _ ha => exact ⟨ha, rfl⟩
  | overrun hb => rw [hs] at hb; cases hb
  | status _ => rw [writeStatus_busy, hs] at hu; cases hu
  | _ => exact absurd (hs.symm.trans hu) Bool.false_ne_true

/-- Settles O9: of the four kinds of step only a host write can leave an idle machine busy. -/
theorem busyOnlyByCmdWrite : Obligations.BusyOnlyByCmdWrite := by
  intro s t hstep hidle hbusy
  cases step_next hstep with
  | engine _ h =>
    obtain ⟨-, hdone, -⟩ | ⟨-, rfl⟩ := engineStep_next h
    · rw [hdone] at hbusy
      cases hbusy
    · exact absurd (hidle.symm.trans hbusy) Bool.false_ne_true
  | reset _ h =>
    rw [h, resetEvent_busy] at hbusy
    cases hbusy
  | read a rest _ h =>
    have hkept : t.busy = false := (hostRead32_busy h).trans hidle
    exact absurd (hkept.symm.trans hbusy) Bool.false_ne_true
  | write a d rest hi h =>
    obtain ⟨u, rfl, hu⟩ := hostWrite32_next h
    obtain ⟨rfl, rfl⟩ := hostEffect_accepts hu hidle hbusy
    exact ⟨d, rest, hi, rfl⟩

end Sys2Proof.Machine
end

section
/-! SUPPORT. Writes while busy and the interrupt output (20_memory.md R47, 60_exceptions.md R97, R103). -/

namespace Sys2Proof.Machine

open Sys2Proof.Claims

/-- Every busy-locked location but CMD is one whose write `lockedWrite` makes (20_memory.md R47 (a)). -/
theorem lockedEffect_of_busyLocked {a : Nat} (d : Word32) (s : State) (h4 : a % 4 = 0) (h : BusyLocked a)
    (hcmd : a ≠ 0x010) : ∃ u, lockedEffect d s (locate a) = some u := by
  obtain h | rfl | rfl | rfl | hvec | hmat | hstore := h
  · exact absurd h hcmd
  · exact ⟨_, rfl⟩
  · exact ⟨_, rfl⟩
  · exact ⟨_, rfl⟩
  · obtain ⟨k, w, hw, rfl⟩ | ⟨w, hw, rfl⟩ :
        (∃ (k : VReg) (w : Nat), w < 8 ∧ a = 0x1000 + 0x20 * k.val + 4 * w) ∨ ∃ w, w < 8 ∧ a = 0x1100 + 4 * w := by
      by_cases hbuf : a < 0x1100
      · exact .inl ⟨⟨(a - 0x1000) / 32, by omega⟩, a / 4 % 8, by omega, by dsimp only; omega⟩
      · exact .inr ⟨a / 4 % 8, by omega, by omega⟩
    · exact ⟨_, by rw [locate_vector k hw]; rfl⟩
    · exact ⟨_, by rw [locate_buffer hw]; rfl⟩
  · obtain ⟨k, i, w, hi, hw, rfl⟩ : ∃ (k : MReg) (i w : Nat), i < 256 ∧ w < 8 ∧
        a = 0x8000 + 0x2000 * k.val + 0x20 * i + 4 * w :=
      ⟨⟨(a - 0x8000) / 0x2000, by omega⟩, a / 32 % 256, a / 4 % 8, by omega, by omega, by dsimp only; omega⟩
    exact ⟨_, by rw [locate_matrix k hi hw]; rfl⟩
  · exact ⟨_, by rw [locate_isStore (isStore_of_storeAddress hstore)]; rfl⟩

/-- Settles O37: a busy-locked location is CMD or one whose write `lockedWrite` makes, and either drops the word while
busy. -/
theorem busyWritesAreDropped : Obligations.BusyWritesAreDropped := by
  intro a d s hb h4 ha
  by_cases hcmd : a.toNat = 0x010
  · rw [word_eq_of_toNat hcmd (by decide)]
    exact (hostWrite32_cmd d s).trans (if_pos hb)
  · obtain ⟨u, hu⟩ := lockedEffect_of_busyLocked d s h4 ha hcmd
    exact (hostWrite32_locked h4 hu).trans (if_pos hb)

theorem irq_iff (s : State) : irq s = true ↔ s.irqEn = true ∧ (s.done = true ∨ s.err = true ∨ s.ovr = true) := by
  rw [irq, Bool.and_eq_true, Bool.or_eq_true, Bool.or_eq_true, or_assoc]

theorem platformLine_own (s : State) : platformLine s Config.wbrtIrqLine = irq s := by
  simp [platformLine]

theorem platformLine_other (s : State) {line : Nat} (h : line ≠ Config.wbrtIrqLine) : platformLine s line = false := by
  simp [platformLine, h]

/-- Settles O50: a CTRL write with bit 0 clear takes IRQ_EN from the conjunction and leaves the sources. -/
theorem interruptLevel : Obligations.InterruptLevel := by
  refine fun s => ⟨irq_iff s, platformLine_own s, fun _ => platformLine_other s, fun d hd => ?_⟩
  refine ⟨_, hostWrite32_ctrl d s, ?_, rfl, rfl, rfl⟩
  rw [irq, writeCtrl_irqEn, hd, Bool.false_and]

end Sys2Proof.Machine
end

section
/-! SUPPORT. What a command does to the error record, and what no command writes (60_exceptions.md R96 to R100,
10_state.md R19 to R21, R32). -/

namespace Sys2Proof.Machine

open Sys2Proof.Claims

/-! The error record (60_exceptions.md R98, R99). -/

/-- A record that is held stays. -/
theorem recordError_held {c : Cause} {s : State} (h : s.err = true) : recordError c s = s := if_pos h

/-- A command leaves the error record, or it is ill formed and raises ILLEGAL, or it is an inversion and raises DOMAIN. -/
theorem commandEffect_error {i : Instr} {s u : State} (h : CommandEffect s i u) :
    ErrorKept s u ∨ (i.wellFormed = false ∧ u = recordError .illegal s) ∨
      (((∃ n d src, i = .minv n d src) ∨ ∃ n d src, i = .ainv n d src) ∧ u = recordError .domain s) := by
  cases h with
  | illegal i hi => exact .inr (.inl ⟨hi, rfl⟩)
  | minvDomain n d src => exact .inr (.inr ⟨.inl ⟨n, d, src, rfl⟩, rfl⟩)
  | ainvDomain n d src _ => exact .inr (.inr ⟨.inr ⟨n, d, src, rfl⟩, rfl⟩)
  | _ => exact .inl ⟨rfl, rfl, rfl⟩

/-- A command keeps an error record that is held. -/
theorem exec_errorHeld {i : Instr} {s t : State} (h : exec i s = .next t) (he : s.err = true) : ErrorKept s t := by
  obtain ⟨hole, u, rfl, hu, -⟩ := exec_next h
  have held : ∀ c, recordError c (recordUnwritten hole s) = recordUnwritten hole s := fun c => recordError_held he
  obtain hkept | ⟨-, rfl⟩ | ⟨-, rfl⟩ := commandEffect_error hu
  · exact hkept
  · rw [held]
    exact ⟨rfl, rfl, rfl⟩
  · rw [held]
    exact ⟨rfl, rfl, rfl⟩

/-- Settles O12: the record is made only while ERR = 0, and a command makes it in no other way. -/
theorem errorRecordHoldsTheFirst : Obligations.ErrorRecordHoldsTheFirst := by
  refine ⟨fun c s => ?_, fun i s t h he => ?_⟩
  · rw [raise_eq]
    cases c with
    | illegal => rfl
    | domain => rfl
  · obtain ⟨herr, hcode, hinfo⟩ := exec_errorHeld h he
    exact ⟨herr.trans he, hcode, hinfo⟩

/-- Settles O14: what a well-formed command leaves other than the record as it was is the record of DOMAIN, by an
inversion. -/
theorem onlyInversionsFail : Obligations.OnlyInversionsFail := by
  intro i s t hw h
  obtain ⟨hole, u, rfl, hu, -⟩ := exec_next h
  obtain hkept | ⟨hnot, -⟩ | ⟨hi, rfl⟩ := commandEffect_error hu
  · exact .inl hkept
  · rw [hw] at hnot
    cases hnot
  · exact .inr ⟨hi, s.unwrittenRead.or hole, h⟩

theorem completeCommand_err {s t : State} (h : completeCommand s = .next t) (he : s.err = true) : t.err = true := by
  cases hd : decode s.pend with
  | ok i =>
    rw [completeCommand_of_decoded hd] at h
    obtain ⟨herr, -, -⟩ := exec_errorHeld h he
    exact herr.trans he
  | error e =>
    rw [completeCommand_of_rejected hd] at h
    obtain rfl := (raise_next ..).mp h
    exact recordError_err _ _

theorem engineStep_err {s t : State} (h : engineStep s = .next t) (he : s.err = true) : t.err = true := by
  cases hb : s.busy with
  | true => exact completeCommand_err (engineStep_busy hb ▸ h) he
  | false =>
    rw [engineStep_idle hb] at h
    obtain rfl := Host.Outcome.next.inj h
    exact he

/-- A host write that clears ERR is one of 1 to STATUS bit 2 (60_exceptions.md R100). -/
theorem hostEffect_clearsErr {a d : Word32} {s u : State} (h : HostEffect a d s u) (hs : s.err = true)
    (hu : u.err = false) : a = 0x00C ∧ d.getLsbD 2 = true := by
  cases h with
  | status ha =>
    rw [writeStatus_err, hs] at hu
    exact ⟨ha, by simpa using hu⟩
  | _ => exact absurd (hu.symm.trans hs) Bool.false_ne_true

/-- Settles O13: of the four kinds of step the engine's turn and a host read keep ERR. -/
theorem errClearedOnlyByHost : Obligations.ErrClearedOnlyByHost := by
  intro s t hstep hs ht
  cases step_next hstep with
  | engine _ h =>
    have hkept : t.err = true := engineStep_err h hs
    exact absurd (ht.symm.trans hkept) Bool.false_ne_true
  | reset hnext _ => exact .inr hnext
  | read a rest _ h =>
    obtain ⟨_, _, _, rfl⟩ := hostRead32_next h
    exact absurd (ht.symm.trans hs) Bool.false_ne_true
  | write a d rest hi h =>
    obtain ⟨u, rfl, hu⟩ := hostWrite32_next h
    obtain ⟨rfl, hbit⟩ := hostEffect_clearsErr hu hs ht
    exact .inl ⟨d, rest, hi, hbit⟩

/-! What no command writes. -/

theorem recordError_neverWritten (c : Cause) (s : State) : NeverWritten s (complete (recordError c s)) where
  irqEn := recordError_irqEn c s
  ovr := recordError_ovr c s
  outPresent := recordError_outPresent c s
  version := recordError_version c s
  scheme := recordError_scheme c s
  pend := recordError_pend c s
  store a := congrArg (memRead · a) (recordError_store c s)
  record := .inl (recordError_unwrittenRead c s)
  draws := recordError_draws c s
  inputs := recordError_inputs c s
  response := recordError_response c s

theorem commandEffect_neverWritten {i : Instr} {s u : State} (h : CommandEffect s i u) : NeverWritten s (complete u) := by
  cases h with
  | minvDomain n d src => exact recordError_neverWritten .domain s
  | ainvDomain n d src _ => exact recordError_neverWritten .domain s
  | illegal i _ => exact recordError_neverWritten .illegal s
  | _ => exact ⟨rfl, rfl, rfl, rfl, rfl, rfl, fun _ => rfl, .inl rfl, rfl, rfl, rfl⟩

/-- Only EVAL and EVAL_ROUND write IN and ACC (10_state.md R19, R20). -/
theorem commandEffect_snapshotKept {i : Instr} {s u : State} (h : CommandEffect s i u) (heval : i ≠ .eval)
    (hround : ∀ r, i ≠ .evalRound r) : u.inp = s.inp ∧ u.acc = s.acc := by
  cases h with
  | eval => exact absurd rfl heval
  | evalRound r => exact absurd rfl (hround r)
  | minvDomain n d src => exact ⟨recordError_inp .domain s, recordError_acc .domain s⟩
  | ainvDomain n d src _ => exact ⟨recordError_inp .domain s, recordError_acc .domain s⟩
  | illegal i _ => exact ⟨recordError_inp .illegal s, recordError_acc .illegal s⟩
  | _ => exact ⟨rfl, rfl⟩

/-- Only MEQ writes EQ (10_state.md R32). -/
theorem commandEffect_eqFlagKept {i : Instr} {s u : State} (h : CommandEffect s i u) (hmeq : ∀ n a b, i ≠ .meq n a b) :
    u.eqFlag = s.eqFlag := by
  cases h with
  | meq n a b => exact absurd rfl (hmeq n a b)
  | minvDomain n d src => exact recordError_eqFlag .domain s
  | ainvDomain n d src _ => exact recordError_eqFlag .domain s
  | illegal i _ => exact recordError_eqFlag .illegal s
  | _ => rfl

/-- The bytes that a command reads are bytes of 32-byte rows. -/
theorem readsByte_byte {i : Instr} {s : State} {r : RegName} {j : Nat} (h : ReadsByte i s r j) : j < 32 := by
  cases i with
  | nop => exact h.elim
  | mident n d => exact h.elim
  | mmul n d s1 s2 => exact Or.elim h inViewM_byte inViewM_byte
  | minv n d src => exact inViewM_byte h
  | mapply n d m src => exact Or.elim h inViewM_byte inViewV_byte
  | meq n s1 s2 => exact Or.elim h inViewM_byte inViewM_byte
  | aapply n d a src => exact Or.elim h inViewA_byte inViewV_byte
  | acomp n d s1 s2 => exact Or.elim h inViewA_byte inViewA_byte
  | ainv n d src => exact inViewA_byte h
  | eval => exact h.2
  | evalFin => exact h.2
  | evalRound r => exact h.2
  | evalFout => exact h.2.2

/-- A command that ends writes nothing of what no command writes; its reads may make the record of unwritten reads. -/
theorem exec_neverWritten {i : Instr} {s t : State} (h : exec i s = .next t) : NeverWritten s t := by
  obtain ⟨hole, u, rfl, hu, hlegal, hillegal⟩ := exec_next h
  have hrecord : RecordKeptOrMade s (recordUnwritten hole s) := by
    cases hw : i.wellFormed with
    | true => exact (hlegal hw).keptOrMade fun _ _ => readsByte_byte
    | false =>
      rw [hillegal hw, recordUnwritten_none]
      exact .inl rfl
  have hread : NeverWritten s (recordUnwritten hole s) :=
    ⟨rfl, rfl, rfl, rfl, rfl, rfl, fun _ => rfl, hrecord, rfl, rfl, rfl⟩
  exact neverWritten_trans hread (commandEffect_neverWritten hu) fun _ _ _ hmark => hmark

/-! No command is refused. -/

theorem requireLegal_refused {ok : Bool} {s : State} {k : Result} {r : Refusal} (h : requireLegal ok s k = .refused r) :
    k = .refused r := by
  cases ok with
  | true => exact h
  | false => cases h

theorem finish_ne_refused (s : State) (r : Refusal) : finish s ≠ .refused r := fun h => by cases h

theorem operand_finish_ne_refused (x : Except Fault State) (r : Refusal) : operand x finish ≠ .refused r := by
  intro h
  obtain ⟨u, -, hu⟩ := operand_refused.mp h
  exact finish_ne_refused u r hu

theorem exec_ne_refused (i : Instr) (s : State) (r : Refusal) : exec i s ≠ .refused r := by
  intro h
  cases i with
  | minv n d src =>
    simp only [exec, execMinv] at h
    split at h
    · cases h
    · cases h
  | aapply n d a src => exact finish_ne_refused _ r (requireLegal_refused h)
  | acomp n d s1 s2 => exact finish_ne_refused _ r (requireLegal_refused h)
  | ainv n d src =>
    have hlegal := requireLegal_refused h
    split at hlegal
    · cases hlegal
    · cases hlegal
  | eval => exact operand_finish_ne_refused (evalStages s) r h
  | evalFin => exact operand_finish_ne_refused (finStage s) r h
  | evalRound k => exact operand_finish_ne_refused (roundStage k.toNat s) r (requireLegal_refused h)
  | evalFout => exact operand_finish_ne_refused (foutStage s) r h
  | _ => cases h

/-- Settles O15, from the states that `exec_next` says a command can leave. -/
theorem commandsWriteOnlyTheirState : Obligations.CommandsWriteOnlyTheirState := by
  refine ⟨fun i s t h => ?_, exec_ne_refused⟩
  have hrest := exec_neverWritten h
  obtain ⟨hole, u, rfl, hu, -⟩ := exec_next h
  have hsnapshot := commandEffect_snapshotKept hu
  have hflag := commandEffect_eqFlagKept hu
  exact ⟨⟨complete_busy u, complete_done u⟩, hrest, fun ⟨heval, hround⟩ => hsnapshot heval hround, hflag⟩

end Sys2Proof.Machine
end

section
/-! SUPPORT. The state that the reset event leaves, from whatever state (70_reset_and_hazards.md R112 to R114). -/

namespace Sys2Proof.Machine

open Sys2Proof.Claims

/-- No register byte is marked as written. -/
theorem registerWritten_reset (r : RegName) (j : Nat) : registerWritten Marks.reset r j = false := by
  cases r with
  | v k => simp [registerWritten, Marks.reset]
  | m k i =>
    simp only [registerWritten, markRow, Marks.reset]
    split <;> simp
  | buf => exact BitVec.getLsbD_zero
  | inp => exact BitVec.getLsbD_zero
  | acc => exact BitVec.getLsbD_zero

theorem dataWritten_resetEvent (s : State) (b : DataByte) : dataWritten (resetEvent s) b = false := by
  cases b with
  | register r j => exact registerWritten_reset r j
  | store a => rfl

theorem cleanEntry_resetEvent (s : State) : CleanEntry (resetEvent s) [] where
  status := (by decide : statusWord State.reset = 0)
  ctrl := rfl
  errinfo := rfl
  data b hb := absurd hb (by simp [dataWritten_resetEvent])

/-- The state right after reset is what the reset event makes of itself. -/
theorem resetEvent_reset : resetEvent State.reset = State.reset := rfl

/-- Settles O51: the reset event leaves a clean entry. -/
theorem resetIsACleanEntry : Obligations.ResetIsACleanEntry :=
  ⟨resetEvent_reset ▸ cleanEntry_resetEvent State.reset, rfl, rfl, rfl, rfl, rfl⟩

/-- Settles O52: the step is the reset event, whatever the state. -/
theorem resetEventClearsEverything : Obligations.ResetEventClearsEverything :=
  fun _ _ h => ⟨_, step_of_input h, rfl, cleanEntry_resetEvent _, rfl, rfl, rfl, rfl, rfl⟩

end Sys2Proof.Machine
end

section
/-! SUPPORT. Commands and unwritten bytes: a command completes exactly if the bytes of the instance store that it reads were
written, and else it stops on an unwritten byte (70_reset_and_hazards.md R113 to R115). -/

namespace Sys2Proof.Machine

open Sys2Proof.Claims

/-! Completion. -/

/-- A well-formed command that finds its bytes of the instance store written completes. -/
theorem exec_completes {i : Instr} {s : State} (hw : i.wellFormed = true) (h : StoreReadsWritten i s) :
    ∃ t, exec i s = .next t := by
  cases i with
  | minv n d src =>
    cases hinv : matInverse (dimSize n) (readM n src s) with
    | none => exact ⟨_, exec_minv_domain d hinv⟩
    | some y => exact ⟨_, exec_minv d hinv⟩
  | aapply n d a src => exact ⟨_, exec_aapply d a src s hw⟩
  | acomp n d s1 s2 => exact ⟨_, exec_acomp d s1 s2 s hw⟩
  | ainv n d src =>
    cases hinv : matInverse (dimSize n) (readM n src s) with
    | none => exact ⟨_, exec_ainv_domain d hw hinv⟩
    | some li => exact ⟨_, exec_ainv d hw hinv⟩
  | eval => exact ⟨_, exec_eval h⟩
  | evalFin => exact ⟨_, exec_evalFin h⟩
  | evalRound r => exact ⟨_, exec_evalRound hw h⟩
  | evalFout =>
    cases hp : s.outPresent with
    | true => exact ⟨_, exec_evalFout hp (h hp)⟩
    | false => exact ⟨_, exec_evalFout_absent hp⟩
  | _ => exact ⟨_, rfl⟩

/-- Settles O30: a loaded instance has every byte written that a command reads. -/
theorem loadedInstanceEvaluates : Obligations.LoadedInstanceEvaluates := by
  intro s h
  refine ⟨exec_completes rfl h.evalReadsWritten, exec_completes rfl h.input, exec_completes rfl h.output, fun r h1 h10 => ?_⟩
  exact exec_completes (roundLegal_iff.mpr ⟨h1, h10⟩) (h.roundWritten h1 h10 s.buf)

/-- An ill-formed command raises ILLEGAL (60_exceptions.md R98). -/
theorem exec_illFormed {i : Instr} {s : State} (hw : i.wellFormed = false) : exec i s = raise .illegal s := by
  cases i with
  | aapply n d a src => exact (congrArg (requireLegal · s _) hw).trans (requireLegal_false s _)
  | acomp n d s1 s2 => exact (congrArg (requireLegal · s _) hw).trans (requireLegal_false s _)
  | ainv n d src => exact (congrArg (requireLegal · s _) hw).trans (requireLegal_false s _)
  | evalRound r => exact (congrArg (requireLegal · s _) hw).trans (requireLegal_false s _)
  | _ => cases hw

theorem exec_evalRound_stage {r : BitVec 4} {s : State} (hr : roundLegal r = true) :
    exec (.evalRound r) s = operand (roundStage r.toNat s) finish := by
  simp only [exec, execEvalRound, hr, requireLegal_true]

/-! One stage after another. -/

theorem stages_eq_ok {α β : Type} {x : Except Fault α} {g : α → Except Fault β} {b : β} (h : (x >>= g) = .ok b) :
    ∃ a, x = .ok a ∧ g a = .ok b := by
  cases x with
  | error f => cases h
  | ok a => exact ⟨a, rfl, h⟩

theorem stages_eq_error {α β : Type} {x : Except Fault α} {g : α → Except Fault β} {f : Fault}
    (h : (x >>= g) = .error f) : x = .error f ∨ ∃ a, x = .ok a ∧ g a = .error f := by
  cases x with
  | error e =>
    cases h
    exact .inl rfl
  | ok a => exact .inr ⟨a, rfl, h⟩

/-! What a stage that ends has read. -/

theorem encodeBuf_ok {l c : Nat} {s t : State} (h : encodeBuf l c s = .ok t) :
    EncodingWritten s.store l c ∧ t.store = s.store := by
  obtain ⟨f, hread, hout⟩ := stages_eq_ok h
  obtain rfl := Except.ok.inj hout
  exact ⟨written_of_readEncoding hread, rfl⟩

theorem roundStage_ok {r : Nat} {s t : State} (h : roundStage r s = .ok t) :
    RoundWritten s.store r s.buf ∧ t.store = s.store := by
  obtain ⟨a, hread, hout⟩ := stages_eq_ok h
  obtain rfl := Except.ok.inj hout
  refine ⟨fun i k hi hk => written_of_xorEntries hread _ ?_ k hk, rfl⟩
  exact List.mem_map.mpr ⟨i, List.mem_range.mpr hi, rfl⟩

theorem roundStages_store {k : Nat} {s t : State} (h : roundStages k s = .ok t) : t.store = s.store := by
  induction k generalizing t with
  | zero => rw [Except.ok.inj h]
  | succ k ih =>
    obtain ⟨u, hu, ht⟩ := stages_eq_ok h
    exact (roundStage_ok ht).2.trans (ih hu)

/-- Rounds that end have found the entries of each round on the value that the round before it left. -/
theorem roundsWritten_of_roundStages {k : Nat} {s t : State} (hs : holeBuf s = none) (h : roundStages k s = .ok t) :
    ∀ r, r < k → RoundWritten s.store (r + 1) (roundsXor (tableEntry s.store) r s.buf) := by
  induction k generalizing t with
  | zero => exact fun r hr => absurd hr (Nat.not_lt_zero r)
  | succ k ih =>
    obtain ⟨u, hu, ht⟩ := stages_eq_ok h
    have hbefore := ih hu
    obtain rfl : afterRounds k s = u := Except.ok.inj ((roundStages_of_written hs hbefore).symm.trans hu)
    intro r hr
    obtain hlt | rfl := Nat.lt_succ_iff_lt_or_eq.mp hr
    · exact hbefore r hlt
    · simpa using (roundStage_ok ht).1

theorem foutWritten_of_foutStage {s t : State} (h : foutStage s = .ok t) (hp : s.outPresent = true) :
    EncodingWritten s.store Config.foutL Config.foutC := by
  rw [foutStage, if_pos hp] at h
  exact (encodeBuf_ok h).1

theorem readsWritten_of_evalStages {s t : State} (h : evalStages s = .ok t) : StoreReadsWritten .eval s := by
  obtain ⟨u, hu, h⟩ := stages_eq_ok h
  obtain ⟨w, hw, hout⟩ := stages_eq_ok h
  have hfin := (encodeBuf_ok hu).1
  obtain rfl : afterFin s = u := Except.ok.inj ((finStage_of_written hfin).symm.trans hu)
  have hrounds := roundsWritten_of_roundStages (holeBuf_writeBuf _ _) hw
  obtain rfl : afterRounds 10 (afterFin s) = w :=
    Except.ok.inj ((roundStages_of_written (holeBuf_writeBuf _ _) hrounds).symm.trans hw)
  exact ⟨hfin, hrounds, foutWritten_of_foutStage (s := afterRounds 10 (afterFin s)) hout⟩

theorem operand_finish_next {x : Except Fault State} {t : State} (h : operand x finish = .next t) : ∃ u, x = .ok u := by
  obtain ⟨u, hx, -⟩ := operand_next.mp h
  exact ⟨u, hx⟩

/-- A well-formed command that completes has read written bytes of the instance store only. -/
theorem readsWritten_of_exec {i : Instr} {s t : State} (hw : i.wellFormed = true) (h : exec i s = .next t) :
    StoreReadsWritten i s := by
  cases i with
  | eval =>
    obtain ⟨u, hu⟩ := operand_finish_next (x := evalStages s) h
    exact readsWritten_of_evalStages hu
  | evalFin =>
    obtain ⟨u, hu⟩ := operand_finish_next (x := finStage s) h
    exact (encodeBuf_ok hu).1
  | evalRound r =>
    rw [exec_evalRound_stage hw] at h
    obtain ⟨u, hu⟩ := operand_finish_next h
    exact (roundStage_ok hu).1
  | evalFout =>
    obtain ⟨u, hu⟩ := operand_finish_next (x := foutStage s) h
    exact foutWritten_of_foutStage hu
  | _ => trivial

/-! What a stage that stops names. -/

/-- The fault names an unwritten byte of the instance store. -/
def NamesUnwrittenStore (mem : Memory) (f : Fault) : Prop :=
  ∃ a, f = .unwrittenStore a ∧ StoreAddress a ∧ memRead mem a = none

theorem storeAddress_of_isStore {a : Nat} (h : isStore a = true) : StoreAddress a := by
  rw [isStore_iff] at h
  unfold StoreAddress
  omega

theorem encodeBuf_names {l c : Nat} {s : State} {f : Fault}
    (hstore : ∀ a, (l ≤ a ∧ a < l + 8192) ∨ (c ≤ a ∧ a < c + 32) → StoreAddress a) (h : encodeBuf l c s = .error f) :
    NamesUnwrittenStore s.store f := by
  obtain hread | ⟨x, -, hout⟩ := stages_eq_error h
  · obtain ⟨a, rfl, hnone, ha⟩ := readEncoding_error hread
    exact ⟨a, rfl, hstore a ha, hnone⟩
  · cases hout

theorem finStage_names {s : State} {f : Fault} (h : finStage s = .error f) : NamesUnwrittenStore s.store f := by
  refine encodeBuf_names (fun a ha => ?_) h
  rw [Config.finL, Config.finC] at ha
  unfold StoreAddress
  omega

theorem foutStage_names {s : State} {f : Fault} (h : foutStage s = .error f) : NamesUnwrittenStore s.store f := by
  cases hp : s.outPresent with
  | true =>
    rw [foutStage, if_pos hp] at h
    refine encodeBuf_names (fun a ha => ?_) h
    rw [Config.foutL, Config.foutC] at ha
    unfold StoreAddress
    omega
  | false =>
    rw [foutStage_absent hp] at h
    cases h

theorem roundStage_names {r : Nat} {s : State} {f : Fault} (h1 : 1 ≤ r) (h10 : r ≤ 10) (h : roundStage r s = .error f) :
    NamesUnwrittenStore s.store f := by
  obtain hread | ⟨x, -, hout⟩ := stages_eq_error h
  · obtain ⟨p, hp, j, hj, rfl, hnone⟩ := xorEntries_error hread
    obtain ⟨i, hi, rfl⟩ := List.mem_map.mp hp
    have ha := isStore_tableAddr h1 h10 (List.mem_range.mp hi) (byteOf s.buf i).isLt (byteOf s.buf ((i + 1) % 32)).isLt hj
    exact ⟨_, rfl, storeAddress_of_isStore ha, hnone⟩
  · cases hout

theorem roundStages_names {k : Nat} {s : State} {f : Fault} (hk : k ≤ 10) (h : roundStages k s = .error f) :
    NamesUnwrittenStore s.store f := by
  induction k with
  | zero => cases h
  | succ k ih =>
    obtain hstop | ⟨t, ht, hstop⟩ := stages_eq_error h
    · exact ih (by omega) hstop
    · exact roundStages_store ht ▸ roundStage_names (by omega) hk hstop

theorem evalStages_names {s : State} {f : Fault} (h : evalStages s = .error f) : NamesUnwrittenStore s.store f := by
  obtain hstop | ⟨t, ht, h⟩ := stages_eq_error h
  · exact finStage_names hstop
  · rw [← (encodeBuf_ok ht).2]
    obtain hstop | ⟨u, hu, hstop⟩ := stages_eq_error h
    · exact roundStages_names (le_refl 10) hstop
    · exact roundStages_store hu ▸ foutStage_names hstop

theorem operand_finish_fault {x : Except Fault State} {f : Fault} (h : operand x finish = .fault f) : x = .error f := by
  obtain hx | ⟨t, -, ht⟩ := operand_fault.mp h
  · exact hx
  · cases ht

/-- Only the evaluator commands read the instance store, and so only they can stop. -/
theorem exec_names {i : Instr} {s : State} {f : Fault} (h : exec i s = .fault f) : NamesUnwrittenStore s.store f := by
  cases hw : i.wellFormed with
  | false =>
    rw [exec_illFormed hw] at h
    cases h
  | true =>
    cases i with
    | eval => exact evalStages_names (operand_finish_fault h)
    | evalFin => exact finStage_names (operand_finish_fault h)
    | evalRound r =>
      obtain ⟨h1, h10⟩ := roundLegal_iff.mp hw
      rw [exec_evalRound_stage hw] at h
      exact roundStage_names h1 h10 (operand_finish_fault h)
    | evalFout => exact foutStage_names (operand_finish_fault h)
    | _ =>
      obtain ⟨t, ht⟩ := exec_completes (s := s) hw trivial
      rw [ht] at h
      cases h

/-! The record of unwritten reads (70_reset_and_hazards.md R113). -/

theorem engineStep_recordKeptOrMade {s t : State} (h : engineStep s = .next t) : RecordKeptOrMade s t := by
  cases hb : s.busy with
  | true =>
    rw [engineStep_busy hb] at h
    cases hd : decode s.pend with
    | ok i => exact (exec_neverWritten (completeCommand_of_decoded hd ▸ h)).record
    | error e =>
      rw [completeCommand_of_rejected hd] at h
      obtain rfl := (raise_next ..).mp h
      exact (recordError_neverWritten .illegal s).record
  | false =>
    rw [engineStep_idle hb] at h
    obtain rfl := Host.Outcome.next.inj h
    exact .inl rfl

theorem hostEffect_unwrittenRead {a d : Word32} {s u : State} (h : HostEffect a d s u) :
    u.unwrittenRead = s.unwrittenRead := by
  cases h with
  | status _ => exact writeStatus_unwrittenRead d s
  | _ => rfl

/-- The reset event and the host's writes leave the record; the engine's turn and the host's reads may make it. -/
theorem step_recordKeptOrMade {s t : State} (h : step s = .next t) : RecordKeptOrMade s t := by
  cases step_next h with
  | engine _ ht =>
    have hrecord := engineStep_recordKeptOrMade ht
    exact hrecord
  | reset _ ht => exact .inl (by rw [ht, resetEvent_unwrittenRead])
  | read a rest _ ht =>
    obtain ⟨-, -, -, hrecord⟩ := readsHaveNoSideEffect a _ t ht
    exact hrecord
  | write a d rest _ ht =>
    obtain ⟨u, rfl, hu⟩ := hostWrite32_next ht
    have hkept := hostEffect_unwrittenRead hu
    exact .inl hkept

/-- Settles O34: what a stage names when it stops, and what each kind of step does to the record. -/
theorem commandFaultsNameUnwrittenBytes : Obligations.CommandFaultsNameUnwrittenBytes :=
  ⟨fun _ _ _ h => exec_names h, fun _ _ h => step_recordKeptOrMade h⟩

/-- Settles O35: a command that does not complete stops, for it is not refused. -/
theorem unwrittenSourcesAreRecorded : Obligations.UnwrittenSourcesAreRecorded := by
  refine fun i s hw => ⟨fun h => ?_, fun hnot => ?_⟩
  · obtain ⟨t, ht⟩ := exec_completes hw h
    exact ⟨t, ht, exec_records hw ht⟩
  · cases he : exec i s with
    | next t => exact absurd (readsWritten_of_exec hw he) hnot
    | fault f =>
      obtain ⟨a, rfl, ha, hnone⟩ := exec_names he
      exact ⟨a, ha, hnone, rfl⟩
    | refused r => exact absurd he (exec_ne_refused i s r)

end Sys2Proof.Machine
end
